-- ==== Sys2Proof/Word.lean ====
section
/-! DEFINITION. The register and operand widths of the block (`spec/00_scope.md` R9: `u8`, `u32`, `i8`, `i32`). A signed width is
the same bit vector, read with `BitVec.toInt`. Signal values are exact rationals (R14) and use Lean's `Rat`. -/

namespace Sys2Proof

/-- `u8` (R9), also one byte of ROM (R61). -/
abbrev U8 := BitVec 8

/-- `i8` (R9): eight bits read as two's complement. -/
abbrev I8 := BitVec 8

/-- `u32` (R9). -/
abbrev U32 := BitVec 32

/-- `i32` (R9): thirty-two bits read as two's complement. -/
abbrev I32 := BitVec 32

end Sys2Proof
end

