-- ==== Sys2Proof/Config.lean ====
section
/-! DEFINITION. What the spec leaves OPEN and no plain data can hold (`spec/00_scope.md` R7, `92_eei_decisions.md`, the summary
of open parameters): the functions `EXP2` and `DECOMP`, and one value the spec does not state. They are opaque constants with no
body, so that nothing can be proved of a value of theirs beyond the laws the model builds on them. Also `F`, the width of the
phase fraction, because a register's type depends on it. The OPEN parameters that are plain data (`NCH`, `KIND`, `N`, `SR`, `ROM`,
`ROM_SIZE`, `PCM8_MASTER`) stand in `Machine.State`; the constants with a stated value stand in `Machine/Params.lean`. -/

namespace Sys2Proof.Config

/-- `F` (R7, D16): fraction bits of the phase accumulator. -/
abbrev F : Nat := 32

/-- The free values behind `EXP2` (R121, D15): any function at all. `Machine.exp2` shapes it into one that satisfies the law of
R121, and is equal to it when it satisfies the law itself (log 7). -/
opaque exp2Raw : Int → Rat

/-- The free value behind `DECOMP` (R143, D28): the list the codec returns for the ROM contents, the ROM size, the address and the length
(log 8). -/
opaque decompData : List (Nat × BitVec 8) → Nat → Nat → Nat → List (BitVec 8)

/-- The free value behind `DECOMP`'s right to raise `ROM_RANGE` (R143, D28): `some a` where it does, `a` a hint for the
address of the record (log 8). -/
opaque decompFault : List (Nat × BitVec 8) → Nat → Nat → Nat → Option Nat

/-- What the 32 bits of `c.pos` hold when the exact position is `2^32` or more and no loop replaces it: R156 calls the case
impossible, R158's stop arm keeps the value, R29 gives the register 32 bits. Applied to the exact position (log 9). -/
opaque posOverflow : Nat → BitVec 32

end Sys2Proof.Config
end

