-- ==== Sys2Proof/Machine/Params.lean ====
section
/-! DEFINITION. The constants of `spec/00_scope.md` R7 with a stated value. Those the spec marks as general knowledge (G1 to G28)
are the spec's own defaults (log 21). -/

namespace Sys2Proof.Machine.Params

/-- `INC_INT_BITS` (R7, D16). -/
def incIntBits : Nat := 16

/-- `PCM_KEY_CENTER` (R7, R145). -/
def pcmKeyCenter : Int := 60

/-- `PCM_RATE_SHIFT` (R7, R145). -/
def pcmRateShift : Nat := 10

/-- `SQUARE_BASE` (R7, R254). -/
def squareBase : Rat := 3520

/-- `WAVE_BASE` (R7, R254). -/
def waveBase : Rat := 7040

/-- `PSG_KEY_CENTER` (R7, R254). -/
def psgKeyCenter : Int := 69

/-- `NOISE_BASE` (R7, R255, D46). -/
def noiseBase : Rat := 4096

/-- `NOISE_KEY_CENTER` (R7, R255, D46). -/
def noiseKeyCenter : Int := 60

/-- `NOISE_FMIN` (R7, R255). -/
def noiseFMin : Rat := 8

/-- `NOISE_FMAX` (R7, R255). -/
def noiseFMax : Rat := 0x80000

/-- `LOOP_SENTINEL` (R7, R158, D22). -/
def loopSentinel : BitVec 32 := 0x40000000

/-- `HEADER_SIZE` (R7, R142, D21). -/
def headerSize : Nat := 16

/-- `SYNTH_STEP_DIV` (R7, R183, D32). -/
def synthStepDiv : Nat := 64

/-- `PCM8_VOL_FIX` (R7, R290, D47). -/
def pcm8VolFix : Int := 0x2000

/-- `PCM8_GAIN_MAX` (R7, R291, D47). -/
def pcm8GainMax : Rat := 0x10000

/-- `PAN_CENTER` (R7, R290). -/
def panCenter : Int := 64

/-- `PSG_GAIN_MAX` (R7, R292). -/
def psgGainMax : Rat := 32

/-- `PSG_MASTER` (R7, R292, D49). -/
def psgMaster : Rat := 1

/-- `PSG_PEAK_SHIFT` (R7, R212, D36). -/
def psgPeakShift : Nat := 10

/-- `PSG_PAN_LEFT_TH` (R7, R294, D48). -/
def psgPanLeftTh : Int := -21

/-- `PSG_PAN_RIGHT_TH` (R7, R294, D48). -/
def psgPanRightTh : Int := 20

end Sys2Proof.Machine.Params
end

