-- ==== Sys2Proof/Machine/Arith.lean ====
section
/-! DEFINITION. The arithmetic of the spec: the operators of `spec/00_scope.md` R11, `EXP2` and the phase arithmetic of
`spec/40_channel_contract.md` R120 to R124. Everything is exact; narrowing to a register's width is written where it happens. -/

namespace Sys2Proof.Machine

/-- `a >> k` on an `Int`: `floor(a / 2^k)` (R11). -/
def asr (a : Int) (k : Nat) : Int := a / 2 ^ k

/-- `tdiv(a, b)`: division truncating toward zero (R11). -/
def tdiv (a b : Int) : Int := a.tdiv b

/-- `wrap32(v)`: the `i32` congruent to `v` modulo `2^32` (R11). -/
def wrap32 (v : Int) : Int := (v + 2 ^ 31) % 2 ^ 32 - 2 ^ 31

/-- `trunc8(v)`: `v mod 256` (R11). -/
def trunc8 (v : Int) : BitVec 8 := BitVec.ofInt 8 v

/-- `~v` on an `i32`: `-v - 1` (R11). -/
def not32 (v : Int) : Int := -v - 1

/-- `clamp(v, lo, hi) = min(max(v, lo), hi)` (R11, R255). -/
def clamp (v lo hi : Rat) : Rat := min (max v lo) hi

/-- `sext_5` of a five-bit field (R10). -/
def sext5 (v : Nat) : Int := if v < 16 then v else (v : Int) - 32

/-- `2^k` for any integer `k`. -/
def pow2 (k : Int) : Rat := if 0 ≤ k then ((2 ^ k.toNat : Nat) : Rat) else 1 / ((2 ^ (-k).toNat : Nat) : Rat)

/-- `EXP2` at `768 * k + r` (R121): `2^k` at `r = 0`, and from there never falling and never above `2^(k+1)`, through the free
values of `Config.exp2Raw` (log 7). -/
def exp2Within (k : Int) : Nat → Rat
  | 0 => pow2 k
  | r + 1 => max (exp2Within k r) (min (Config.exp2Raw (768 * k + (r + 1 : Nat))) (pow2 (k + 1)))

/-- `EXP2` (R121): stands for `2^(e/768)`; positive, exact at the multiples of 768, never falling. -/
def exp2 (e : Int) : Rat := exp2Within (e / 768) (e % 768).toNat

/-- `INC(f, d) = floor(f * 2^F / d)` (R122). -/
def phaseInc (f d : Rat) : Nat := (Rat.floor (f * ((2 ^ Config.F : Nat) : Rat) / d)).toNat

/-- `inc >= 2^(F + INC_INT_BITS)` (R123). -/
def incTooBig (inc : Nat) : Bool := decide (2 ^ (Config.F + Params.incIntBits) ≤ inc)

/-- The fraction after `ADV` (R124): `(frac + inc) mod 2^F`. -/
def advFrac (frac : BitVec Config.F) (inc : Nat) : BitVec Config.F := BitVec.ofNat Config.F (frac.toNat + inc)

/-- What `ADV` returns (R124): `(frac + inc) >> F`. -/
def advDelta (frac : BitVec Config.F) (inc : Nat) : Nat := (frac.toNat + inc) / 2 ^ Config.F

/-- The 32 bits of `c.pos` for an exact position (R29, R156): the position itself when it fits, else a free value (log 9). -/
def storePos (p : Nat) : BitVec 32 := if p < 2 ^ 32 then BitVec.ofNat 32 p else Config.posOverflow p

/-- `c.frac / 2^F` (R30). -/
def phaseOf (frac : BitVec Config.F) : Rat := (frac.toNat : Rat) / ((2 ^ Config.F : Nat) : Rat)

end Sys2Proof.Machine
end

