-- ==== Sys2Proof/Syntax.lean ====
section
/-! DEFINITION. The commands of the block: the eleven rows of `spec/opcode_table.json` (`spec/30_encoding.md` R82), their typed
operands (R83), and the form in which the host sends them, a command word with an operand record beside it (R80). -/

namespace Sys2Proof

/-- The eleven opcodes that spell a command (R82). -/
inductive Opcode where
  | initPcm8 | initSquare | initWave | initNoise | setVolume | setPitch
  | release | tickNote | process | stop | mixBlock
  deriving DecidableEq, Repr

/-- The `note` operand (R83): `{key: u8, velocity: u8, duration: u32}`. -/
structure NoteArg where
  key : U8
  velocity : U8
  duration : U32
  deriving DecidableEq, Repr

/-- The `adsr` operand (R83): four `u8` rates. -/
structure AdsrArg where
  A : U8
  D : U8
  S : U8
  R : U8
  deriving DecidableEq, Repr

/-- The noise pattern code (R95): 0 `fine`, 1 `rough`. -/
inductive NoisePat where
  | fine | rough
  deriving DecidableEq, Repr

/-- The operands every note-start command carries (R83): owner, note, adsr, volume, pan, pitch. The owner id is any natural
number, and an INIT always names one. -/
structure StartArgs where
  owner : Nat
  note : NoteArg
  adsr : AdsrArg
  vol : U8
  pan : I8
  pitch : I32
  deriving DecidableEq, Repr

/-- The `buf` operand of `PROCESS` and `MIX_BLOCK` (R80, R83, R353): the output block as the last command or the host left it,
or a block with new contents that the host hands over (DESIGN CHOICE, log 4). -/
inductive BufArg where
  | current
  | supplied (block : List Rat)
  deriving DecidableEq, Repr

/-- One constructor per row of the opcode table. -/
inductive Instr where
  | initPcm8 (ch : U8) (start : StartArgs) (sampleOffset : U32) (fixed compressed : Bool)
  | initSquare (ch : U8) (start : StartArgs) (duty : BitVec 2)
  | initWave (ch : U8) (start : StartArgs) (waveOffset : U32)
  | initNoise (ch : U8) (start : StartArgs) (npat : NoisePat)
  | setVolume (ch : U8) (vol : U8) (pan : I8)
  | setPitch (ch : U8) (pitch : I32)
  | release (ch : U8)
  | tickNote (ch : U8)
  | process (ch : U8) (buf : BufArg)
  | stop (ch : U8)
  | mixBlock (buf : BufArg)
  deriving DecidableEq, Repr

/-! The form on the host's side (R80): the numbers of a record are any integers; decode tests their widths (R84). -/

/-- A `note` record as sent. -/
structure RawNote where
  key : Int
  velocity : Int
  duration : Int
  deriving DecidableEq, Repr

/-- An `adsr` record as sent. -/
structure RawAdsr where
  A : Int
  D : Int
  S : Int
  R : Int
  deriving DecidableEq, Repr

/-- The common part of a note-start record as sent. -/
structure RawStart where
  owner : Nat
  note : RawNote
  adsr : RawAdsr
  vol : Int
  pan : Int
  pitch : Int
  deriving DecidableEq, Repr

/-- The operand records of R83, one shape per row of its table. -/
inductive Operands where
  | none
  | initPcm8 (start : RawStart) (sampleOffset fixed compressed : Int)
  | initSquare (start : RawStart) (duty : Int)
  | initWave (start : RawStart) (waveOffset : Int)
  | initNoise (start : RawStart) (npat : Int)
  | volPan (vol pan : Int)
  | pitch (pitch : Int)
  | buf (b : BufArg)
  deriving DecidableEq, Repr

/-- A command (R80): a 32-bit command word and its operand record. -/
structure Command where
  word : BitVec 32
  operands : Operands
  deriving DecidableEq, Repr

/-- The refusal reasons of decode (`spec/60_exceptions.md` R324), in the order it tests them. -/
inductive RefuseReason where
  | rsvNonzero | reservedOp | chRange | operandShape | operandRange
  deriving DecidableEq, Repr

end Sys2Proof
end

