-- ==== Sys2Proof/Machine/State.lean ====
section
/-! DEFINITION. The state of the block (`spec/10_state.md`), its outputs (`spec/60_exceptions.md` R320 to R326), construction and
reset (`spec/70_reset_and_hazards.md` R350). Plain data throughout. -/

namespace Sys2Proof.Machine

/-- The four channel kinds (R2, R24). -/
inductive Kind where
  | pcm8 | square | wave | noise
  deriving DecidableEq, Repr

/-- The envelope states (R22); code 7 of R89, which no command writes, has no constructor (log 20). -/
inductive EnvState where
  | initializing | rising | decaying | playing | releasing | dying | dead
  deriving DecidableEq, Repr

/-- The three-way hard pan of the PSG kinds (R40). -/
inductive PanPot where
  | left | center | right
  deriving DecidableEq, Repr

/-- `c.note` (R26). -/
structure Note where
  key : U8
  velocity : U8
  duration : U32
  pitch : I32
  deriving DecidableEq, Repr

/-- `c.hdr` (R32): the sample header record. -/
structure Header where
  loop : U32
  rate : U32
  loopOffset : U32
  length : U32
  deriving DecidableEq, Repr

/-- `c.sp` (R35): the synthesis parameter record. -/
structure SynthParams where
  type : U8
  initialCycle : U8
  cycleSpeed : U8
  cycleAmplitude : U8
  minimumCycle : U8
  deriving DecidableEq, Repr

/-- One channel instance: its own copy of every per-channel register (R20, R22 to R43). -/
structure Chan where
  kind : Kind
  state : EnvState
  owner : Option Nat
  gen : U32
  note : Note
  A : U8
  D : U8
  S : U8
  R : U8
  vel : U8
  pos : BitVec 32
  frac : BitVec Config.F
  freq : Rat
  hdr : Header
  base : Nat
  fixed : Bool
  compressed : Bool
  synth : Bool
  dec : List I8
  sp : SynthParams
  lvol : U8
  rvol : U8
  step : U8
  next : EnvState
  peak : U8
  sus : U8
  panpot : PanPot
  duty : BitVec 2
  wave : List Rat
  npat : NoisePat
  deriving DecidableEq, Repr

/-- A channel at construction (R350). -/
def Chan.reset (kind : Kind) : Chan where
  kind := kind
  state := .dead
  owner := none
  gen := 0
  note := ⟨0, 0, 0, 0⟩
  A := 0
  D := 0
  S := 0
  R := 0
  vel := 0
  pos := 0
  frac := 0
  freq := 0
  hdr := ⟨0, 0, 0, 0⟩
  base := 0
  fixed := false
  compressed := false
  synth := false
  dec := []
  sp := ⟨0, 0, 0, 0, 0⟩
  lvol := 0
  rvol := 0
  step := 0
  next := .initializing
  peak := 0
  sus := 0
  panpot := .center
  duty := 0
  wave := List.replicate 32 0
  npat := .fine

/-- ROM (R61): `size` bytes at addresses `0` to `size - 1`. `cells` lists those that are not 0, by rising address (log 10). -/
structure Memory where
  cells : List Host.Cell
  size : Nat
  deriving DecidableEq, Repr

/-- The parameters of R7 that are plain data and are not held elsewhere in the state: `NCH` is the number of channels, `KIND` is
in the channels, `ROM` and `ROM_SIZE` are the memory (log 6). Fixed at construction (R353). -/
structure Cfg where
  n : Nat
  sr : Nat
  pcm8Master : Rat
  synthDetectEnable : Bool
  psgInitDropsStagedRelease : Bool
  psgInitResetsPhase : Bool
  deriving DecidableEq, Repr

/-- The events a command emits (R326): an owner and a channel index. -/
inductive Event where
  | attach (owner channel : Nat)
  | detach (owner channel : Nat)
  deriving DecidableEq, Repr

/-- The fault reasons (R323). -/
inductive FaultReason where
  | romRange | decRange | incRange | synthType | kindMismatch
  deriving DecidableEq, Repr

/-- What a command's rule raises: the reason, and the address for `ROM_RANGE` (R320). -/
structure FaultCause where
  reason : FaultReason
  addr : Option Nat
  deriving DecidableEq, Repr

/-- The fault record (R320): `{reason, op, ch, addr}`. -/
structure FaultRecord where
  reason : FaultReason
  op : Opcode
  ch : Nat
  addr : Option Nat
  deriving DecidableEq, Repr

/-- The outcome of one command (R80, R320, R321). -/
inductive CmdOutcome where
  | ok
  | fault (record : FaultRecord)
  | refused (reason : RefuseReason)
  deriving DecidableEq, Repr

/-- The output of one command (R326): its outcome, its events in emission order, and `TICK_NOTE`'s result bit. -/
structure Output where
  outcome : CmdOutcome
  events : List Event
  result : Option Bool
  deriving DecidableEq, Repr

/-- The state of the block, with the host's stream on one side and the last command's output on the other. -/
structure State where
  cfg : Cfg
  rom : Memory
  chs : List Chan
  buf : List Rat
  faulted : Bool
  refused : Bool
  cmds : List Command
  out : Output
  deriving DecidableEq, Repr

/-- Why a step is not taken because the machine has stopped. -/
inductive Fault where
  /-- Raised by `step` alone, when `faulted` is 1: "the block is quiescent: it takes no further command (the model has no step)"
  (R110). Safe: the spec says that nothing happens. -/
  | quiescent
  deriving DecidableEq, Repr

/-- Why a step has nothing to run. -/
inductive Refusal where
  /-- Raised by an arm of `exec` whose instruction has no meaning yet. No arm does. Safe. -/
  | notModelled (mnemonic : String)
  /-- Raised by `step` alone, when the host has sent no command: the block does "one command per step" (R21). Safe: the state is as it
  was, and the step is taken once a command comes. -/
  | noCommand
  deriving DecidableEq, Repr

/-- No output yet (log 16). -/
def Output.initial : Output := ⟨.ok, [], none⟩

/-- Construction (R350, R353): one channel per kind of the list, every register at its reset value, both marks 0. The block is the
host's; the model starts it at zeros (log 5). -/
def State.construct (cfg : Cfg) (rom : Memory) (kinds : List Kind) : State where
  cfg := cfg
  rom := rom
  chs := kinds.map Chan.reset
  buf := List.replicate (2 * cfg.n) 0
  faulted := false
  refused := false
  cmds := []
  out := Output.initial

/-- The values the model's reset gives the OPEN parameters (DESIGN CHOICE, log 5); the three switches at R7's values. -/
def Cfg.reset : Cfg where
  n := 4
  sr := 4096
  pcm8Master := 1
  synthDetectEnable := true
  psgInitDropsStagedRelease := true
  psgInitResetsPhase := false

/-- The kinds of the reset pool (DESIGN CHOICE, log 5): the four kinds in turn, 64 times, 256 channels, so that every `CH` names one. -/
def resetKinds : List Kind :=
  (List.replicate 64 [Kind.pcm8, Kind.square, Kind.wave, Kind.noise]).flatten

/-- The block right after reset, which is construction (R350), with the OPEN parameters at the values of log 5. -/
def State.reset : State := State.construct Cfg.reset ⟨[], 2 ^ 32⟩ resetKinds

end Sys2Proof.Machine
end

