-- ==== Sys2Proof/Machine/Flags.lean ====
section
/-! DEFINITION. The status predicates of the block (`spec/10_state.md` R45; it has no arithmetic flags) and the state codes of
`spec/30_encoding.md` R89. -/

namespace Sys2Proof.Machine

/-- The code of an envelope state (R89); its order is the order of R23. -/
def stateCode : EnvState → Nat
  | .initializing => 0
  | .rising => 1
  | .decaying => 2
  | .playing => 3
  | .releasing => 4
  | .dying => 5
  | .dead => 6

/-- The code of a channel kind (R24). -/
def kindCode : Kind → Nat
  | .pcm8 => 0
  | .square => 1
  | .wave => 2
  | .noise => 3

/-- The code of a hard pan (R40). -/
def panCode : PanPot → Nat
  | .left => 0
  | .center => 1
  | .right => 2

/-- The code of a fault reason (R323). -/
def faultCode : FaultReason → Nat
  | .romRange => 1
  | .decRange => 2
  | .incRange => 3
  | .synthType => 4
  | .kindMismatch => 5

/-- The code of a refusal reason (R324). -/
def refuseCode : RefuseReason → Nat
  | .rsvNonzero => 1
  | .reservedOp => 2
  | .chRange => 3
  | .operandShape => 4
  | .operandRange => 5

/-- `late(c)`: "Releasing or later" (R23), which includes `Dead`. -/
def late (c : Chan) : Bool := decide (stateCode .releasing ≤ stateCode c.state)

/-- "Not eligible for mixing" (R45, R127). -/
def isDead (c : Chan) : Bool := decide (c.state = .dead)

/-- In the free pool (R45). -/
def isFree (c : Chan) : Bool := c.owner.isNone

/-- The PSG family (R2). -/
def isPsg (k : Kind) : Bool := decide (k ≠ .pcm8)

end Sys2Proof.Machine
end

