-- ==== Sys2Proof/Machine/Ops.lean ====
section
/-! DEFINITION. The shared operations: ROM reads and the output block (`spec/20_memory.md`), the part of a command that works on
one channel, raising a fault and refusing (`spec/60_exceptions.md` R320, R321), attaching and stopping (`spec/40_channel_contract.md`
R111, R118), and the frame loop of every generator. -/

namespace Sys2Proof.Machine

/-! ROM. -/

/-- The byte listed at an address, 0 where none is listed (log 10). -/
def byteAt : List Host.Cell → Nat → U8
  | [], _ => 0
  | (k, b) :: rest, a => if k = a then b else byteAt rest a

/-- `ROM[a]` for `a < ROM_SIZE` (R61). -/
def Memory.byte (m : Memory) (a : Nat) : U8 := byteAt m.cells a

/-- Addresses strictly rising from `lo`, below `size`, and no byte 0 listed. -/
def cellsWf (size : Nat) : Nat → List Host.Cell → Bool
  | _, [] => true
  | lo, (k, b) :: rest => decide (lo ≤ k) && decide (k < size) && decide (b ≠ 0) && cellsWf size (k + 1) rest

/-- The canonical form of a memory. -/
def Memory.wf (m : Memory) : Bool := cellsWf m.size 0 m.cells

/-- `MemRead(a, n)` (R62): the `n` bytes from `a`, or the first address out of range when `a + n > ROM_SIZE` (R320). -/
def memRead (m : Memory) (a n : Nat) : Except Nat (List U8) :=
  if a + n ≤ m.size then .ok ((List.range n).map fun k => m.byte (a + k)) else .error (max a m.size)

/-- A byte put into a rising list; a 0 takes the entry out. -/
def putByte : List Host.Cell → Nat → U8 → List Host.Cell
  | [], a, b => if b = 0 then [] else [(a, b)]
  | (k, v) :: rest, a, b =>
    if a < k then (if b = 0 then (k, v) :: rest else (a, b) :: (k, v) :: rest)
    else if a = k then (if b = 0 then rest else (k, b) :: rest)
    else (k, v) :: putByte rest a b

/-- The LOADER's write (R5 (a), R353): how a ROM image is made before construction. No command reaches it (R61). -/
def Memory.load (m : Memory) (a : Nat) (b : U8) : Memory :=
  if a < m.size then { m with cells := putByte m.cells a b } else m

/-- A run of bytes loaded from an address on. -/
def Memory.loadBytes (m : Memory) : Nat → List U8 → Memory
  | _, [] => m
  | a, b :: rest => (m.load a b).loadBytes (a + 1) rest

/-! The output block. -/

/-- `BufAcc(j, v)`: `buf[j] <- buf[j] + v` (R64). -/
def bufAcc (buf : List Rat) (j : Nat) (v : Rat) : List Rat := buf.modify j (· + v)

/-- One frame (R295): the left sample at `2i`, then the right at `2i + 1`. -/
def accFrame (buf : List Rat) (i : Nat) (l r : Rat) : List Rat := bufAcc (bufAcc buf (2 * i) l) (2 * i + 1) r

/-- The block of `2N` zeros. -/
def zeroBlock (n : Nat) : List Rat := List.replicate (2 * n) 0

/-! A command at work on one channel. -/

/-- What a command's rule has in hand: its channel, the output block, what it has emitted and returned. -/
structure Work where
  chan : Chan
  buf : List Rat
  events : List Event
  result : Option Bool
  deriving DecidableEq, Repr

/-- How a rule ends: it is through, or it has raised a fault, and then what it had done so far remains (R320). -/
inductive Run where
  | done (w : Work)
  | raised (w : Work) (cause : FaultCause)
  deriving DecidableEq, Repr

/-- The work before a rule's first action. -/
def Work.start (c : Chan) (buf : List Rat) : Work := ⟨c, buf, [], none⟩

/-- The channel's registers changed. -/
def Work.onChan (w : Work) (f : Chan → Chan) : Work := { w with chan := f w.chan }

/-- The command's result (R12, `return v`). -/
def Work.answer (w : Work) (b : Bool) : Work := { w with result := some b }

/-- The `Detach` of an owned channel `i`, nothing for a free one (R111, R118). -/
def detachEvents (i : Nat) : Option Nat → List Event
  | some o => [.detach o i]
  | none => []

/-- `STOP(c, i)` (R118). -/
def Work.stop (i : Nat) (w : Work) : Work :=
  { w with
    chan := { w.chan with state := .dead, owner := none }
    events := w.events ++ detachEvents i w.chan.owner }

/-- `ATTACH(c, i, owner, note)` (R111). -/
def Work.attach (i : Nat) (owner : Nat) (note : NoteArg) (w : Work) : Work :=
  { w with
    chan := { w.chan with
      state := .initializing
      owner := some owner
      gen := w.chan.gen + 1
      note := { w.chan.note with key := note.key, velocity := note.velocity, duration := note.duration } }
    events := w.events ++ detachEvents i w.chan.owner ++ [.attach owner i] }

/-! The frame loop. -/

/-- What one frame of a generator comes to: a sample and the channel after it, the same as the last frame before the channel
stops (R160), or a fault before the frame is written (R328). -/
inductive FrameOut where
  | go (c : Chan) (s : Rat)
  | last (c : Chan) (s : Rat)
  | fault (cause : FaultCause)
  deriving DecidableEq, Repr

/-- The loop `for i in 0 .. N-1` of every generator (R65, R160, R295): `k` frames left, the next one is `f`. -/
def frames (ch : Nat) (gL gR : Rat) (tick : Chan → FrameOut) : Nat → Nat → Work → Run
  | 0, _, w => .done w
  | k + 1, f, w =>
    match tick w.chan with
    | .go c s => frames ch gL gR tick k (f + 1) { w with chan := c, buf := accFrame w.buf f (s * gL) (s * gR) }
    | .last c s => .done (Work.stop ch { w with chan := c, buf := accFrame w.buf f (s * gL) (s * gR) })
    | .fault cause => .raised w cause

/-! The ends of a command. -/

/-- The channel, the block and the output of a command written back. -/
def State.commit (s : State) (ch : Nat) (w : Work) : State :=
  { s with chs := s.chs.set ch w.chan, buf := w.buf, out := ⟨.ok, w.events, w.result⟩ }

/-- RAISING A FAULT (R320), once for every command: the record is the outcome, the events emitted so far stay in the output, the
mark `faulted` is set. The block has no vector, no saved state and no return (R329). -/
def raiseFault (s : State) (record : FaultRecord) : State :=
  { s with faulted := true, out := ⟨.fault record, s.out.events, none⟩ }

/-- Refusing a command (R321): the mark `refused` and the outcome, nothing else. -/
def refuseCommand (s : State) (reason : RefuseReason) : State :=
  { s with refused := true, out := ⟨.refused reason, [], none⟩ }

/-- The end of a one-channel command. -/
def finish (s : State) (op : Opcode) (ch : Nat) : Run → State
  | .done w => s.commit ch w
  | .raised w cause => raiseFault (s.commit ch w) ⟨cause.reason, op, ch, cause.addr⟩

/-- A one-channel command (R110): its rule runs on channel `ch` and block `buf`. A channel the pool does not have is refused
`CH_RANGE`, as decode refuses it (log 14). -/
def onChannel (op : Opcode) (ch : U8) (buf : List Rat) (s : State) (rule : Nat → Work → Run) :
    Host.Outcome State Fault Refusal :=
  match s.chs[ch.toNat]? with
  | some c => .next (finish s op ch.toNat (rule ch.toNat (Work.start c buf)))
  | none => .next (refuseCommand s .chRange)

end Sys2Proof.Machine
end

