-- ==== Sys2Proof/Machine/Operands.lean ====
section
/-! DEFINITION. How operands and the data they point to are read: ADSR masking (`spec/30_encoding.md` R90), the `buf` operand, the
sample header (R92), the synthesis parameters (R93), the wavetable (`spec/44_psg_generators.md` R263), the hard-pan selector
(`spec/45_volume_mixer.md` R294), and the fixed tables (R256, R270). -/

namespace Sys2Proof.Machine

/-- The block a `buf` operand refers to (R80, log 4). -/
def bufOf (b : BufArg) (s : State) : List Rat :=
  match b with
  | .current => s.buf
  | .supplied xs => xs

/-- A field masked to its low `bits` bits (R90): "silently truncated, not rejected". -/
def maskTo (bits : Nat) (x : U8) : U8 := x &&& BitVec.ofNat 8 (2 ^ bits - 1)

/-- PCM8 ADSR assembly (R91): the four operands unchanged. -/
def setAdsrPcm8 (a : AdsrArg) (c : Chan) : Chan := { c with A := a.A, D := a.D, S := a.S, R := a.R }

/-- PSG ADSR assembly (R90): 3, 3, 4 and 3 bits. -/
def setAdsrPsg (a : AdsrArg) (c : Chan) : Chan :=
  { c with A := maskTo 3 a.A, D := maskTo 3 a.D, S := maskTo 4 a.S, R := maskTo 3 a.R }

/-- A little-endian `u32` from four bytes (R66, R92). -/
def le32 (b0 b1 b2 b3 : U8) : U32 := b3 ++ b2 ++ b1 ++ b0

/-- The header fields of 16 bytes (R92): loop, rate, loopOffset, length. -/
def headerOf : List U8 → Header
  | [a0, a1, a2, a3, b0, b1, b2, b3, c0, c1, c2, c3, d0, d1, d2, d3] =>
    ⟨le32 a0 a1 a2 a3, le32 b0 b1 b2 b3, le32 c0 c1 c2 c3, le32 d0 d1 d2 d3⟩
  | _ => ⟨0, 0, 0, 0⟩

/-- `HEADER(ROM, a)` (R141), with the default layout of R92; the error is the first address out of range. -/
def readHeader (m : Memory) (a : Nat) : Except Nat Header := (memRead m a Params.headerSize).map headerOf

/-- The synthesis parameters of 6 bytes (R93); byte 0 is ignored. -/
def synthParamsOf : List U8 → SynthParams
  | [_, type, initialCycle, cycleSpeed, cycleAmplitude, minimumCycle] =>
    ⟨type, initialCycle, cycleSpeed, cycleAmplitude, minimumCycle⟩
  | _ => ⟨0, 0, 0, 0, 0⟩

/-- `SYNTHP(ROM, a)` (R181), with the default layout of R93. -/
def readSynthParams (m : Memory) (a : Nat) : Except Nat SynthParams := (memRead m a 6).map synthParamsOf

/-- `DECOMP(ROM, a, n)` (R143): whatever the codec answers, or `ROM_RANGE` with an address outside ROM (log 8). -/
def decomp (m : Memory) (a n : Nat) : Except Nat (List I8) :=
  match Config.decompFault m.cells m.size a n with
  | some x => .error (max x m.size)
  | none => .ok (Config.decompData m.cells m.size a n)

/-- `SYNTH_DETECT(h)` (R180). -/
def synthDetect (cfg : Cfg) (h : Header) : Bool :=
  cfg.synthDetectEnable && decide (h.loop = Params.loopSentinel) && decide (h.loopOffset = 0) && decide (h.length = 0)

/-- The two entries of one wavetable byte (R263): high nibble first, each over 16. -/
def nibbles (b : U8) : List Rat := [((b.toNat / 16 : Nat) : Rat) / 16, ((b.toNat % 16 : Nat) : Rat) / 16]

/-- `WAVE_DECODE` (R262, R263): the nibbles, less their mean. -/
def waveDecode (bytes : List U8) : List Rat :=
  let u := bytes.flatMap nibbles
  let m := u.sum / 32
  u.map (· - m)

/-- `PANPOT(pan)` (R294). -/
def panpotOf (pan : I8) : PanPot :=
  if pan.toInt < Params.psgPanLeftTh then .left
  else if Params.psgPanRightTh < pan.toInt then .right
  else .center

/-- `SQUARE_TABLE[d]` (R256). -/
def squareTable (duty : BitVec 2) : List Rat :=
  match duty.toNat with
  | 0 => [7/8, -1/8, -1/8, -1/8, -1/8, -1/8, -1/8, -1/8]
  | 1 => [3/4, 3/4, -1/4, -1/4, -1/4, -1/4, -1/4, -1/4]
  | 2 => [1/2, 1/2, 1/2, 1/2, -1/2, -1/2, -1/2, -1/2]
  | _ => [1/4, 1/4, 1/4, 1/4, 1/4, 1/4, -3/4, -3/4]

/-- One step of the right-shifting Galois LFSR of R270. -/
def lfsrNext (tap reg : Nat) : Nat := if reg % 2 = 1 then (reg / 2) ^^^ tap else reg / 2

/-- `GEN(seed, tap, L)` (R270): the bits that fall out. -/
def lfsrBits (tap : Nat) : Nat → Nat → List Bool
  | 0, _ => []
  | l + 1, reg => decide (reg % 2 = 1) :: lfsrBits tap l (lfsrNext tap reg)

/-- The length `L` of a noise table (R270, R271). -/
def noiseLen : NoisePat → Nat
  | .fine => 0x8000
  | .rough => 0x80

/-- `NOISE_TABLE[p]` (R270). -/
def noiseTable : NoisePat → List Bool
  | .fine => lfsrBits 0x6000 (noiseLen .fine) 0x4000
  | .rough => lfsrBits 0x60 (noiseLen .rough) 0x40

end Sys2Proof.Machine
end

