-- ==== Sys2Proof/Machine/Pitch.lean ====
section
/-! DEFINITION. The pitch-to-frequency NCO (`spec/40_channel_contract.md` R120, R125; `spec/41_pcm8.md` R145;
`spec/44_psg_generators.md` R254, R255). -/

namespace Sys2Proof.Machine

/-- The exponent of a note, `e(K0)` (R120). -/
def noteExp (c : Chan) (center : Int) : Int := 64 * ((c.note.key.toNat : Int) - center) + c.note.pitch.toInt

/-- `PCM8_FREQ(c)` (R145). -/
def pcm8Freq (c : Chan) : Rat :=
  ((c.hdr.rate.toNat / 2 ^ Params.pcmRateShift : Nat) : Rat) * exp2 (noteExp c Params.pcmKeyCenter)

/-- `SQUARE_FREQ(c)` (R254). -/
def squareFreq (c : Chan) : Rat := Params.squareBase * exp2 (noteExp c Params.psgKeyCenter)

/-- `WAVE_FREQ(c)` (R254). -/
def waveFreq (c : Chan) : Rat := Params.waveBase * exp2 (noteExp c Params.psgKeyCenter)

/-- `NOISE_FREQ(c)` (R255). -/
def noiseFreq (c : Chan) : Rat :=
  clamp (Params.noiseBase * exp2 (3 * noteExp c Params.noiseKeyCenter)) Params.noiseFMin Params.noiseFMax

/-- The frequency of a channel by its kind (R125). -/
def freqOf (c : Chan) : Rat :=
  match c.kind with
  | .pcm8 => pcm8Freq c
  | .square => squareFreq c
  | .wave => waveFreq c
  | .noise => noiseFreq c

/-- The note's pitch offset written (R125). -/
def withPitch (pitch : I32) (c : Chan) : Chan := { c with note := { c.note with pitch := pitch } }

/-- `SET_PITCH(c, pitch)` (R125): in every state. -/
def setPitch (pitch : I32) (c : Chan) : Chan := { withPitch pitch c with freq := freqOf (withPitch pitch c) }

end Sys2Proof.Machine
end

