-- ==== Sys2Proof/Machine/Volume.lean ====
section
/-! DEFINITION. Volume scaling and pan (`spec/45_volume_mixer.md` R290 to R294; `spec/43_psg_envelope.md` R211 to R213;
`spec/40_channel_contract.md` R126). -/

namespace Sys2Proof.Machine

/-- One lane of the linear pan law (R290): `trunc8(tdiv(velocity * vol * weight, PCM8_VOL_FIX))`. -/
def panTerm (velocity vol : U8) (weight : Int) : U8 :=
  trunc8 (tdiv (((velocity.toNat : Int) * vol.toNat) * weight) Params.pcm8VolFix)

/-- `PCM8_SET_VOLUME(c, vol, pan)` (R290). -/
def pcm8SetVolume (vol : U8) (pan : I8) (c : Chan) : Chan :=
  { c with
    lvol := panTerm c.note.velocity vol (Params.panCenter - pan.toInt)
    rvol := panTerm c.note.velocity vol (pan.toInt + Params.panCenter) }

/-- The peak (R212): `(velocity * vol) >> PSG_PEAK_SHIFT`. -/
def peakOf (velocity vol : U8) : U8 := BitVec.ofNat 8 (velocity.toNat * vol.toNat / 2 ^ Params.psgPeakShift)

/-- The sustain level (R213): `((peak * S) + 0xF) >> 4`. -/
def susOf (peak s : U8) : U8 := BitVec.ofNat 8 ((peak.toNat * s.toNat + 0xF) / 2 ^ 4)

/-- `PSG_SET_VOLUME(c, vol, pan)` (R211). -/
def psgSetVolume (vol : U8) (pan : I8) (c : Chan) : Chan :=
  let peak := peakOf c.note.velocity vol
  let sus := susOf peak c.S
  { c with
    panpot := panpotOf pan
    peak := peak
    sus := sus
    vel := if c.state = .playing then sus else c.vel }

/-- `SET_VOLUME(c, vol, pan)` (R126): frozen once `late(c)`. -/
def setVolume (vol : U8) (pan : I8) (c : Chan) : Chan :=
  if late c then c
  else if c.kind = .pcm8 then pcm8SetVolume vol pan c
  else psgSetVolume vol pan c

/-- One lane's PCM8 gain (R291). -/
def pcm8Gain (cfg : Cfg) (term vel : U8) : Rat :=
  (term.toNat : Rat) * (vel.toNat : Rat) * cfg.pcm8Master / Params.pcm8GainMax

/-- One lane's PSG gain (R292): 0 when the hard pan is to the other side. -/
def psgGain (muted : Bool) (vel : U8) : Rat :=
  (if muted then 0 else (vel.toNat : Rat) / Params.psgGainMax) * Params.psgMaster

/-- The left gain of a block (R291, R292). -/
def gainL (cfg : Cfg) (c : Chan) : Rat :=
  if c.kind = .pcm8 then pcm8Gain cfg c.lvol c.vel else psgGain (decide (c.panpot = .right)) c.vel

/-- The right gain of a block (R291, R292). -/
def gainR (cfg : Cfg) (c : Chan) : Rat :=
  if c.kind = .pcm8 then pcm8Gain cfg c.rvol c.vel else psgGain (decide (c.panpot = .left)) c.vel

end Sys2Proof.Machine
end

