-- ==== Sys2Proof/Machine/Psg.lean ====
section
/-! DEFINITION. The frame-counted envelope of the PSG kinds (`spec/43_psg_envelope.md` R214 to R225). -/

namespace Sys2Proof.Machine

/-- `c.step <- c.step + 1`, the first action of every state that holds (R216 to R219; log 15). -/
def psgCount (c : Chan) : Chan := { c with step := c.step + 1 }

/-- `DEC_ENTRY(c)` (R220), on integers: `vel - 1 <= sus`. After a `SET_VOLUME` that put `sus` above `vel` (R211) it raises the velocity, also with
`A = 0`, of which R226 says that only a `SET_VOLUME` in Playing raises it: the model follows the pseudocode (DESIGN CHOICE, log 23). -/
def decEntry (c : Chan) : Chan :=
  if (c.vel.toNat : Int) - 1 ≤ c.sus.toNat then { c with step := 0, vel := c.sus, next := .playing }
  else { c with step := 0, vel := c.vel - 1 }

/-- `SUS_ENTRY(c)` (R221). -/
def susEntry (c : Chan) : Chan := { c with step := 0 }

/-- `REL_ENTRY(c)` (R222). -/
def relEntry (i : Nat) (w : Work) : Work :=
  if w.chan.R = 0 then (w.onChan fun c => { c with vel := 0 }).stop i
  else w.onChan fun c =>
    if (c.vel.toNat : Int) - 1 ≤ 0 then { c with step := 0, next := .dying, vel := 0 }
    else { c with step := 0, vel := c.vel - 1 }

/-- Into Decaying with its entry helper (R214, R220). -/
def enterDecaying (c : Chan) : Chan := decEntry { c with state := .decaying }

/-- Into Playing with its entry helper (R214, R221). -/
def enterPlaying (c : Chan) : Chan := susEntry { c with state := .playing }

/-- Into Releasing with its entry helper (R214, R222). -/
def enterReleasing (i : Nat) (w : Work) : Work := relEntry i (w.onChan fun c => { c with state := .releasing })

/-- Initializing (R215). -/
def psgInitializing (cfg : Cfg) (c : Chan) : Chan :=
  let next := if cfg.psgInitDropsStagedRelease ∨ c.next ≠ .releasing then .rising else c.next
  let c := { c with next := next, step := 0 }
  if (c.A = 0 ∧ c.D = 0) ∨ (c.sus = 0 ∧ c.peak = 0) then { c with state := .playing, vel := c.sus }
  else if c.A = 0 ∧ c.S.toNat < 15 then
    { c with state := .decaying, vel := BitVec.ofNat 8 (max (c.peak.toNat - 1) c.sus.toNat) }
  else if c.A = 0 then { c with state := .playing, vel := c.sus }
  else { c with state := .rising, vel := 1 }

/-- The climb of Rising (R216, the last branch). -/
def psgClimb (c : Chan) : Chan :=
  if c.peak.toNat ≤ c.vel.toNat + 1 then
    { c with step := 0, vel := c.peak, next := if c.D = 0 ∨ c.peak = c.sus then .playing else .decaying }
  else { c with step := 0, vel := c.vel + 1 }

/-- Rising (R216). -/
def psgRising (i : Nat) (w : Work) : Work :=
  let w := w.onChan psgCount
  if w.chan.A.toNat ≤ w.chan.step.toNat then
    match w.chan.next with
    | .decaying => w.onChan enterDecaying
    | .playing => w.onChan enterPlaying
    | .releasing => enterReleasing i w
    | _ => w.onChan psgClimb
  else w

/-- Decaying (R217). -/
def psgDecaying (i : Nat) (w : Work) : Work :=
  let w := w.onChan psgCount
  if w.chan.D.toNat ≤ w.chan.step.toNat then
    match w.chan.next with
    | .playing => w.onChan enterPlaying
    | .releasing => enterReleasing i w
    | _ => w.onChan decEntry
  else w

/-- Playing (R218). -/
def psgPlaying (i : Nat) (w : Work) : Work :=
  let w := w.onChan psgCount
  if w.chan.next = .releasing then enterReleasing i w else w.onChan susEntry

/-- Releasing (R219): the boundary that would enter Dying stops the channel. -/
def psgReleasing (i : Nat) (w : Work) : Work :=
  let w := w.onChan psgCount
  if w.chan.R.toNat ≤ w.chan.step.toNat then
    if w.chan.next = .dying then w.stop i else relEntry i w
  else w

/-- `PSG_ENV_STEP(c)` (R214, R223). -/
def psgEnvStep (cfg : Cfg) (i : Nat) (w : Work) : Work :=
  match w.chan.state with
  | .initializing => w.onChan (psgInitializing cfg)
  | .rising => psgRising i w
  | .decaying => psgDecaying i w
  | .playing => psgPlaying i w
  | .releasing => psgReleasing i w
  | .dying => w
  | .dead => w

/-- `PSG_RELEASE(c)` (R224): staged, unless the channel stops at once. -/
def psgRelease (i : Nat) (w : Work) : Work :=
  if w.chan.R = 0 then (w.onChan fun c => { c with vel := 0 }).stop i
  else if w.chan.vel = 0 then w.stop i
  else w.onChan fun c => { c with next := .releasing }

/-- `PSG_EXPIRE(c)` (R225): direct, unless the channel stops at once. -/
def psgExpire (i : Nat) (w : Work) : Work :=
  if w.chan.vel = 0 ∨ w.chan.R = 0 then
    (w.onChan fun c => if c.R = 0 then { c with vel := 0 } else c).stop i
  else w.onChan fun c => { c with state := .releasing }

end Sys2Proof.Machine
end

