-- ==== Sys2Proof/Machine/PsgGen.lean ====
section
/-! DEFINITION. The PSG generators (`spec/44_psg_generators.md` R253, R257, R264, R272): table-lookup oscillators. -/

namespace Sys2Proof.Machine

/-- `PSG_PHASE_INIT(c)` (R253). -/
def psgPhaseInit (cfg : Cfg) (c : Chan) : Chan :=
  if cfg.psgInitResetsPhase then { c with pos := 0, frac := 0 } else c

/-- One frame of an oscillator over a table of `len` entries (R257, R264, R272): sample first, then advance. -/
def tableTick (len : Nat) (sample : Nat → Rat) (inc : Nat) (c : Chan) : FrameOut :=
  let k := c.pos.toNat % len
  .go { c with frac := advFrac c.frac inc, pos := BitVec.ofNat 32 ((k + advDelta c.frac inc) % len) } (sample k)

/-- An oscillator's block: the increment and its test (R122, R123), then every frame. -/
def tableGenerate (cfg : Cfg) (ch : Nat) (gL gR : Rat) (len : Nat) (sample : Nat → Rat) (w : Work) : Run :=
  let inc := phaseInc w.chan.freq (cfg.sr : Rat)
  if incTooBig inc then .raised w ⟨.incRange, none⟩
  else frames ch gL gR (tableTick len sample inc) cfg.n 0 w

/-- The square's sample at an index (R257). -/
def squareSample (c : Chan) (k : Nat) : Rat := (squareTable c.duty).getD k 0

/-- The wavetable's sample at an index (R264). -/
def waveSample (c : Chan) (k : Nat) : Rat := c.wave.getD k 0

/-- The noise sample at an index (R272). -/
def noiseSample (c : Chan) (k : Nat) : Rat := if (noiseTable c.npat).getD k false then 1 / 2 else -1 / 2

/-- `SQUARE_GENERATE` (R257). -/
def squareGenerate (cfg : Cfg) (ch : Nat) (gL gR : Rat) (w : Work) : Run :=
  tableGenerate cfg ch gL gR 8 (squareSample w.chan) w

/-- `WAVE_GENERATE` (R264). -/
def waveGenerate (cfg : Cfg) (ch : Nat) (gL gR : Rat) (w : Work) : Run :=
  tableGenerate cfg ch gL gR 32 (waveSample w.chan) w

/-- `NOISE_GENERATE` (R272). -/
def noiseGenerate (cfg : Cfg) (ch : Nat) (gL gR : Rat) (w : Work) : Run :=
  tableGenerate cfg ch gL gR (noiseLen w.chan.npat) (noiseSample w.chan) w

end Sys2Proof.Machine
end

