-- ==== Sys2Proof/Machine/Init.lean ====
section
/-! DEFINITION. The four INIT commands (`spec/41_pcm8.md` R140; `spec/43_psg_envelope.md` R210; `spec/44_psg_generators.md` R250 to
R252; `spec/40_channel_contract.md` R111 to R113). -/

namespace Sys2Proof.Machine

/-- The kind check (R112), before anything is written. -/
def kindCheck (kind : Kind) (w : Work) (rest : Run) : Run :=
  if w.chan.kind = kind then rest else .raised w ⟨.kindMismatch, none⟩

/-- The epilogue of every INIT (R113): `SET_VOLUME`, then `SET_PITCH`. -/
def initEpilogue (st : StartArgs) (w : Work) : Work :=
  (w.onChan (setVolume st.vol st.pan)).onChan (setPitch st.pitch)

/-- `INIT_PCM8` up to the read of the compressed data (R140): attached, position 0, rates, header, base, flags. -/
def pcm8Prologue (i : Nat) (st : StartArgs) (off : U32) (fixed comp : Bool) (h : Header) (w : Work) : Work :=
  (w.attach i st.owner st.note).onChan fun c =>
    { setAdsrPcm8 st.adsr c with
      pos := 0
      frac := 0
      hdr := h
      base := off.toNat + Params.headerSize
      fixed := fixed
      compressed := comp }

/-- `c.dec` (R140, R143). -/
def pcm8Decode (rom : Memory) (w : Work) : Run :=
  if w.chan.compressed then
    match decomp rom w.chan.base w.chan.hdr.length.toNat with
    | .error a => .raised w ⟨.romRange, some a⟩
    | .ok xs => .done (w.onChan fun c => { c with dec := xs })
  else .done (w.onChan fun c => { c with dec := [] })

/-- `c.synth` and `c.sp` (R140, R180, R181). -/
def pcm8Detect (cfg : Cfg) (rom : Memory) (w : Work) : Run :=
  let w := w.onChan fun c => { c with synth := synthDetect cfg c.hdr }
  if w.chan.synth then
    match readSynthParams rom w.chan.base with
    | .error a => .raised w ⟨.romRange, some a⟩
    | .ok sp => .done (w.onChan fun c => { c with sp := sp })
  else .done w

/-- One part of a rule after another; a fault ends it (R320). -/
def Run.andThen (r : Run) (f : Work → Run) : Run :=
  match r with
  | .done w => f w
  | .raised w cause => .raised w cause

/-- `INIT_PCM8` (R140). -/
def ruleInitPcm8 (cfg : Cfg) (rom : Memory) (st : StartArgs) (off : U32) (fixed comp : Bool) (i : Nat) (w : Work) : Run :=
  kindCheck .pcm8 w <|
    match readHeader rom off.toNat with
    | .error a => .raised w ⟨.romRange, some a⟩
    | .ok h =>
      (pcm8Decode rom (pcm8Prologue i st off fixed comp h w)).andThen fun w =>
        (pcm8Detect cfg rom w).andThen fun w => .done (initEpilogue st w)

/-- The PSG prologue (R210): attached, the rates masked. -/
def psgPrologue (i : Nat) (st : StartArgs) (w : Work) : Work := (w.attach i st.owner st.note).onChan (setAdsrPsg st.adsr)

/-- The end of every PSG INIT (R250 to R252): the phase, then the epilogue. -/
def psgEpilogue (cfg : Cfg) (st : StartArgs) (w : Work) : Work := initEpilogue st (w.onChan (psgPhaseInit cfg))

/-- `INIT_SQUARE` (R250). -/
def ruleInitSquare (cfg : Cfg) (st : StartArgs) (duty : BitVec 2) (i : Nat) (w : Work) : Run :=
  kindCheck .square w <|
    .done (psgEpilogue cfg st ((psgPrologue i st w).onChan fun c => { c with duty := duty }))

/-- `INIT_WAVE` (R251): the ROM read comes after `ATTACH`. -/
def ruleInitWave (cfg : Cfg) (rom : Memory) (st : StartArgs) (off : U32) (i : Nat) (w : Work) : Run :=
  kindCheck .wave w <|
    match memRead rom off.toNat 16 with
    | .error a => .raised (psgPrologue i st w) ⟨.romRange, some a⟩
    | .ok bytes => .done (psgEpilogue cfg st ((psgPrologue i st w).onChan fun c => { c with wave := waveDecode bytes }))

/-- `INIT_NOISE` (R252). -/
def ruleInitNoise (cfg : Cfg) (st : StartArgs) (npat : NoisePat) (i : Nat) (w : Work) : Run :=
  kindCheck .noise w <|
    .done (psgEpilogue cfg st ((psgPrologue i st w).onChan fun c => { c with npat := npat }))

/-- The meaning of `INIT_PCM8` (R140). -/
def execInitPcm8 (ch : U8) (st : StartArgs) (off : U32) (fixed comp : Bool) (s : State) : Host.Outcome State Fault Refusal :=
  onChannel .initPcm8 ch s.buf s (ruleInitPcm8 s.cfg s.rom st off fixed comp)

/-- The meaning of `INIT_SQUARE` (R250). -/
def execInitSquare (ch : U8) (st : StartArgs) (duty : BitVec 2) (s : State) : Host.Outcome State Fault Refusal :=
  onChannel .initSquare ch s.buf s (ruleInitSquare s.cfg st duty)

/-- The meaning of `INIT_WAVE` (R251). -/
def execInitWave (ch : U8) (st : StartArgs) (off : U32) (s : State) : Host.Outcome State Fault Refusal :=
  onChannel .initWave ch s.buf s (ruleInitWave s.cfg s.rom st off)

/-- The meaning of `INIT_NOISE` (R252). -/
def execInitNoise (ch : U8) (st : StartArgs) (npat : NoisePat) (s : State) : Host.Outcome State Fault Refusal :=
  onChannel .initNoise ch s.buf s (ruleInitNoise s.cfg st npat)

end Sys2Proof.Machine
end

