-- ==== Sys2Proof/Machine/Pcm8.lean ====
section
/-! DEFINITION. The PCM8 channel (`spec/41_pcm8.md`): the exponential envelope (R146 to R152), release and expiry (R153,
`spec/40_channel_contract.md` R117), the increment (R155), the raw and compressed players (R156 to R160). -/

namespace Sys2Proof.Machine

/-- Rising (R147). -/
def pcm8Rising (c : Chan) : Chan :=
  let n := c.vel.toNat + c.A.toNat
  if 255 ≤ n then { c with state := .decaying, vel := 255 } else { c with vel := BitVec.ofNat 8 n }

/-- Decaying (R148). -/
def pcm8Decaying (c : Chan) : Chan :=
  let n := c.vel.toNat * c.D.toNat / 2 ^ 8
  if n ≤ c.S.toNat then { c with state := .playing, vel := c.S } else { c with vel := BitVec.ofNat 8 n }

/-- Releasing (R150). -/
def pcm8Releasing (c : Chan) : Chan :=
  let n := c.vel.toNat * c.R.toNat / 2 ^ 8
  if n = 0 then { c with state := .dying, vel := 0 } else { c with vel := BitVec.ofNat 8 n }

/-- `PCM8_ENV_STEP(c)` (R146 to R152). -/
def pcm8EnvStep (i : Nat) (w : Work) : Work :=
  match w.chan.state with
  | .initializing => w.onChan fun c => { c with vel := c.A, state := .rising }
  | .rising => w.onChan pcm8Rising
  | .decaying => w.onChan pcm8Decaying
  | .playing => w
  | .releasing => w.onChan pcm8Releasing
  | .dying => w.stop i
  | .dead => w

/-- `PCM8_RELEASE(c)` (R153). -/
def pcm8Release (w : Work) : Work := w.onChan fun c => { c with state := .releasing }

/-- `PCM8_EXPIRE(c)` (R117). -/
def pcm8Expire (w : Work) : Work := w.onChan fun c => { c with state := .releasing }

/-- The PCM8 increment (R155, R183): in synth mode the fixed-frequency override is suppressed. -/
def pcm8Inc (cfg : Cfg) (c : Chan) : Nat :=
  if c.synth then phaseInc c.freq ((cfg.sr * Params.synthStepDiv : Nat) : Rat)
  else if c.fixed then 2 ^ Config.F
  else phaseInc c.freq (cfg.sr : Rat)

/-- The value of a signed 8-bit sample (R157). -/
def pcmSample (b : I8) : Rat := (b.toInt : Rat) / 128

/-- `RAW_OVERRUN(c)` (R158), for the exact position `p` that is `length` or more. -/
def rawOverrun (p : Nat) (s : Rat) (c : Chan) : FrameOut :=
  if c.hdr.loop = Params.loopSentinel then .go { c with pos := c.hdr.loopOffset } s
  else .last { c with pos := storePos p } s

/-- One frame of the raw branch (R156). -/
def rawTick (rom : Memory) (inc : Nat) (c : Chan) : FrameOut :=
  match memRead rom (c.base + c.pos.toNat) 1 with
  | .error a => .fault ⟨.romRange, some a⟩
  | .ok bytes =>
    let s := pcmSample (bytes.headD 0)
    let p := c.pos.toNat + advDelta c.frac inc
    let c' := { c with frac := advFrac c.frac inc }
    if c.hdr.length.toNat ≤ p then rawOverrun p s c' else .go { c' with pos := storePos p } s

/-- One frame of the compressed branch (R159). -/
def decTick (inc : Nat) (c : Chan) : FrameOut :=
  match c.dec[c.pos.toNat]? with
  | none => .fault ⟨.decRange, none⟩
  | some d =>
    let p := c.pos.toNat + advDelta c.frac inc
    let c' := { c with frac := advFrac c.frac inc, pos := storePos p }
    if c.dec.length ≤ p then .last c' (pcmSample d) else .go c' (pcmSample d)

end Sys2Proof.Machine
end

