-- ==== Sys2Proof/Machine/Lifecycle.lean ====
section
/-! DEFINITION. The lifecycle commands (`spec/40_channel_contract.md` R115 to R118, R125, R126). -/

namespace Sys2Proof.Machine

/-- `RELEASE` (R115): nothing once `late(c)`. -/
def ruleRelease (i : Nat) (w : Work) : Run :=
  if late w.chan then .done w
  else if w.chan.kind = .pcm8 then .done (pcm8Release w)
  else .done (psgRelease i w)

/-- The family's note expiry (R117, R225). -/
def expire (i : Nat) (w : Work) : Work :=
  if w.chan.kind = .pcm8 then pcm8Expire w else psgExpire i w

/-- `c.note.duration` written. -/
def withDuration (d : U32) (c : Chan) : Chan := { c with note := { c.note with duration := d } }

/-- `TICK_NOTE` (R116). -/
def ruleTickNote (i : Nat) (w : Work) : Run :=
  if late w.chan then .done (w.answer false)
  else if w.chan.note.duration = 0 then .done (w.answer true)
  else
    let w := w.onChan fun c => withDuration (c.note.duration - 1) c
    if w.chan.note.duration ≠ 0 then .done (w.answer true)
    else .done ((expire i w).answer false)

/-- The meaning of `SET_VOLUME` (R126). -/
def execSetVolume (ch : U8) (vol : U8) (pan : I8) (s : State) : Host.Outcome State Fault Refusal :=
  onChannel .setVolume ch s.buf s fun _ w => .done (w.onChan (setVolume vol pan))

/-- The meaning of `SET_PITCH` (R125). -/
def execSetPitch (ch : U8) (pitch : I32) (s : State) : Host.Outcome State Fault Refusal :=
  onChannel .setPitch ch s.buf s fun _ w => .done (w.onChan (setPitch pitch))

/-- The meaning of `RELEASE` (R115). -/
def execRelease (ch : U8) (s : State) : Host.Outcome State Fault Refusal :=
  onChannel .release ch s.buf s ruleRelease

/-- The meaning of `TICK_NOTE` (R116). -/
def execTickNote (ch : U8) (s : State) : Host.Outcome State Fault Refusal :=
  onChannel .tickNote ch s.buf s ruleTickNote

/-- The meaning of `STOP` (R118). -/
def execStop (ch : U8) (s : State) : Host.Outcome State Fault Refusal :=
  onChannel .stop ch s.buf s fun i w => .done (w.stop i)

end Sys2Proof.Machine
end

