-- ==== Sys2Proof/Machine/Synth.lean ====
section
/-! DEFINITION. The extended-synthesis mode of PCM8 (`spec/42_pcm8_synthesis.md` R183 to R190). -/

namespace Sys2Proof.Machine

/-- `SYNTH_ADV(c, inc)` (R184): one subtraction at most. -/
def synthAdv (inc : Nat) (c : Chan) : Chan :=
  let t := c.frac.toNat + inc
  { c with frac := BitVec.ofNat Config.F (if 2 ^ Config.F ≤ t then t - 2 ^ Config.F else t) }

/-- The modulation phase of the square after its per-block step (R186). -/
def squareModPhase (c : Chan) : Int := wrap32 (c.pos.toInt + (c.sp.cycleSpeed.toNat : Int) * 2 ^ 24)

/-- The threshold of the square (R186), for a modulation phase. -/
def squareThreshold (sp : SynthParams) (phase : Int) : Rat :=
  let t := wrap32 ((sp.minimumCycle.toNat : Int) * 2 ^ 24 + phase)
  let t := asr (if t < 0 then not32 t else t) 8
  let t := wrap32 (t * (sp.cycleAmplitude.toNat : Int) + (sp.initialCycle.toNat : Int) * 2 ^ 24)
  (t : Rat) / ((2 ^ 32 : Nat) : Rat)

/-- One sample of the square (R187), for a threshold and a phase. -/
def squarePulse (th phase : Rat) : Rat := (if phase < th then 1 / 2 else -1 / 2) + 1 / 2 - th

/-- One frame of the square (R187): sample first, then advance. -/
def synthSquareTick (th : Rat) (inc : Nat) (c : Chan) : FrameOut :=
  .go (synthAdv inc c) (squarePulse th (phaseOf c.frac))

/-- The filter state of the saw after a frame (R188), for the phase and the state before. -/
def sawFilter (frac : BitVec Config.F) (pos : BitVec 32) : Int :=
  let v1 : Int := ((frac.toNat / 2 ^ (Config.F - 8) : Nat) : Int) - 0x70
  let x := frac.toNat / 2 ^ (Config.F - 16)
  let v2 := sext5 (x / 2 ^ 10 % 2 ^ 5)
  wrap32 (v1 - v2 + asr pos.toInt 1)

/-- One frame of the saw (R188): advance first, then sample. -/
def sawTick (inc : Nat) (c : Chan) : FrameOut :=
  let c' := synthAdv inc c
  let v := sawFilter c'.frac c'.pos
  .go { c' with pos := BitVec.ofInt 32 v } ((v : Rat) / 256)

/-- The triangle at a phase (R189). -/
def triangleAt (p : Rat) : Rat := if p < 1 / 2 then 4 * p - 1 else 3 - 4 * p

/-- One frame of the triangle (R189): advance first, then sample. -/
def triangleTick (inc : Nat) (c : Chan) : FrameOut :=
  .go (synthAdv inc c) (triangleAt (phaseOf (synthAdv inc c).frac))

/-- The extended-synthesis branch (R183, R185). -/
def synthGenerate (n ch : Nat) (gL gR : Rat) (inc : Nat) (w : Work) : Run :=
  if 2 ^ Config.F ≤ inc then .raised w ⟨.incRange, none⟩
  else match w.chan.sp.type.toNat with
    | 0 =>
      let phase := squareModPhase w.chan
      frames ch gL gR (synthSquareTick (squareThreshold w.chan.sp phase) inc) n 0
        (w.onChan fun c => { c with pos := BitVec.ofInt 32 phase })
    | 1 => frames ch gL gR (sawTick inc) n 0 w
    | 2 => frames ch gL gR (triangleTick inc) n 0 w
    | _ => .raised w ⟨.synthType, none⟩

/-- `PCM8_GENERATE(c, buf, gL, gR)` (R154): the increment and its test (R123), then one branch, in this priority. -/
def pcm8Generate (cfg : Cfg) (rom : Memory) (ch : Nat) (gL gR : Rat) (w : Work) : Run :=
  let inc := pcm8Inc cfg w.chan
  if incTooBig inc then .raised w ⟨.incRange, none⟩
  else if w.chan.synth then synthGenerate cfg.n ch gL gR inc w
  else if w.chan.compressed then frames ch gL gR (decTick inc) cfg.n 0 w
  else frames ch gL gR (rawTick rom inc) cfg.n 0 w

end Sys2Proof.Machine
end

