-- ==== Sys2Proof/Machine/Process.lean ====
section
/-! DEFINITION. `PROCESS` (`spec/40_channel_contract.md` R119) and `MIX_BLOCK` (`spec/45_volume_mixer.md` R297). -/

namespace Sys2Proof.Machine

/-- The envelope step of a channel's family (R119). -/
def envStep (cfg : Cfg) (i : Nat) (w : Work) : Work :=
  if w.chan.kind = .pcm8 then pcm8EnvStep i w else psgEnvStep cfg i w

/-- The generator of a channel's kind (R119). -/
def generate (cfg : Cfg) (rom : Memory) (i : Nat) (gL gR : Rat) (w : Work) : Run :=
  match w.chan.kind with
  | .pcm8 => pcm8Generate cfg rom i gL gR w
  | .square => squareGenerate cfg i gL gR w
  | .wave => waveGenerate cfg i gL gR w
  | .noise => noiseGenerate cfg i gL gR w

/-- What `PROCESS` does after its envelope step (R119): nothing when the channel is dead, else the gains and the generator. -/
def afterEnv (cfg : Cfg) (rom : Memory) (i : Nat) (w : Work) : Run :=
  if w.chan.state = .dead then .done w
  else generate cfg rom i (gainL cfg w.chan) (gainR cfg w.chan) w

/-- `PROCESS(c, i, buf)` (R119). -/
def ruleProcess (cfg : Cfg) (rom : Memory) (i : Nat) (w : Work) : Run := afterEnv cfg rom i (envStep cfg i w)

/-- The meaning of `PROCESS` (R119). -/
def execProcess (ch : U8) (b : BufArg) (s : State) : Host.Outcome State Fault Refusal :=
  onChannel .process ch (bufOf b s) s (ruleProcess s.cfg s.rom)

/-- Where the channels of a `MIX_BLOCK` have got to: the channels after it, the block, the events, and the fault and its channel if one ended it. -/
structure Mix where
  chs : List Chan
  buf : List Rat
  events : List Event
  fault : Option (Nat × FaultCause)
  deriving DecidableEq, Repr

/-- `PROCESS` on the channels of a list in order, the first of them numbered `i` (R297); a fault leaves the later ones as they were. -/
def mixChannels (cfg : Cfg) (rom : Memory) : Nat → List Chan → List Rat → List Event → Mix
  | _, [], buf, ev => ⟨[], buf, ev, none⟩
  | i, c :: rest, buf, ev =>
    match ruleProcess cfg rom i (Work.start c buf) with
    | .raised w cause => ⟨w.chan :: rest, w.buf, ev ++ w.events, some (i, cause)⟩
    | .done w =>
      let m := mixChannels cfg rom (i + 1) rest w.buf (ev ++ w.events)
      { m with chs := w.chan :: m.chs }

/-- The channels, the block and the output of a `MIX_BLOCK` written back. -/
def State.commitMix (s : State) (m : Mix) : State := { s with chs := m.chs, buf := m.buf, out := ⟨.ok, m.events, none⟩ }

/-- The end of a `MIX_BLOCK`: the first fault of the first channel that faults is the command's (R328, log 12). -/
def finishMix (s : State) (m : Mix) : State :=
  match m.fault with
  | none => s.commitMix m
  | some (ch, cause) => raiseFault (s.commitMix m) ⟨cause.reason, .mixBlock, ch, cause.addr⟩

/-- The meaning of `MIX_BLOCK` (R297): the block zeroed, then every channel in increasing order. The contents of the block handed
over do not matter. -/
def execMixBlock (_b : BufArg) (s : State) : Host.Outcome State Fault Refusal :=
  .next (finishMix s (mixChannels s.cfg s.rom 0 s.chs (zeroBlock s.cfg.n) []))

end Sys2Proof.Machine
end

