-- ==== Sys2Proof/Machine/Dispatch.lean ====
section
/-! DEFINITION. One arm per command: its meaning. -/

namespace Sys2Proof.Machine

def exec (i : Instr) (s : State) : Host.Outcome State Fault Refusal :=
  match i with
  | .initPcm8 ch st off fixed comp => Sys2Proof.Machine.execInitPcm8 ch st off fixed comp s
  | .initSquare ch st duty => Sys2Proof.Machine.execInitSquare ch st duty s
  | .initWave ch st off => Sys2Proof.Machine.execInitWave ch st off s
  | .initNoise ch st npat => Sys2Proof.Machine.execInitNoise ch st npat s
  | .setVolume ch vol pan => Sys2Proof.Machine.execSetVolume ch vol pan s
  | .setPitch ch pitch => Sys2Proof.Machine.execSetPitch ch pitch s
  | .release ch => Sys2Proof.Machine.execRelease ch s
  | .tickNote ch => Sys2Proof.Machine.execTickNote ch s
  | .process ch b => Sys2Proof.Machine.execProcess ch b s
  | .stop ch => Sys2Proof.Machine.execStop ch s
  | .mixBlock b => Sys2Proof.Machine.execMixBlock b s

end Sys2Proof.Machine
end

