-- ==== Sys2Proof/WellFormed.lean ====
section
/-! DEFINITION. Which instructions the block takes: the tests of decode (`spec/30_encoding.md` R84) that the types of `Instr` do
not already make. The widths of R83 are in the types. -/

namespace Sys2Proof

/-- The channel a command addresses (R81); `MIX_BLOCK` addresses none. -/
def Instr.channel? : Instr → Option U8
  | .initPcm8 ch _ _ _ _ => some ch
  | .initSquare ch _ _ => some ch
  | .initWave ch _ _ => some ch
  | .initNoise ch _ _ => some ch
  | .setVolume ch _ _ => some ch
  | .setPitch ch _ => some ch
  | .release ch => some ch
  | .tickNote ch => some ch
  | .process ch _ => some ch
  | .stop ch => some ch
  | .mixBlock _ => none

/-- The `buf` operand a command carries (R80). -/
def Instr.buf? : Instr → Option BufArg
  | .initPcm8 _ _ _ _ _ => none
  | .initSquare _ _ _ => none
  | .initWave _ _ _ => none
  | .initNoise _ _ _ => none
  | .setVolume _ _ _ => none
  | .setPitch _ _ => none
  | .release _ => none
  | .tickNote _ => none
  | .process _ b => some b
  | .stop _ => none
  | .mixBlock b => some b

/-- A block handed over has exactly `2N` elements (R64, R353). -/
def BufArg.wf (n : Nat) : BufArg → Bool
  | .current => true
  | .supplied xs => xs.length == 2 * n

/-- `CH < NCH` on a channel command (R84). -/
def Instr.chWf (nch : Nat) (i : Instr) : Bool :=
  match i.channel? with
  | some ch => decide (ch.toNat < nch)
  | none => true

/-- The block of a `buf` operand has the length of R83. -/
def Instr.bufWf (n : Nat) (i : Instr) : Bool :=
  match i.buf? with
  | some b => b.wf n
  | none => true

/-- An instruction that decode can answer, for a pool of `nch` channels and blocks of `n` frames. -/
def Instr.wf (nch n : Nat) (i : Instr) : Bool := i.chWf nch && i.bufWf n

end Sys2Proof
end

