-- ==== Sys2Proof/Decode.lean ====
section
/-! DEFINITION. Decoding and encoding of commands (`spec/30_encoding.md` R81 to R86): total on every word and operand record,
refusing by the names of `spec/60_exceptions.md` R324. -/

namespace Sys2Proof

/-- `OP`, bits 31:28 (R81). -/
def fieldOp (word : BitVec 32) : BitVec 4 := word.extractLsb' 28 4

/-- `CH`, bits 27:20 (R81). -/
def fieldCh (word : BitVec 32) : U8 := word.extractLsb' 20 8

/-- `RSV`, bits 19:0 (R81). -/
def fieldRsv (word : BitVec 32) : BitVec 20 := word.extractLsb' 0 20

/-- The opcode numbers of R82. -/
def Opcode.code : Opcode → BitVec 4
  | .initPcm8 => 0x1
  | .initSquare => 0x2
  | .initWave => 0x3
  | .initNoise => 0x4
  | .setVolume => 0x5
  | .setPitch => 0x6
  | .release => 0x7
  | .tickNote => 0x8
  | .process => 0x9
  | .stop => 0xA
  | .mixBlock => 0xB

/-- The opcode map read the other way (R82): `none` for the reserved values 0x0 and 0xC to 0xF (R85). -/
def opcodeOf (op : BitVec 4) : Option Opcode :=
  match op.toNat with
  | 0x1 => some .initPcm8
  | 0x2 => some .initSquare
  | 0x3 => some .initWave
  | 0x4 => some .initNoise
  | 0x5 => some .setVolume
  | 0x6 => some .setPitch
  | 0x7 => some .release
  | 0x8 => some .tickNote
  | 0x9 => some .process
  | 0xA => some .stop
  | 0xB => some .mixBlock
  | _ => none

/-- An unsigned operand of width `w` (R83): `none` when it lies outside its width. -/
def readU (w : Nat) (x : Int) : Option (BitVec w) :=
  if 0 ≤ x ∧ x < 2 ^ w then some (BitVec.ofInt w x) else none

/-- A signed operand of width `w` (R83): `none` when it lies outside its width. -/
def readI (w : Nat) (x : Int) : Option (BitVec w) :=
  if -(2 ^ (w - 1)) ≤ x ∧ x < 2 ^ (w - 1) then some (BitVec.ofInt w x) else none

/-- A `u1` operand as a flag. -/
def readFlag (x : Int) : Option Bool :=
  if x = 0 then some false else if x = 1 then some true else none

/-- The noise pattern code of R95, a `u1`. -/
def readNpat (x : Int) : Option NoisePat :=
  if x = 0 then some .fine else if x = 1 then some .rough else none

/-- A `note` record (R83). -/
def readNote (r : RawNote) : Option NoteArg :=
  match readU 8 r.key, readU 8 r.velocity, readU 32 r.duration with
  | some key, some velocity, some duration => some ⟨key, velocity, duration⟩
  | _, _, _ => none

/-- An `adsr` record (R83). -/
def readAdsr (r : RawAdsr) : Option AdsrArg :=
  match readU 8 r.A, readU 8 r.D, readU 8 r.S, readU 8 r.R with
  | some a, some d, some s, some r => some ⟨a, d, s, r⟩
  | _, _, _, _ => none

/-- The common part of a note-start record (R83). -/
def readStart (r : RawStart) : Option StartArgs :=
  match readNote r.note, readAdsr r.adsr, readU 8 r.vol, readI 8 r.pan, readI 32 r.pitch with
  | some note, some adsr, some vol, some pan, some pitch => some ⟨r.owner, note, adsr, vol, pan, pitch⟩
  | _, _, _, _, _ => none

/-- A value in its width, or the refusal `OPERAND_RANGE` (R84). -/
def orRange (x : Option Instr) : Except RefuseReason Instr :=
  match x with
  | some i => .ok i
  | none => .error .operandRange

/-- `INIT_PCM8`'s record (R83). -/
def readInitPcm8 (ch : U8) (st : RawStart) (off fixed comp : Int) : Option Instr :=
  match readStart st, readU 32 off, readFlag fixed, readFlag comp with
  | some st, some off, some fixed, some comp => some (.initPcm8 ch st off fixed comp)
  | _, _, _, _ => none

/-- `INIT_SQUARE`'s record (R83). -/
def readInitSquare (ch : U8) (st : RawStart) (duty : Int) : Option Instr :=
  match readStart st, readU 2 duty with
  | some st, some duty => some (.initSquare ch st duty)
  | _, _ => none

/-- `INIT_WAVE`'s record (R83). -/
def readInitWave (ch : U8) (st : RawStart) (off : Int) : Option Instr :=
  match readStart st, readU 32 off with
  | some st, some off => some (.initWave ch st off)
  | _, _ => none

/-- `INIT_NOISE`'s record (R83). -/
def readInitNoise (ch : U8) (st : RawStart) (npat : Int) : Option Instr :=
  match readStart st, readNpat npat with
  | some st, some npat => some (.initNoise ch st npat)
  | _, _ => none

/-- `SET_VOLUME`'s record (R83). -/
def readVolPan (ch : U8) (vol pan : Int) : Option Instr :=
  match readU 8 vol, readI 8 pan with
  | some vol, some pan => some (.setVolume ch vol pan)
  | _, _ => none

/-- The last two tests of decode (R84): the record is the one `op` takes, and every operand lies in its width. A `buf` operand
that is not a block of `2N` elements lies outside its width (DEDUCED, log 4). -/
def readOperands (n : Nat) (ch : U8) (op : Opcode) (r : Operands) : Except RefuseReason Instr :=
  match op, r with
  | .initPcm8, .initPcm8 st off fixed comp => orRange (readInitPcm8 ch st off fixed comp)
  | .initSquare, .initSquare st duty => orRange (readInitSquare ch st duty)
  | .initWave, .initWave st off => orRange (readInitWave ch st off)
  | .initNoise, .initNoise st npat => orRange (readInitNoise ch st npat)
  | .setVolume, .volPan vol pan => orRange (readVolPan ch vol pan)
  | .setPitch, .pitch p => orRange ((readI 32 p).map (.setPitch ch))
  | .release, .none => .ok (.release ch)
  | .tickNote, .none => .ok (.tickNote ch)
  | .process, .buf b => if b.wf n then .ok (.process ch b) else .error .operandRange
  | .stop, .none => .ok (.stop ch)
  | .mixBlock, .buf b => if b.wf n then .ok (.mixBlock b) else .error .operandRange
  | _, _ => .error .operandShape

/-- Decode (R84), for a pool of `nch` channels and blocks of `n` frames. The order of the tests is the rule's. -/
def decode (nch n : Nat) (c : Command) : Except RefuseReason Instr :=
  if fieldRsv c.word ≠ 0 then .error .rsvNonzero
  else match opcodeOf (fieldOp c.word) with
    | none => .error .reservedOp
    | some .mixBlock =>
      if fieldCh c.word ≠ 0 then .error .rsvNonzero
      else readOperands n (fieldCh c.word) .mixBlock c.operands
    | some op =>
      if nch ≤ (fieldCh c.word).toNat then .error .chRange
      else readOperands n (fieldCh c.word) op c.operands

/-! Encoding, from the same tables. -/

/-- The opcode of an instruction (R82). -/
def Instr.opcode : Instr → Opcode
  | .initPcm8 _ _ _ _ _ => .initPcm8
  | .initSquare _ _ _ => .initSquare
  | .initWave _ _ _ => .initWave
  | .initNoise _ _ _ => .initNoise
  | .setVolume _ _ _ => .setVolume
  | .setPitch _ _ => .setPitch
  | .release _ => .release
  | .tickNote _ => .tickNote
  | .process _ _ => .process
  | .stop _ => .stop
  | .mixBlock _ => .mixBlock

/-- The command word `OP ++ CH ++ RSV` with `RSV = 0` (R81). -/
def commandWord (op : Opcode) (ch : U8) : BitVec 32 := op.code ++ ch ++ (0 : BitVec 20)

/-- A `note` operand as a record. -/
def NoteArg.raw (x : NoteArg) : RawNote := ⟨x.key.toNat, x.velocity.toNat, x.duration.toNat⟩

/-- An `adsr` operand as a record. -/
def AdsrArg.raw (x : AdsrArg) : RawAdsr := ⟨x.A.toNat, x.D.toNat, x.S.toNat, x.R.toNat⟩

/-- The common part of a note-start as a record. -/
def StartArgs.raw (x : StartArgs) : RawStart :=
  ⟨x.owner, x.note.raw, x.adsr.raw, x.vol.toNat, x.pan.toInt, x.pitch.toInt⟩

/-- A flag as a `u1`. -/
def rawFlag (b : Bool) : Int := if b then 1 else 0

/-- The noise pattern as its `u1` code (R95). -/
def NoisePat.raw : NoisePat → Int
  | .fine => 0
  | .rough => 1

/-- The operand record of an instruction (R83). -/
def Instr.operands : Instr → Operands
  | .initPcm8 _ st off fixed comp => .initPcm8 st.raw off.toNat (rawFlag fixed) (rawFlag comp)
  | .initSquare _ st duty => .initSquare st.raw duty.toNat
  | .initWave _ st off => .initWave st.raw off.toNat
  | .initNoise _ st npat => .initNoise st.raw npat.raw
  | .setVolume _ vol pan => .volPan vol.toNat pan.toInt
  | .setPitch _ p => .pitch p.toInt
  | .release _ => .none
  | .tickNote _ => .none
  | .process _ b => .buf b
  | .stop _ => .none
  | .mixBlock b => .buf b

/-- The command that spells an instruction. `MIX_BLOCK` has `CH = 0` (R81). -/
def encode (i : Instr) : Command := ⟨commandWord i.opcode (i.channel?.getD 0), i.operands⟩

/-! The host's reading of the opcode table: a word alone, every operand bit 0. -/

/-- A note-start record of zeros. -/
def zeroStart : RawStart := ⟨0, ⟨0, 0, 0⟩, ⟨0, 0, 0, 0⟩, 0, 0, 0⟩

/-- The operand record of zeros that an opcode takes (R83); its `buf` is the block as it stands (log 17). -/
def zeroOperands : Opcode → Operands
  | .initPcm8 => .initPcm8 zeroStart 0 0 0
  | .initSquare => .initSquare zeroStart 0
  | .initWave => .initWave zeroStart 0
  | .initNoise => .initNoise zeroStart 0
  | .setVolume => .volPan 0 0
  | .setPitch => .pitch 0
  | .release => .none
  | .tickNote => .none
  | .process => .buf .current
  | .stop => .none
  | .mixBlock => .buf .current

/-- The command whose word is `w` and whose operands are zeros; a word of a reserved opcode carries no record (R84). -/
def tableCommand (w : Nat) : Command :=
  let word := BitVec.ofNat 32 w
  ⟨word, match opcodeOf (fieldOp word) with
    | some op => zeroOperands op
    | none => .none⟩

/-- What decode reads from an instruction whose bits are `w`, `nbits` of them given and every later one 0. The pool is taken at
its largest, 256 channels, so that no `CH` is out of range (log 17). -/
def decodeTableWord (nbits w : Nat) : Option Instr :=
  if w < 2 ^ 32 ∧ nbits ≤ 32 then
    match decode 256 0 (tableCommand w) with
    | .ok i => some i
    | .error _ => none
  else none

end Sys2Proof
end

