-- ==== Sys2Proof/Machine/Fetch.lean ====
section
/-! DEFINITION. Taking the next command of the host's stream and decoding it (`spec/10_state.md` R21, `spec/40_channel_contract.md`
R110). -/

namespace Sys2Proof.Machine

/-- The next command and the state with it taken from the stream; `none` when the host has sent none. -/
def fetchCommand (s : State) : Option (Command × State) :=
  match s.cmds with
  | [] => none
  | c :: rest => some (c, { s with cmds := rest })

/-- Decode for this block's pool and block size (R84). -/
def decodeFor (s : State) (c : Command) : Except RefuseReason Instr := decode s.chs.length s.cfg.n c

/-- The command that `Sys2Proof.tableCommand` makes of a word, put before the host's other commands. -/
def placeWord (s : State) (w : Nat) : State := { s with cmds := tableCommand w :: s.cmds }

end Sys2Proof.Machine
end

