-- ==== Sys2Proof/Machine/Step.lean ====
section
/-! DEFINITION. One step: one command (`spec/10_state.md` R21), inside the frame of `spec/40_channel_contract.md` R110. -/

namespace Sys2Proof.Machine

/-- One step (R110): none when the block is quiescent; else the next command is decoded, refused or executed. -/
def step (s : State) : Host.Outcome State Fault Refusal :=
  if s.faulted then .fault .quiescent
  else match fetchCommand s with
    | none => .refused .noCommand
    | some (c, s') =>
      match decodeFor s' c with
      | .error reason => .next (refuseCommand s' reason)
      | .ok i => exec i s'

/-- The state with an instruction of the opcode table, its operands zeros, as the next command of the host's stream (log 1, log 17). -/
def State.withFetchWord (s : State) (_nbits w : Nat) : State := placeWord s w

end Sys2Proof.Machine
end

