-- ==== Sys2Proof/Safety.lean ====
section
/-! DEFINITION. What a good state is, and the words the statements use: the invariant of the block, the envelope without its
generator, runs of commands, the ownership relation read off the events, the closed forms of the oscillators. Nothing here is part
of the machine. -/

namespace Sys2Proof.Machine

/-- Neither mark is set (R322: what a claim about a run assumes at its end). -/
def State.unmarked (s : State) : Bool := !s.faulted && !s.refused

/-- The table length of a PSG kind (R257, R264, R272); 1 for PCM8, which has no table. -/
def tableLen (c : Chan) : Nat :=
  match c.kind with
  | .pcm8 => 1
  | .square => 8
  | .wave => 32
  | .noise => noiseLen c.npat

/-- The largest table length of a PSG kind: the bound of `c.pos` (R29). -/
def indexBound : Kind → Nat
  | .pcm8 => 2 ^ 32
  | .square => 8
  | .wave => 32
  | .noise => 0x8000

/-- The sample a PSG kind emits at a table index (R257, R264, R272). -/
def tableSample (c : Chan) (k : Nat) : Rat :=
  match c.kind with
  | .pcm8 => 0
  | .square => squareSample c k
  | .wave => waveSample c k
  | .noise => noiseSample c k

/-- What holds of a PSG channel: the masked rates (R90), the bounds of R39 and R299, no Dying (R223), the rates that R216 and R217
rely on, the index range of R29. -/
structure PsgOk (c : Chan) : Prop where
  rates : c.A.toNat < 8 ∧ c.D.toNat < 8 ∧ c.S.toNat < 16 ∧ c.R.toNat < 8
  levels : c.sus.toNat ≤ c.peak.toNat ∧ c.peak.toNat ≤ 63 ∧ c.vel.toNat ≤ 63
  not_dying : c.state ≠ .dying
  rising : c.state = .rising → 1 ≤ c.A.toNat ∧ (c.next = .decaying → 1 ≤ c.D.toNat)
  decaying : c.state = .decaying → 1 ≤ c.D.toNat
  index : c.pos.toNat < indexBound c.kind

/-- What holds of every channel: free exactly when `Dead` (R25, R118), a wavetable of 32 entries (R42), no decoded list unless
compressed (R34), a frequency that is not negative (R31). -/
structure Chan.Ok (c : Chan) : Prop where
  owned : c.state = .dead ↔ c.owner = none
  wave : c.wave.length = 32
  dec : c.compressed = false → c.dec = []
  freq : 0 ≤ c.freq
  psg : c.kind ≠ .pcm8 → PsgOk c

/-- The parameters R7 allows. -/
structure Cfg.Ok (cfg : Cfg) : Prop where
  n : 1 ≤ cfg.n
  sr : 1 ≤ cfg.sr
  master : 0 ≤ cfg.pcm8Master

/-- The invariant of the block: allowed parameters, 1 to 256 channels (R7), a canonical ROM, a block of `2N` elements (R64), and
every channel as it should be. -/
structure State.Inv (s : State) : Prop where
  cfg : s.cfg.Ok
  pool : 1 ≤ s.chs.length ∧ s.chs.length ≤ 256
  rom : s.rom.wf = true
  buf : s.buf.length = 2 * s.cfg.n
  chans : ∀ c ∈ s.chs, c.Ok

/-- A run of commands by their meanings, stopping at the first that does not answer a next state. -/
def runInstrs : List Instr → State → Host.Outcome State Fault Refusal
  | [], s => .next s
  | i :: is, s =>
    match exec i s with
    | .next t => runInstrs is t
    | .fault f => .fault f
    | .refused r => .refused r

/-- The envelope step of a channel alone: what `PROCESS` does to it before the generator (R119). -/
def envChan (cfg : Cfg) (i : Nat) (c : Chan) : Chan := (envStep cfg i (Work.start c [])).chan

/-- `k` envelope steps. -/
def envChans (cfg : Cfg) (i : Nat) : Nat → Chan → Chan
  | 0, c => c
  | k + 1, c => envChans cfg i k (envChan cfg i c)

/-- The owner of channel `j` after a list of events (R129), `none` when the list is no alternation of its `Attach` and `Detach`. -/
def ownerAfter (j : Nat) : List Event → Option Nat → Option (Option Nat)
  | [], cur => some cur
  | .attach o i :: rest, cur =>
    if i = j then (if cur = none then ownerAfter j rest (some o) else none) else ownerAfter j rest cur
  | .detach o i :: rest, cur =>
    if i = j then (if cur = some o then ownerAfter j rest none else none) else ownerAfter j rest cur

/-- The position of an oscillator over `len` entries, in units of `2^-F`. -/
def phasePos (len : Nat) (c : Chan) : Nat := (c.pos.toNat % len) * 2 ^ Config.F + c.frac.toNat

/-- The table index of frame `k` (R124, R257). -/
def phaseIndex (len inc : Nat) (c : Chan) (k : Nat) : Nat := (phasePos len c + k * inc) / 2 ^ Config.F % len

/-- The phase fraction of a channel after `k` frames (R124, R184). -/
def fracAfter (inc : Nat) (c : Chan) (k : Nat) : BitVec Config.F := BitVec.ofNat Config.F (c.frac.toNat + k * inc)

/-- The exact position of a PCM player after `k` frames that nothing replaces (R124, R159). -/
def playPos (inc : Nat) (c : Chan) (k : Nat) : Nat := c.pos.toNat + (c.frac.toNat + k * inc) / 2 ^ Config.F

/-- The exact position of the raw player after `k` frames (R124, R156, R158): an overrun goes to `loopOffset` where the sample loops. -/
def rawPos (inc : Nat) (c : Chan) : Nat → Nat
  | 0 => c.pos.toNat
  | k + 1 =>
    let p := rawPos inc c k + ((c.frac.toNat + k * inc) % 2 ^ Config.F + inc) / 2 ^ Config.F
    if c.hdr.loop = 0x40000000 ∧ c.hdr.length.toNat ≤ p then c.hdr.loopOffset.toNat else p

/-- A block with the samples of its first `m` frames added, each scaled by the gain of its lane (R64, R295). -/
def addFrames (gL gR : Rat) (sample : Nat → Rat) (m : Nat) (buf : List Rat) : List Rat :=
  buf.mapIdx fun j x => if j < 2 * m then x + sample (j / 2) * (if j % 2 = 0 then gL else gR) else x

end Sys2Proof.Machine
end

