-- ==== Sys2Proof/Certificates/Slice0/Obligations.lean ====
section
/-! DEFINITION. The statements about the block that the provers take up. Each docstring names the rules of `spec/` it follows. The output
`⟨.ok, events, result⟩` is that of a command that is through. Every equation with `exec` on its left is also the frame: what it
does not name is as it was. -/

open Sys2Proof Sys2Proof.Machine

/-! Encoding (`spec/30_encoding.md`). -/

/-- R81 to R84: decoding the encoding of a well-formed instruction gives it back, with every operand at every value of its width. -/
def Obligations.DecodeOfEncodeIsTheInstruction : Prop :=
  ∀ (nch n : Nat) (i : Instr), i.wf nch n = true → decode nch n (encode i) = .ok i

/-- R81 to R84, the other way: a command that decodes is the encoding of what it decodes to, so every instruction has one spelling, and
what decode answers is well formed. -/
def Obligations.EncodeOfDecodeIsTheCommand : Prop :=
  ∀ (nch n : Nat) (c : Command) (i : Instr), decode nch n c = .ok i → encode i = c ∧ i.wf nch n = true

/-- R84 to R86: which refusal a command gets from its word alone, in the order of the tests. -/
def Obligations.RefusalsOfTheWordInOrder : Prop :=
  ∀ (nch n : Nat) (c : Command),
    if fieldRsv c.word ≠ 0 then decode nch n c = .error .rsvNonzero
    else if fieldOp c.word ∈ [0x0, 0xC, 0xD, 0xE, 0xF] then decode nch n c = .error .reservedOp
    else if fieldOp c.word = 0xB ∧ fieldCh c.word ≠ 0 then decode nch n c = .error .rsvNonzero
    else if fieldOp c.word ≠ 0xB ∧ nch ≤ (fieldCh c.word).toNat then decode nch n c = .error .chRange
    else ∀ r, decode nch n c = .error r → r = .operandShape ∨ r = .operandRange

/-- R81, R82, R98: four command words written out from the table, and three that are refused (R85, R86). -/
def Obligations.WordsOfTheTableDecode : Prop :=
  decode 4 4 ⟨0x90300000, .buf .current⟩ = .ok (.process 3 .current) ∧
  decode 4 4 ⟨0xB0000000, .buf .current⟩ = .ok (.mixBlock .current) ∧
  decode 4 4 ⟨0x50300000, .volPan 64 (-30)⟩ = .ok (.setVolume 3 64 (-30)) ∧
  decode 4 4 ⟨0x60300000, .pitch (-1)⟩ = .ok (.setPitch 3 (-1)) ∧
  decode 4 4 ⟨0x00000000, .none⟩ = .error .reservedOp ∧
  decode 4 4 ⟨0x90000001, .buf .current⟩ = .error .rsvNonzero ∧
  decode 2 4 ⟨0x92000000, .buf .current⟩ = .error .chRange

/-! The frame of a step (`spec/40_channel_contract.md` R110, `spec/60_exceptions.md`). -/

/-- R21, R110: when the next command decodes to an instruction, the step is that instruction's meaning on the state with the command
taken from the stream. -/
def Obligations.StepRunsTheDecodedInstruction : Prop :=
  ∀ (s : State) (c : Command) (rest : List Command) (i : Instr),
    s.faulted = false → s.cmds = c :: rest → decode s.chs.length s.cfg.n c = .ok i →
    step s = exec i { s with cmds := rest }

/-- R321: a refused command sets the mark `refused` and its outcome is the refusal; no register, no buffer element, no event; the
block stays live. -/
def Obligations.RefusedCommandOnlySetsTheMark : Prop :=
  ∀ (s : State) (c : Command) (rest : List Command) (r : RefuseReason),
    s.faulted = false → s.cmds = c :: rest → decode s.chs.length s.cfg.n c = .error r →
    step s = .next { s with cmds := rest, refused := true, out := ⟨.refused r, [], none⟩ }

/-- R110, R320: a faulted block takes no further command; R21: without a command there is no step (the model's name for it: log 1). -/
def Obligations.QuiescentBlockTakesNoCommand : Prop :=
  ∀ s : State, (s.faulted = true → step s = .fault .quiescent) ∧
    (s.faulted = false → s.cmds = [] → step s = .refused .noCommand)

/-- R322: no command clears a mark, by its meaning or by a step; construction sets both to 0. -/
def Obligations.MarksAreSticky : Prop :=
  (∀ (i : Instr) (s t : State), exec i s = .next t →
    (s.faulted = true → t.faulted = true) ∧ (s.refused = true → t.refused = true)) ∧
  (∀ s t : State, step s = .next t → (s.refused = true → t.refused = true)) ∧
  ∀ (cfg : Cfg) (rom : Memory) (kinds : List Kind),
    (State.construct cfg rom kinds).faulted = false ∧ (State.construct cfg rom kinds).refused = false

/-- R320, R323: a command whose outcome is a fault has set `faulted`; its record names the command; the record has an address exactly for
`ROM_RANGE`, and the address lies outside ROM. And a command that is through has left both marks as they were. -/
def Obligations.FaultRecordIsFaithful : Prop :=
  ∀ (i : Instr) (s t : State), exec i s = .next t →
    (∀ r, t.out.outcome = .fault r →
      t.faulted = true ∧ r.op = i.opcode ∧
      (if r.reason = .romRange then ∃ a, r.addr = some a ∧ s.rom.size ≤ a else r.addr = none)) ∧
    (t.out.outcome = .ok → t.faulted = s.faulted ∧ t.refused = s.refused)

/-- R112, R328: an INIT of another kind than the channel's faults `KIND_MISMATCH` before anything is written. -/
def Obligations.InitOfAnotherKindFaults : Prop :=
  ∀ (i : Instr) (kind : Kind) (ch : U8) (c : Chan) (s : State),
    ((∃ st off fixed comp, i = .initPcm8 ch st off fixed comp) ∧ kind = .pcm8 ∨
      (∃ st duty, i = .initSquare ch st duty) ∧ kind = .square ∨
      (∃ st off, i = .initWave ch st off) ∧ kind = .wave ∨
      (∃ st npat, i = .initNoise ch st npat) ∧ kind = .noise) →
    s.chs[ch.toNat]? = some c → c.kind ≠ kind →
    exec i s = .next { s with faulted := true, out := ⟨.fault ⟨.kindMismatch, i.opcode, ch.toNat, none⟩, [], none⟩ }

/-! The INIT commands (`spec/41_pcm8.md` R140; `spec/44_psg_generators.md` R250 to R252). -/

/-- R140, R111, R113, R142, R143, R145, R180, R181, R290: `INIT_PCM8` of a PCM8 channel whose header lies in ROM, in each case: the codec faults,
the synthesis parameters lie outside ROM, or it is through. What was done before a fault remains (R320). The bytes of the header and of the
parameters are read by the default `HEADER` and `SYNTHP` (log 11); the detection is R180's, written out. -/
def Obligations.InitPcm8Result : Prop :=
  ∀ (s : State) (ch : U8) (st : StartArgs) (off : U32) (fixed comp : Bool) (c : Chan) (h : Header),
    s.chs[ch.toNat]? = some c → c.kind = .pcm8 → readHeader s.rom off.toNat = .ok h →
    let events := detachEvents ch.toNat c.owner ++ [.attach st.owner ch.toNat]
    let detected := s.cfg.synthDetectEnable = true ∧ h.loop = 0x40000000 ∧ h.loopOffset = 0 ∧ h.length = 0
    let started := { c with
      state := .initializing, owner := some st.owner, gen := c.gen + 1
      note := ⟨st.note.key, st.note.velocity, st.note.duration, c.note.pitch⟩
      A := st.adsr.A, D := st.adsr.D, S := st.adsr.S, R := st.adsr.R
      pos := 0, frac := 0, hdr := h, base := off.toNat + 16
      fixed := fixed, compressed := comp }
    exec (.initPcm8 ch st off fixed comp) s = .next
      (match (if comp then decomp s.rom (off.toNat + 16) h.length.toNat else .ok []) with
      | .error a =>
        { s with
          chs := s.chs.set ch.toNat started
          faulted := true
          out := ⟨.fault ⟨.romRange, .initPcm8, ch.toNat, some a⟩, events, none⟩ }
      | .ok xs =>
        match (if detected then readSynthParams s.rom (off.toNat + 16) else .ok c.sp) with
        | .error a =>
          { s with
            chs := s.chs.set ch.toNat { started with dec := xs, synth := true }
            faulted := true
            out := ⟨.fault ⟨.romRange, .initPcm8, ch.toNat, some a⟩, events, none⟩ }
        | .ok sp =>
          { s with
            chs := s.chs.set ch.toNat { started with
              dec := xs, synth := decide detected, sp := sp
              note := ⟨st.note.key, st.note.velocity, st.note.duration, st.pitch⟩
              lvol := trunc8 (tdiv ((st.note.velocity.toNat : Int) * st.vol.toNat * (64 - st.pan.toInt)) 0x2000)
              rvol := trunc8 (tdiv ((st.note.velocity.toNat : Int) * st.vol.toNat * (st.pan.toInt + 64)) 0x2000)
              freq := ((h.rate.toNat / 2 ^ 10 : Nat) : Rat) *
                exp2 (64 * ((st.note.key.toNat : Int) - 60) + st.pitch.toInt) }
            out := ⟨.ok, events, none⟩ })

/-- R140, R328: a header outside ROM faults `ROM_RANGE` before `ATTACH`, so nothing but the mark and the output is written. That the header
is the 16 bytes from the offset is the default `HEADER` (log 11); that the record's address is `max off ROM_SIZE` is the model's reading of
R320's "first out-of-range byte address" (log 13). -/
def Obligations.InitPcm8HeaderFault : Prop :=
  ∀ (s : State) (ch : U8) (st : StartArgs) (off : U32) (fixed comp : Bool) (c : Chan),
    s.chs[ch.toNat]? = some c → c.kind = .pcm8 → s.rom.size < off.toNat + 16 →
    exec (.initPcm8 ch st off fixed comp) s = .next
      { s with
        faulted := true
        out := ⟨.fault ⟨.romRange, .initPcm8, ch.toNat, some (max off.toNat s.rom.size)⟩, [], none⟩ }

/-- R250, R210, R90, R211, R253, R254: `INIT_SQUARE` of a SQUARE channel. -/
def Obligations.InitSquareResult : Prop :=
  ∀ (s : State) (ch : U8) (st : StartArgs) (duty : BitVec 2) (c : Chan),
    s.chs[ch.toNat]? = some c → c.kind = .square →
    exec (.initSquare ch st duty) s = .next
      { s with
        chs := s.chs.set ch.toNat { c with
          state := .initializing, owner := some st.owner, gen := c.gen + 1
          note := ⟨st.note.key, st.note.velocity, st.note.duration, st.pitch⟩
          A := st.adsr.A &&& 7, D := st.adsr.D &&& 7, S := st.adsr.S &&& 15, R := st.adsr.R &&& 7
          duty := duty
          pos := if s.cfg.psgInitResetsPhase then 0 else c.pos
          frac := if s.cfg.psgInitResetsPhase then 0 else c.frac
          panpot := panpotOf st.pan
          peak := peakOf st.note.velocity st.vol
          sus := susOf (peakOf st.note.velocity st.vol) (st.adsr.S &&& 15)
          freq := 3520 * exp2 (64 * ((st.note.key.toNat : Int) - 69) + st.pitch.toInt) }
        out := ⟨.ok, detachEvents ch.toNat c.owner ++ [.attach st.owner ch.toNat], none⟩ }

/-- R251, R210, R90, R211, R253, R254, R262: `INIT_WAVE` of a WAVE channel whose 16 bytes lie in ROM, with the default `WAVE_DECODE` (log 11). -/
def Obligations.InitWaveResult : Prop :=
  ∀ (s : State) (ch : U8) (st : StartArgs) (off : U32) (c : Chan),
    s.chs[ch.toNat]? = some c → c.kind = .wave → off.toNat + 16 ≤ s.rom.size →
    exec (.initWave ch st off) s = .next
      { s with
        chs := s.chs.set ch.toNat { c with
          state := .initializing, owner := some st.owner, gen := c.gen + 1
          note := ⟨st.note.key, st.note.velocity, st.note.duration, st.pitch⟩
          A := st.adsr.A &&& 7, D := st.adsr.D &&& 7, S := st.adsr.S &&& 15, R := st.adsr.R &&& 7
          wave := waveDecode ((List.range 16).map fun k => s.rom.byte (off.toNat + k))
          pos := if s.cfg.psgInitResetsPhase then 0 else c.pos
          frac := if s.cfg.psgInitResetsPhase then 0 else c.frac
          panpot := panpotOf st.pan
          peak := peakOf st.note.velocity st.vol
          sus := susOf (peakOf st.note.velocity st.vol) (st.adsr.S &&& 15)
          freq := 7040 * exp2 (64 * ((st.note.key.toNat : Int) - 69) + st.pitch.toInt) }
        out := ⟨.ok, detachEvents ch.toNat c.owner ++ [.attach st.owner ch.toNat], none⟩ }

/-- R251, R320: an `INIT_WAVE` outside ROM faults after `ATTACH` and the masked rates, which remain, as do the events. That the record's
address is `max off ROM_SIZE` is the model's reading of R320's "first out-of-range byte address" (log 13). -/
def Obligations.InitWaveFaultKeepsTheAttach : Prop :=
  ∀ (s : State) (ch : U8) (st : StartArgs) (off : U32) (c : Chan),
    s.chs[ch.toNat]? = some c → c.kind = .wave → s.rom.size < off.toNat + 16 →
    exec (.initWave ch st off) s = .next
      { s with
        chs := s.chs.set ch.toNat { c with
          state := .initializing, owner := some st.owner, gen := c.gen + 1
          note := ⟨st.note.key, st.note.velocity, st.note.duration, c.note.pitch⟩
          A := st.adsr.A &&& 7, D := st.adsr.D &&& 7, S := st.adsr.S &&& 15, R := st.adsr.R &&& 7 }
        faulted := true
        out := ⟨.fault ⟨.romRange, .initWave, ch.toNat, some (max off.toNat s.rom.size)⟩,
          detachEvents ch.toNat c.owner ++ [.attach st.owner ch.toNat], none⟩ }

/-- R252, R210, R90, R211, R253, R255: `INIT_NOISE` of a NOISE channel. -/
def Obligations.InitNoiseResult : Prop :=
  ∀ (s : State) (ch : U8) (st : StartArgs) (npat : NoisePat) (c : Chan),
    s.chs[ch.toNat]? = some c → c.kind = .noise →
    exec (.initNoise ch st npat) s = .next
      { s with
        chs := s.chs.set ch.toNat { c with
          state := .initializing, owner := some st.owner, gen := c.gen + 1
          note := ⟨st.note.key, st.note.velocity, st.note.duration, st.pitch⟩
          A := st.adsr.A &&& 7, D := st.adsr.D &&& 7, S := st.adsr.S &&& 15, R := st.adsr.R &&& 7
          npat := npat
          pos := if s.cfg.psgInitResetsPhase then 0 else c.pos
          frac := if s.cfg.psgInitResetsPhase then 0 else c.frac
          panpot := panpotOf st.pan
          peak := peakOf st.note.velocity st.vol
          sus := susOf (peakOf st.note.velocity st.vol) (st.adsr.S &&& 15)
          freq := min (max (4096 * exp2 (3 * (64 * ((st.note.key.toNat : Int) - 60) + st.pitch.toInt))) 8) 0x80000 }
        out := ⟨.ok, detachEvents ch.toNat c.owner ++ [.attach st.owner ch.toNat], none⟩ }

/-! Volume and pitch (`spec/40_channel_contract.md` R125, R126; `spec/45_volume_mixer.md`). -/

/-- R126, R290, R211: `SET_VOLUME` in each case: frozen once Releasing or later; the PCM8 pan law; the PSG peak, sustain, hard pan, and the
velocity in Playing. -/
def Obligations.SetVolumeResult : Prop :=
  ∀ (s : State) (ch : U8) (vol : U8) (pan : I8) (c : Chan), s.chs[ch.toNat]? = some c →
    exec (.setVolume ch vol pan) s = .next
      { s with
        chs := s.chs.set ch.toNat
          (if c.state = .releasing ∨ c.state = .dying ∨ c.state = .dead then c
          else if c.kind = .pcm8 then { c with
            lvol := trunc8 (tdiv ((c.note.velocity.toNat : Int) * vol.toNat * (64 - pan.toInt)) 0x2000)
            rvol := trunc8 (tdiv ((c.note.velocity.toNat : Int) * vol.toNat * (pan.toInt + 64)) 0x2000) }
          else { c with
            panpot := if pan.toInt < -21 then .left else if 20 < pan.toInt then .right else .center
            peak := BitVec.ofNat 8 (c.note.velocity.toNat * vol.toNat / 2 ^ 10)
            sus := BitVec.ofNat 8 ((c.note.velocity.toNat * vol.toNat / 2 ^ 10 * c.S.toNat + 15) / 16)
            vel := if c.state = .playing
              then BitVec.ofNat 8 ((c.note.velocity.toNat * vol.toNat / 2 ^ 10 * c.S.toNat + 15) / 16) else c.vel })
        out := ⟨.ok, [], none⟩ }

/-- R212, R213: the peak is at most 63, and at most 15 when both factors are at most 127; with `S <= 15` the sustain level is at most the
peak, it is 0 for `S = 0`, and it is the peak for `S = 15` when the peak is at most 15. -/
def Obligations.PeakAndSustainBounds : Prop :=
  ∀ velocity vol s : U8,
    (peakOf velocity vol).toNat ≤ 63 ∧
    (velocity.toNat ≤ 127 → vol.toNat ≤ 127 → (peakOf velocity vol).toNat ≤ 15) ∧
    (s.toNat ≤ 15 → (susOf (peakOf velocity vol) s).toNat ≤ (peakOf velocity vol).toNat) ∧
    susOf (peakOf velocity vol) 0 = 0 ∧
    ((peakOf velocity vol).toNat ≤ 15 → susOf (peakOf velocity vol) 15 = peakOf velocity vol)

/-- R291, R292, R299: the gains of a block, as products; they are not negative; a PCM8 gain is below a positive master scalar; a PSG gain of a
velocity up to 63 is at most 63/32; a hard pan to one side leaves exactly 0 on the other and `velocity/32` on its own. -/
def Obligations.GainsOfABlock : Prop :=
  ∀ (cfg : Cfg) (c : Chan), 0 ≤ cfg.pcm8Master →
    0 ≤ gainL cfg c ∧ 0 ≤ gainR cfg c ∧
    (c.kind = .pcm8 →
      gainL cfg c = (c.lvol.toNat : Rat) * c.vel.toNat * cfg.pcm8Master / 0x10000 ∧
      gainR cfg c = (c.rvol.toNat : Rat) * c.vel.toNat * cfg.pcm8Master / 0x10000 ∧
      (0 < cfg.pcm8Master → gainL cfg c < cfg.pcm8Master ∧ gainR cfg c < cfg.pcm8Master)) ∧
    (c.kind ≠ .pcm8 →
      (c.vel.toNat ≤ 63 → gainL cfg c ≤ 63 / 32 ∧ gainR cfg c ≤ 63 / 32) ∧
      (c.panpot = .left → gainR cfg c = 0 ∧ gainL cfg c = (c.vel.toNat : Rat) / 32) ∧
      (c.panpot = .right → gainL cfg c = 0 ∧ gainR cfg c = (c.vel.toNat : Rat) / 32) ∧
      (c.panpot = .center → gainL cfg c = (c.vel.toNat : Rat) / 32 ∧ gainR cfg c = (c.vel.toNat : Rat) / 32))

/-- R125, R145, R254, R255: `SET_PITCH` in every state of every kind: the pitch stored, the frequency recomputed, nothing else. -/
def Obligations.SetPitchResult : Prop :=
  ∀ (s : State) (ch : U8) (pitch : I32) (c : Chan), s.chs[ch.toNat]? = some c →
    exec (.setPitch ch pitch) s = .next
      { s with
        chs := s.chs.set ch.toNat { c with
          note := { c.note with pitch := pitch }
          freq := match c.kind with
            | .pcm8 => ((c.hdr.rate.toNat / 2 ^ 10 : Nat) : Rat) * exp2 (64 * ((c.note.key.toNat : Int) - 60) + pitch.toInt)
            | .square => 3520 * exp2 (64 * ((c.note.key.toNat : Int) - 69) + pitch.toInt)
            | .wave => 7040 * exp2 (64 * ((c.note.key.toNat : Int) - 69) + pitch.toInt)
            | .noise => min (max (4096 * exp2 (3 * (64 * ((c.note.key.toNat : Int) - 60) + pitch.toInt))) 8) 0x80000 }
        out := ⟨.ok, [], none⟩ }

/-- R121: `EXP2` is positive, exact at the multiples of 768, and monotone non-decreasing, whatever the free values behind it. -/
def Obligations.Exp2Law : Prop :=
  (∀ e : Int, 0 < exp2 e) ∧ (∀ k : Int, exp2 (768 * k) = (2 : Rat) ^ k) ∧ ∀ a b : Int, a ≤ b → exp2 a ≤ exp2 b

/-- R254, R255: twelve keys are an octave, exactly: the square and wave frequencies at keys `69 + 12k` and pitch 0 are `3520 * 2^k` and
`7040 * 2^k`; the noise frequency is always within its clamp, and at keys `60 + 4k` it is the clamp of `4096 * 2^k`. -/
def Obligations.OctavesAreExact : Prop :=
  (∀ (c : Chan) (k : Int), (c.note.key.toNat : Int) = 69 + 12 * k → c.note.pitch = 0 →
    squareFreq c = 3520 * (2 : Rat) ^ k ∧ waveFreq c = 7040 * (2 : Rat) ^ k) ∧
  (∀ c : Chan, 8 ≤ noiseFreq c ∧ noiseFreq c ≤ 0x80000) ∧
  ∀ (c : Chan) (k : Int), (c.note.key.toNat : Int) = 60 + 4 * k → c.note.pitch = 0 →
    noiseFreq c = min (max (4096 * (2 : Rat) ^ k) 8) 0x80000

/-! The lifecycle commands (`spec/40_channel_contract.md`). -/

/-- R115, R153, R224: `RELEASE` in each case: nothing once Releasing or later; PCM8 enters Releasing at once; a PSG channel stops when
its release rate or its velocity is 0 and otherwise stages Releasing. -/
def Obligations.ReleaseResult : Prop :=
  ∀ (s : State) (ch : U8) (c : Chan), s.chs[ch.toNat]? = some c →
    exec (.release ch) s = .next
      (if c.state = .releasing ∨ c.state = .dying ∨ c.state = .dead then { s with out := ⟨.ok, [], none⟩ }
      else if c.kind = .pcm8 then
        { s with chs := s.chs.set ch.toNat { c with state := .releasing }, out := ⟨.ok, [], none⟩ }
      else if c.R = 0 then
        { s with
          chs := s.chs.set ch.toNat { c with vel := 0, state := .dead, owner := none }
          out := ⟨.ok, detachEvents ch.toNat c.owner, none⟩ }
      else if c.vel = 0 then
        { s with
          chs := s.chs.set ch.toNat { c with state := .dead, owner := none }
          out := ⟨.ok, detachEvents ch.toNat c.owner, none⟩ }
      else { s with chs := s.chs.set ch.toNat { c with next := .releasing }, out := ⟨.ok, [], none⟩ })

/-- R116, R117, R225: `TICK_NOTE` in each case: false and nothing once late; true for an endless note; the countdown; at its end the
family's expiry and false. -/
def Obligations.TickNoteResult : Prop :=
  ∀ (s : State) (ch : U8) (c : Chan), s.chs[ch.toNat]? = some c →
    exec (.tickNote ch) s = .next
      (if c.state = .releasing ∨ c.state = .dying ∨ c.state = .dead then { s with out := ⟨.ok, [], some false⟩ }
      else if c.note.duration = 0 then { s with out := ⟨.ok, [], some true⟩ }
      else if c.note.duration ≠ 1 then
        { s with
          chs := s.chs.set ch.toNat { c with note := { c.note with duration := c.note.duration - 1 } }
          out := ⟨.ok, [], some true⟩ }
      else if c.kind = .pcm8 ∨ c.vel ≠ 0 ∧ c.R ≠ 0 then
        { s with
          chs := s.chs.set ch.toNat { c with note := { c.note with duration := 0 }, state := .releasing }
          out := ⟨.ok, [], some false⟩ }
      else
        { s with
          chs := s.chs.set ch.toNat { c with
            note := { c.note with duration := 0 }, vel := if c.R = 0 then 0 else c.vel, state := .dead, owner := none }
          out := ⟨.ok, detachEvents ch.toNat c.owner, some false⟩ })

/-- R116: a note of duration `d >= 1` expires at exactly its `d`-th tick: the ticks before it answer true and leave `d - k`, the `d`-th
answers false and leaves a channel that is Releasing or later. -/
def Obligations.NoteExpiresAtItsLastTick : Prop :=
  ∀ (s : State) (ch : U8) (c : Chan), s.chs[ch.toNat]? = some c → late c = false → c.note.duration ≠ 0 →
    (∀ k, 1 ≤ k → k < c.note.duration.toNat →
      runInstrs (List.replicate k (.tickNote ch)) s = .next
        { s with
          chs := s.chs.set ch.toNat { c with note := { c.note with duration := BitVec.ofNat 32 (c.note.duration.toNat - k) } }
          out := ⟨.ok, [], some true⟩ }) ∧
    ∃ t c', runInstrs (List.replicate c.note.duration.toNat (.tickNote ch)) s = .next t ∧
      t.chs = s.chs.set ch.toNat c' ∧ late c' = true ∧ c'.note.duration = 0 ∧ t.out.result = some false

/-- R118: `STOP` forces `Dead`, emits `Detach` for an owned channel, clears the owner, and touches no other register. -/
def Obligations.StopResult : Prop :=
  ∀ (s : State) (ch : U8) (c : Chan), s.chs[ch.toNat]? = some c →
    exec (.stop ch) s = .next
      { s with
        chs := s.chs.set ch.toNat { c with state := .dead, owner := none }
        out := ⟨.ok, match c.owner with | some o => [.detach o ch.toNat] | none => [], none⟩ }

/-! The PCM8 envelope (`spec/41_pcm8.md` R146 to R152, R161 to R163). -/

/-- R146 to R151: one envelope step of a PCM8 channel, state by state (R152 is in `ProcessOfADeadChannel`). -/
def Obligations.Pcm8EnvelopeTable : Prop :=
  ∀ (cfg : Cfg) (i : Nat) (c : Chan), c.kind = .pcm8 →
    (c.state = .initializing → envChan cfg i c = { c with vel := c.A, state := .rising }) ∧
    (c.state = .rising → envChan cfg i c =
      if 255 ≤ c.vel.toNat + c.A.toNat then { c with state := .decaying, vel := 255 } else { c with vel := c.vel + c.A }) ∧
    (c.state = .decaying → envChan cfg i c =
      if c.vel.toNat * c.D.toNat / 256 ≤ c.S.toNat then { c with state := .playing, vel := c.S }
      else { c with vel := BitVec.ofNat 8 (c.vel.toNat * c.D.toNat / 256) }) ∧
    (c.state = .playing → envChan cfg i c = c) ∧
    (c.state = .releasing → envChan cfg i c =
      if c.vel.toNat * c.R.toNat / 256 = 0 then { c with state := .dying, vel := 0 }
      else { c with vel := BitVec.ofNat 8 (c.vel.toNat * c.R.toNat / 256) }) ∧
    (c.state = .dying → envChan cfg i c = { c with state := .dead, owner := none })

/-- R162: from Initializing with `1 <= A`, after `k` steps with `k * A < 255` the channel is Rising at `k * A`; after `ceil(255/A)` steps it is
at 255; after `max(2, ceil(255/A))` steps it is Decaying. R161: with `A = 0` it is Rising at 0 after every number of steps. -/
def Obligations.Pcm8RiseTime : Prop :=
  ∀ (cfg : Cfg) (i : Nat) (c : Chan), c.kind = .pcm8 → c.state = .initializing →
    (∀ k, 1 ≤ k → k * c.A.toNat < 255 →
      envChans cfg i k c = { c with state := .rising, vel := BitVec.ofNat 8 (k * c.A.toNat) }) ∧
    (1 ≤ c.A.toNat →
      (envChans cfg i ((254 + c.A.toNat) / c.A.toNat) c).vel = 255 ∧
      envChans cfg i (max 2 ((254 + c.A.toNat) / c.A.toNat)) c = { c with state := .decaying, vel := 255 })

/-- R163: in Decaying a step that stays in Decaying lowers the velocity, and within `vel + 1` steps the channel is Playing at `S`; in
Releasing likewise down to Dying at 0. -/
def Obligations.Pcm8FallsToItsLevel : Prop :=
  ∀ (cfg : Cfg) (i : Nat) (c : Chan), c.kind = .pcm8 →
    (c.state = .decaying →
      ((envChan cfg i c).state = .decaying → (envChan cfg i c).vel.toNat < c.vel.toNat) ∧
      ∃ k, 1 ≤ k ∧ k ≤ c.vel.toNat + 1 ∧ envChans cfg i k c = { c with state := .playing, vel := c.S }) ∧
    (c.state = .releasing →
      ((envChan cfg i c).state = .releasing → (envChan cfg i c).vel.toNat < c.vel.toNat) ∧
      ∃ k, 1 ≤ k ∧ k ≤ c.vel.toNat + 1 ∧ envChans cfg i k c = { c with state := .dying, vel := 0 })

/-! The PSG envelope (`spec/43_psg_envelope.md` R214 to R227). -/

/-- R214 to R223: one envelope step of a PSG channel, state by state. `decay` is `DEC_ENTRY` and `fall` is `REL_ENTRY`, on the channel with its
frame counted. -/
def Obligations.PsgEnvelopeTable : Prop :=
  ∀ (cfg : Cfg) (i : Nat) (c : Chan), c.kind ≠ .pcm8 →
    let counted := { c with step := c.step + 1 }
    let decay := fun st : EnvState =>
      if c.vel.toNat ≤ c.sus.toNat + 1 then { c with state := st, step := 0, vel := c.sus, next := .playing }
      else { c with state := st, step := 0, vel := c.vel - 1 }
    let fall :=
      if c.R = 0 then { counted with state := .dead, owner := none, vel := 0 }
      else if c.vel.toNat ≤ 1 then { c with state := .releasing, step := 0, vel := 0, next := .dying }
      else { c with state := .releasing, step := 0, vel := c.vel - 1 }
    (c.state = .initializing → envChan cfg i c =
      let next := if cfg.psgInitDropsStagedRelease = true ∨ c.next ≠ .releasing then EnvState.rising else c.next
      if (c.A = 0 ∧ c.D = 0) ∨ (c.sus = 0 ∧ c.peak = 0) then { c with next := next, step := 0, state := .playing, vel := c.sus }
      else if c.A = 0 ∧ c.S.toNat < 15 then
        { c with next := next, step := 0, state := .decaying, vel := BitVec.ofNat 8 (max (c.peak.toNat - 1) c.sus.toNat) }
      else if c.A = 0 then { c with next := next, step := 0, state := .playing, vel := c.sus }
      else { c with next := next, step := 0, state := .rising, vel := 1 }) ∧
    (c.state = .rising → envChan cfg i c =
      if counted.step.toNat < c.A.toNat then counted
      else if c.next = .decaying then decay .decaying
      else if c.next = .playing then { c with state := .playing, step := 0 }
      else if c.next = .releasing then fall
      else if c.peak.toNat ≤ c.vel.toNat + 1 then
        { c with step := 0, vel := c.peak, next := if c.D = 0 ∨ c.peak = c.sus then .playing else .decaying }
      else { c with step := 0, vel := c.vel + 1 }) ∧
    (c.state = .decaying → envChan cfg i c =
      if counted.step.toNat < c.D.toNat then counted
      else if c.next = .playing then { c with state := .playing, step := 0 }
      else if c.next = .releasing then fall
      else decay .decaying) ∧
    (c.state = .playing → envChan cfg i c = if c.next = .releasing then fall else { c with step := 0 }) ∧
    (c.state = .releasing → envChan cfg i c =
      if counted.step.toNat < c.R.toNat then counted
      else if c.next = .dying then { counted with state := .dead, owner := none }
      else fall) ∧
    (c.state = .dying ∨ c.state = .dead → envChan cfg i c = c)

/-- R227: from Initializing with `A >= 1`, a peak of 2 or more and no staged release kept, the velocity is `m + 1` after `1 + A * m` steps for every
`m` below the peak, still in Rising; so it first reaches the peak after `1 + A * (peak - 1)` steps. -/
def Obligations.PsgRiseTime : Prop :=
  ∀ (cfg : Cfg) (i : Nat) (c : Chan), c.kind ≠ .pcm8 → c.state = .initializing → 1 ≤ c.A.toNat → c.A.toNat < 8 →
    2 ≤ c.peak.toNat → c.peak.toNat ≤ 63 → (cfg.psgInitDropsStagedRelease = true ∨ c.next ≠ .releasing) →
    ∀ m j, m < c.peak.toNat → j < c.A.toNat →
      (envChans cfg i (1 + c.A.toNat * m + j) c).state = .rising ∧
      (envChans cfg i (1 + c.A.toNat * m + j) c).vel.toNat = m + 1

/-- R227: a PSG channel in Releasing at velocity `w >= 1` with a fresh hold and nothing staged, at a release rate `R` of 1 to 7, is
Releasing for the next `(w + 1) * R - 1` steps and `Dead` at the `(w + 1) * R`-th. -/
def Obligations.PsgReleaseTime : Prop :=
  ∀ (cfg : Cfg) (i : Nat) (c : Chan), c.kind ≠ .pcm8 → c.state = .releasing → c.step = 0 → c.next ≠ .dying →
    1 ≤ c.vel.toNat → 1 ≤ c.R.toNat → c.R.toNat < 8 →
    (∀ k, k < (c.vel.toNat + 1) * c.R.toNat → (envChans cfg i k c).state = .releasing) ∧
    (envChans cfg i ((c.vel.toNat + 1) * c.R.toNat) c).state = .dead ∧
    (envChans cfg i ((c.vel.toNat + 1) * c.R.toNat) c).vel = 0

/-- R226: with `A = 0` a PSG channel that is not Rising never becomes Rising. Initializing gives it the sustain level or `max(peak - 1, sus)`, and
from there on its velocity never increases while no `SET_VOLUME` comes. After one, R220 can still raise it, in Decaying, to a sustain level that
`SET_VOLUME` has put above it (log 23): a step from any state but Initializing does not raise the velocity unless it is that one. -/
def Obligations.PsgAttackZeroSkipsRising : Prop :=
  ∀ (cfg : Cfg) (i : Nat) (c : Chan), c.kind ≠ .pcm8 → c.A = 0 → c.state ≠ .rising →
    (∀ k, (envChans cfg i k c).state ≠ .rising) ∧
    (c.state = .initializing →
      ((envChan cfg i c).vel = c.sus ∨ (envChan cfg i c).vel.toNat = max (c.peak.toNat - 1) c.sus.toNat) ∧
      ∀ k, 1 ≤ k → (envChans cfg i (k + 1) c).vel.toNat ≤ (envChans cfg i k c).vel.toNat) ∧
    (c.state ≠ .initializing → (c.state = .decaying → c.sus.toNat ≤ c.vel.toNat) →
      (envChan cfg i c).vel.toNat ≤ c.vel.toNat)

/-- R216 to R218, R220, R224: a staged release is honoured at the end of the hold in Rising and in Decaying and at the next step in Playing, with
one release step taken: `vel - 1`, or velocity 0 with Dying staged, or a stop when the release rate is 0. -/
def Obligations.StagedReleaseIsHonoured : Prop :=
  ∀ (cfg : Cfg) (i : Nat) (c : Chan), c.kind ≠ .pcm8 → c.next = .releasing →
    (c.state = .playing ∨ c.state = .decaying ∧ c.D.toNat ≤ (c.step + 1).toNat ∨
      c.state = .rising ∧ c.A.toNat ≤ (c.step + 1).toNat) →
    if c.R = 0 then (envChan cfg i c).state = .dead ∧ (envChan cfg i c).vel = 0
    else if c.vel.toNat ≤ 1 then
      envChan cfg i c = { c with state := .releasing, step := 0, next := .dying, vel := 0 }
    else envChan cfg i c = { c with state := .releasing, step := 0, vel := c.vel - 1 }

/-! `PROCESS` (`spec/40_channel_contract.md` R119 and the generators). -/

/-- R127, R119, R151: `PROCESS` on a `Dead` channel writes nothing and changes nothing but the output. When its envelope step makes a channel `Dead`,
it writes no sample either: the channel is as that step leaves it, and an owned channel is detached; so it is for a PCM8 channel in Dying
(R151) and for a PSG channel that its release stops (R219, R222). -/
def Obligations.ProcessOfADeadChannel : Prop :=
  ∀ (s : State) (ch : U8) (b : BufArg) (c : Chan), s.chs[ch.toNat]? = some c →
    (c.state = .dead → exec (.process ch b) s = .next { s with buf := bufOf b s, out := ⟨.ok, [], none⟩ }) ∧
    (c.state ≠ .dead → (envChan s.cfg ch.toNat c).state = .dead →
      exec (.process ch b) s = .next
        { s with
          chs := s.chs.set ch.toNat (envChan s.cfg ch.toNat c)
          buf := bufOf b s
          out := ⟨.ok, detachEvents ch.toNat c.owner, none⟩ }) ∧
    (c.kind = .pcm8 → c.state = .dying →
      exec (.process ch b) s = .next
        { s with
          chs := s.chs.set ch.toNat { c with state := .dead, owner := none }
          buf := bufOf b s
          out := ⟨.ok, detachEvents ch.toNat c.owner, none⟩ })

/-- R119, R160: every `PROCESS` advances the envelope exactly once: afterwards the envelope registers are those of one step, and the
state is the step's or `Dead`. -/
def Obligations.ProcessStepsTheEnvelopeOnce : Prop :=
  ∀ (s t : State) (ch : U8) (b : BufArg) (c : Chan), s.chs[ch.toNat]? = some c → exec (.process ch b) s = .next t →
    ∃ c', t.chs = s.chs.set ch.toNat c' ∧
      (c'.state = (envChan s.cfg ch.toNat c).state ∨ c'.state = .dead) ∧
      c'.vel = (envChan s.cfg ch.toNat c).vel ∧ c'.step = (envChan s.cfg ch.toNat c).step ∧
      c'.next = (envChan s.cfg ch.toNat c).next ∧
      { c' with
        state := c.state, owner := c.owner, vel := c.vel, step := c.step, next := c.next
        pos := c.pos, frac := c.frac } = c

/-- R257, R264, R272, R122, R124, R295, R296: `PROCESS` of a PSG channel that is alive after its envelope step and whose increment is in
range: frame `k` adds the table's sample at the index the phase has then reached, scaled by the two gains, and the phase ends where
`N` increments take it. The tables are the spec's defaults (log 11). -/
def Obligations.PsgBlockResult : Prop :=
  ∀ (s : State) (ch : U8) (b : BufArg) (c : Chan), s.chs[ch.toNat]? = some c → c.kind ≠ .pcm8 → 1 ≤ s.cfg.n →
    (envChan s.cfg ch.toNat c).state ≠ .dead → phaseInc c.freq s.cfg.sr < 2 ^ 48 →
    let e := envChan s.cfg ch.toNat c
    let inc := phaseInc c.freq s.cfg.sr
    exec (.process ch b) s = .next
      { s with
        chs := s.chs.set ch.toNat { e with
          frac := fracAfter inc c s.cfg.n, pos := BitVec.ofNat 32 (phaseIndex (tableLen c) inc c s.cfg.n) }
        buf := addFrames (gainL s.cfg e) (gainR s.cfg e) (fun k => tableSample c (phaseIndex (tableLen c) inc c k)) s.cfg.n
          (bufOf b s)
        out := ⟨.ok, [], none⟩ }

/-- R155 to R158: a raw PCM8 channel, alive after its envelope step, that does not stop in this block, because it loops or because no position it
reaches is the length or more, and whose `N` bytes lie in ROM: frame `k` adds the byte at the position of frame `k`; the position and the
fraction end where `N` frames take them. The increment is `2^F` at a fixed frequency, else that of the pitch. -/
def Obligations.RawBlockResult : Prop :=
  ∀ (s : State) (ch : U8) (b : BufArg) (c : Chan), s.chs[ch.toNat]? = some c → c.kind = .pcm8 →
    c.synth = false → c.compressed = false → (envChan s.cfg ch.toNat c).state ≠ .dead →
    let e := envChan s.cfg ch.toNat c
    let inc := if c.fixed = true then 2 ^ 32 else phaseInc c.freq s.cfg.sr
    inc < 2 ^ 48 →
    (c.hdr.loop = 0x40000000 ∨ ∀ k, 1 ≤ k → k ≤ s.cfg.n → rawPos inc c k < c.hdr.length.toNat) →
    (∀ k, k < s.cfg.n → c.base + rawPos inc c k < s.rom.size) →
    exec (.process ch b) s = .next
      { s with
        chs := s.chs.set ch.toNat { e with pos := BitVec.ofNat 32 (rawPos inc c s.cfg.n), frac := fracAfter inc c s.cfg.n }
        buf := addFrames (gainL s.cfg e) (gainR s.cfg e)
          (fun k => ((s.rom.byte (c.base + rawPos inc c k)).toInt : Rat) / 128) s.cfg.n (bufOf b s)
        out := ⟨.ok, [], none⟩ }

/-- R156, R158, R160: the same channel without a loop, whose position is first the length or more after `m <= N` frames, plays those, stops, and
leaves the other frames alone. The register keeps the position where 32 bits hold it; where they do not, the value is free (log 9). -/
def Obligations.RawSampleEndStops : Prop :=
  ∀ (s : State) (ch : U8) (b : BufArg) (c : Chan) (m : Nat), s.chs[ch.toNat]? = some c → c.kind = .pcm8 →
    c.synth = false → c.compressed = false → c.hdr.loop ≠ 0x40000000 → (envChan s.cfg ch.toNat c).state ≠ .dead →
    let e := envChan s.cfg ch.toNat c
    let inc := if c.fixed = true then 2 ^ 32 else phaseInc c.freq s.cfg.sr
    inc < 2 ^ 48 → 1 ≤ m → m ≤ s.cfg.n →
    (∀ k, 1 ≤ k → k < m → rawPos inc c k < c.hdr.length.toNat) → c.hdr.length.toNat ≤ rawPos inc c m →
    (∀ k, k < m → c.base + rawPos inc c k < s.rom.size) →
    ∃ p, (rawPos inc c m < 2 ^ 32 → p = BitVec.ofNat 32 (rawPos inc c m)) ∧
      exec (.process ch b) s = .next
        { s with
          chs := s.chs.set ch.toNat { e with pos := p, frac := fracAfter inc c m, state := .dead, owner := none }
          buf := addFrames (gainL s.cfg e) (gainR s.cfg e)
            (fun k => ((s.rom.byte (c.base + rawPos inc c k)).toInt : Rat) / 128) m (bufOf b s)
          out := ⟨.ok, detachEvents ch.toNat c.owner, none⟩ }

/-- R164, R158: `PROCESS` never stops a looping raw channel once its envelope step has left it alive. -/
def Obligations.LoopingSampleNeverStops : Prop :=
  ∀ (s t : State) (ch : U8) (b : BufArg) (c : Chan), s.chs[ch.toNat]? = some c → c.kind = .pcm8 →
    c.synth = false → c.compressed = false → c.hdr.loop = 0x40000000 → (envChan s.cfg ch.toNat c).state ≠ .dead →
    exec (.process ch b) s = .next t →
    ∃ c', t.chs = s.chs.set ch.toNat c' ∧ c'.state = (envChan s.cfg ch.toNat c).state ∧ c'.owner = (envChan s.cfg ch.toNat c).owner

/-- R158: at one sample per frame, a looping channel that has read its last sample reads `loopOffset` next, its fraction kept. -/
def Obligations.LoopGoesToTheLoopOffset : Prop :=
  ∀ (rom : Memory) (c : Chan), c.hdr.loop = 0x40000000 → c.pos.toNat + 1 = c.hdr.length.toNat →
    c.base + c.pos.toNat < rom.size →
    rawTick rom (2 ^ 32) c =
      .go { c with pos := c.hdr.loopOffset } (((rom.byte (c.base + c.pos.toNat)).toInt : Rat) / 128)

/-- R155, R159, R160: a compressed PCM8 channel, alive after its envelope step, with a decoded list of at most `2^32` samples (a longer one has
positions that 32 bits do not hold: log 9), whatever the header says of length and loop: when the list goes beyond the block it plays on; when its
position is first the list's end or more after `m <= N` frames it plays those, stops, and leaves the other frames alone. -/
def Obligations.CompressedSampleEndStops : Prop :=
  ∀ (s : State) (ch : U8) (b : BufArg) (c : Chan), s.chs[ch.toNat]? = some c → c.kind = .pcm8 →
    c.synth = false → c.compressed = true → (envChan s.cfg ch.toNat c).state ≠ .dead → c.dec.length ≤ 2 ^ 32 →
    let e := envChan s.cfg ch.toNat c
    let inc := if c.fixed = true then 2 ^ 32 else phaseInc c.freq s.cfg.sr
    inc < 2 ^ 48 →
    (playPos inc c s.cfg.n < c.dec.length →
      exec (.process ch b) s = .next
        { s with
          chs := s.chs.set ch.toNat { e with pos := BitVec.ofNat 32 (playPos inc c s.cfg.n), frac := fracAfter inc c s.cfg.n }
          buf := addFrames (gainL s.cfg e) (gainR s.cfg e)
            (fun k => ((c.dec.getD (playPos inc c k) 0).toInt : Rat) / 128) s.cfg.n (bufOf b s)
          out := ⟨.ok, [], none⟩ }) ∧
    ∀ m, 1 ≤ m → m ≤ s.cfg.n → (∀ k, k < m → playPos inc c k < c.dec.length) → c.dec.length ≤ playPos inc c m →
      ∃ p, (playPos inc c m < 2 ^ 32 → p = BitVec.ofNat 32 (playPos inc c m)) ∧
        exec (.process ch b) s = .next
          { s with
            chs := s.chs.set ch.toNat { e with pos := p, frac := fracAfter inc c m, state := .dead, owner := none }
            buf := addFrames (gainL s.cfg e) (gainR s.cfg e)
              (fun k => ((c.dec.getD (playPos inc c k) 0).toInt : Rat) / 128) m (bufOf b s)
            out := ⟨.ok, detachEvents ch.toNat c.owner, none⟩ }

/-- R123, R183, R328: an increment out of range faults `INC_RANGE` after the envelope step and before any frame, in every kind; in synth mode
the bound is `2^F`. -/
def Obligations.IncrementOutOfRangeFaults : Prop :=
  ∀ (s : State) (ch : U8) (b : BufArg) (c : Chan), s.chs[ch.toNat]? = some c → (envChan s.cfg ch.toNat c).state ≠ .dead →
    (c.kind ≠ .pcm8 ∧ 2 ^ 48 ≤ phaseInc c.freq s.cfg.sr ∨
      c.kind = .pcm8 ∧ c.synth = true ∧ 2 ^ 32 ≤ phaseInc c.freq ((s.cfg.sr * 64 : Nat) : Rat) ∨
      c.kind = .pcm8 ∧ c.synth = false ∧ c.fixed = false ∧ 2 ^ 48 ≤ phaseInc c.freq s.cfg.sr) →
    exec (.process ch b) s = .next
      { s with
        chs := s.chs.set ch.toNat (envChan s.cfg ch.toNat c)
        buf := bufOf b s
        faulted := true
        out := ⟨.fault ⟨.incRange, .process, ch.toNat, none⟩, [], none⟩ }

/-- R159, R185, R156, R320, R328: the faults of PCM8 frames. A compressed channel with nothing decoded faults `DEC_RANGE`, and a synth channel of a
type of 3 or more faults `SYNTH_TYPE`, both after the envelope step and before any frame. A raw channel whose frame `m` is the first to read
outside ROM faults `ROM_RANGE` there: the frames before it remain added, the position is that of frame `m`, and the record has the address of
the byte it reads, the first out of range. -/
def Obligations.EmptySampleAndUnknownTypeFault : Prop :=
  ∀ (s : State) (ch : U8) (b : BufArg) (c : Chan), s.chs[ch.toNat]? = some c → c.kind = .pcm8 →
    (envChan s.cfg ch.toNat c).state ≠ .dead → 1 ≤ s.cfg.n →
    (c.synth = false → c.compressed = true → c.dec = [] → pcm8Inc s.cfg c < 2 ^ 48 →
      exec (.process ch b) s = .next
        { s with
          chs := s.chs.set ch.toNat (envChan s.cfg ch.toNat c), buf := bufOf b s, faulted := true
          out := ⟨.fault ⟨.decRange, .process, ch.toNat, none⟩, [], none⟩ }) ∧
    (c.synth = true → 3 ≤ c.sp.type.toNat → pcm8Inc s.cfg c < 2 ^ 32 →
      exec (.process ch b) s = .next
        { s with
          chs := s.chs.set ch.toNat (envChan s.cfg ch.toNat c), buf := bufOf b s, faulted := true
          out := ⟨.fault ⟨.synthType, .process, ch.toNat, none⟩, [], none⟩ }) ∧
    ∀ m, m < s.cfg.n → c.synth = false → c.compressed = false →
      let e := envChan s.cfg ch.toNat c
      let inc := if c.fixed = true then 2 ^ 32 else phaseInc c.freq s.cfg.sr
      inc < 2 ^ 48 →
      (c.hdr.loop = 0x40000000 ∨ ∀ k, 1 ≤ k → k ≤ m → rawPos inc c k < c.hdr.length.toNat) →
      (∀ k, k < m → c.base + rawPos inc c k < s.rom.size) → s.rom.size ≤ c.base + rawPos inc c m →
      exec (.process ch b) s = .next
        { s with
          chs := s.chs.set ch.toNat { e with pos := BitVec.ofNat 32 (rawPos inc c m), frac := fracAfter inc c m }
          buf := addFrames (gainL s.cfg e) (gainR s.cfg e)
            (fun k => ((s.rom.byte (c.base + rawPos inc c k)).toInt : Rat) / 128) m (bufOf b s)
          faulted := true
          out := ⟨.fault ⟨.romRange, .process, ch.toNat, some (c.base + rawPos inc c m)⟩, [], none⟩ }

/-- R183, R184, R189: a block of the synthesised triangle: frame `k` is the triangle at the phase after `k + 1` increments; the fixed-frequency
and compressed flags do not matter (R182). -/
def Obligations.TriangleBlockResult : Prop :=
  ∀ (s : State) (ch : U8) (b : BufArg) (c : Chan), s.chs[ch.toNat]? = some c → c.kind = .pcm8 →
    c.synth = true → c.sp.type = 2 → (envChan s.cfg ch.toNat c).state ≠ .dead →
    phaseInc c.freq ((s.cfg.sr * 64 : Nat) : Rat) < 2 ^ 32 →
    let e := envChan s.cfg ch.toNat c
    let inc := phaseInc c.freq ((s.cfg.sr * 64 : Nat) : Rat)
    exec (.process ch b) s = .next
      { s with
        chs := s.chs.set ch.toNat { e with frac := fracAfter inc c s.cfg.n }
        buf := addFrames (gainL s.cfg e) (gainR s.cfg e)
          (fun k =>
            let p : Rat := ((c.frac.toNat + (k + 1) * inc) % 2 ^ 32 : Nat) / 2 ^ 32
            if p < 1 / 2 then 4 * p - 1 else 3 - 4 * p) s.cfg.n (bufOf b s)
        out := ⟨.ok, [], none⟩ }

/-- R183, R184, R186, R187: a block of the synthesised square: the modulation phase moves once, the threshold is R186's, written out, and frame `k` is
`1 - th` or `-th` as the phase after `k` increments is below the threshold or not. -/
def Obligations.SynthSquareBlockResult : Prop :=
  ∀ (s : State) (ch : U8) (b : BufArg) (c : Chan), s.chs[ch.toNat]? = some c → c.kind = .pcm8 →
    c.synth = true → c.sp.type = 0 → (envChan s.cfg ch.toNat c).state ≠ .dead →
    phaseInc c.freq ((s.cfg.sr * 64 : Nat) : Rat) < 2 ^ 32 →
    let e := envChan s.cfg ch.toNat c
    let inc := phaseInc c.freq ((s.cfg.sr * 64 : Nat) : Rat)
    let phase := wrap32 (c.pos.toInt + c.sp.cycleSpeed.toNat * 2 ^ 24)
    let t0 := wrap32 (c.sp.minimumCycle.toNat * 2 ^ 24 + phase)
    let t1 := (if t0 < 0 then -t0 - 1 else t0) / 2 ^ 8
    let t2 : Int := wrap32 (t1 * c.sp.cycleAmplitude.toNat + c.sp.initialCycle.toNat * 2 ^ 24)
    let th : Rat := (t2 : Rat) / 2 ^ 32
    exec (.process ch b) s = .next
      { s with
        chs := s.chs.set ch.toNat { e with frac := fracAfter inc c s.cfg.n, pos := BitVec.ofInt 32 phase }
        buf := addFrames (gainL s.cfg e) (gainR s.cfg e)
          (fun k => if ((c.frac.toNat + k * inc) % 2 ^ 32 : Nat) / 2 ^ 32 < th then 1 - th else -th) s.cfg.n (bufOf b s)
        out := ⟨.ok, [], none⟩ }

/-- R183, R184, R188: a block of the synthesised saw. The filter state `v` starts at the position register, moves by R188's recurrence at the phase
`p k` after `k` increments, and frame `k` is its new value over 256. From `-254 .. 318` it stays there, and then `wrap32` changes nothing. -/
def Obligations.SawStaysInRange : Prop :=
  ∀ (s : State) (ch : U8) (b : BufArg) (c : Chan), s.chs[ch.toNat]? = some c → c.kind = .pcm8 →
    c.synth = true → c.sp.type = 1 → (envChan s.cfg ch.toNat c).state ≠ .dead →
    phaseInc c.freq ((s.cfg.sr * 64 : Nat) : Rat) < 2 ^ 32 →
    let e := envChan s.cfg ch.toNat c
    let inc := phaseInc c.freq ((s.cfg.sr * 64 : Nat) : Rat)
    let p := fun k : Nat => (c.frac.toNat + k * inc) % 2 ^ 32
    let v1 : Nat → Int := fun k => ((p k / 2 ^ 24 : Nat) : Int) - 0x70
    let x : Nat → Int := fun k => ((p k / 2 ^ 26 % 32 : Nat) : Int)
    let v2 : Nat → Int := fun k => if x k < 16 then x k else x k - 32
    ∃ v : Nat → Int, v 0 = c.pos.toInt ∧ (∀ k, v (k + 1) = wrap32 (v1 (k + 1) - v2 (k + 1) + v k / 2)) ∧
      exec (.process ch b) s = .next
        { s with
          chs := s.chs.set ch.toNat { e with frac := fracAfter inc c s.cfg.n, pos := BitVec.ofInt 32 (v s.cfg.n) }
          buf := addFrames (gainL s.cfg e) (gainR s.cfg e) (fun k => (v (k + 1) : Rat) / 256) s.cfg.n (bufOf b s)
          out := ⟨.ok, [], none⟩ } ∧
      (-254 ≤ c.pos.toInt → c.pos.toInt ≤ 318 →
        ∀ k, -254 ≤ v k ∧ v k ≤ 318 ∧ v (k + 1) = v1 (k + 1) - v2 (k + 1) + v k / 2)

/-- R299, R187, R189, R186: the samples of the synthesised square and triangle, and of PCM, lie within -1 and 1, for every phase in
`[0, 1)` and every threshold the recurrence gives. -/
def Obligations.SampleBounds : Prop :=
  (∀ b : I8, -1 ≤ pcmSample b ∧ pcmSample b < 1) ∧
  (∀ frac : BitVec Config.F, -1 ≤ triangleAt (phaseOf frac) ∧ triangleAt (phaseOf frac) ≤ 1) ∧
  ∀ (sp : SynthParams) (phase : Int) (frac : BitVec Config.F),
    -1 ≤ squarePulse (squareThreshold sp phase) (phaseOf frac) ∧ squarePulse (squareThreshold sp phase) (phaseOf frac) ≤ 1

/-- R263: what the default `WAVE_DECODE` (log 11) makes of 16 bytes has 32 entries, their sum is 0, and each lies strictly between -15/16 and
15/16. -/
def Obligations.WavetableIsCentred : Prop :=
  ∀ bytes : List U8, bytes.length = 16 →
    (waveDecode bytes).length = 32 ∧ (waveDecode bytes).sum = 0 ∧ ∀ x ∈ waveDecode bytes, -15 / 16 < x ∧ x < 15 / 16

/-! The mixer (`spec/45_volume_mixer.md` R297, R298) and the whole machine. -/

/-- R297, R298: when every channel's `PROCESS` on a block of zeros is through, `MIX_BLOCK` answers a block whose every element is the exact
sum of those channels' elements, the channels each as its own `PROCESS` leaves it, and the events in channel order. -/
def Obligations.MixBlockIsTheSum : Prop :=
  ∀ (s : State) (b : BufArg) (ws : List Work), ws.length = s.chs.length →
    (∀ i c w, s.chs[i]? = some c → ws[i]? = some w →
      ruleProcess s.cfg s.rom i (Work.start c (zeroBlock s.cfg.n)) = .done w) →
    exec (.mixBlock b) s = .next
      { s with
        chs := ws.map (·.chan)
        buf := (List.range (2 * s.cfg.n)).map fun j => (ws.map fun w => w.buf.getD j 0).sum
        out := ⟨.ok, (ws.map (·.events)).flatten, none⟩ }

/-- R297, R127, R257, R264, R272: `MIX_BLOCK` of a pool whose channels are each `Dead` or of a PSG kind with an increment in range is through, with
a block of `2N` elements. -/
def Obligations.MixBlockOfPsgAndDeadChannelsCompletes : Prop :=
  ∀ (s : State) (b : BufArg),
    (∀ c ∈ s.chs, c.state = .dead ∨ c.kind ≠ .pcm8 ∧ phaseInc c.freq s.cfg.sr < 2 ^ 48) →
    ∃ t, exec (.mixBlock b) s = .next t ∧ t.out.outcome = .ok ∧ t.out.result = none ∧ t.buf.length = 2 * s.cfg.n ∧
      t.chs.length = s.chs.length ∧ t.cfg = s.cfg ∧ t.rom = s.rom ∧ t.cmds = s.cmds ∧ t.faulted = s.faulted ∧
      t.refused = s.refused

/-- R297, R320, R328: when the channels before `k` are through and channel `k` faults, `MIX_BLOCK` ends there: its record names `MIX_BLOCK`, the
channel and the cause (the channel named is the model's reading: log 12); the channels after `k` are as they were; the block is
quiescent. -/
def Obligations.MixBlockEndsAtTheFirstFault : Prop :=
  ∀ (s t : State) (b : BufArg) (r : FaultRecord), exec (.mixBlock b) s = .next t → t.out.outcome = .fault r →
    t.faulted = true ∧ r.op = .mixBlock ∧ r.ch < s.chs.length ∧
    (∀ j, r.ch < j → t.chs[j]? = s.chs[j]?) ∧
    (∀ c buf, s.chs[r.ch]? = some c →
      ∃ w, ruleProcess s.cfg s.rom r.ch (Work.start c buf) = .raised w ⟨r.reason, r.addr⟩ ∧ t.chs[r.ch]? = some w.chan) ∧
    ∀ j c buf, j < r.ch → s.chs[j]? = some c →
      ∃ w, ruleProcess s.cfg s.rom j (Work.start c buf) = .done w ∧ t.chs[j]? = some w.chan

/-- R73: `PROCESS` of two different channels on one block, both through, leaves the same block and the same channels in either order. -/
def Obligations.ProcessOrderDoesNotMatter : Prop :=
  ∀ (s : State) (c1 c2 : U8) (a a' : State), c1 ≠ c2 → c1.toNat < s.chs.length → c2.toNat < s.chs.length →
    exec (.process c1 .current) s = .next a → a.out.outcome = .ok →
    exec (.process c2 .current) s = .next a' → a'.out.outcome = .ok →
    ∃ t t', exec (.process c2 .current) a = .next t ∧ exec (.process c1 .current) a' = .next t' ∧
      t.out.outcome = .ok ∧ t'.out.outcome = .ok ∧ t.buf = t'.buf ∧ t.chs = t'.chs

/-- R20, R47, R61, R64: a command that addresses a channel changes no other channel, no parameter, no ROM byte and no queued command, and the
block only if it is `PROCESS`; the number of channels stays. -/
def Obligations.OneChannelCommandsLeaveTheRest : Prop :=
  ∀ (i : Instr) (ch : U8) (s t : State), i.channel? = some ch → exec i s = .next t →
    t.cfg = s.cfg ∧ t.rom = s.rom ∧ t.cmds = s.cmds ∧ t.chs.length = s.chs.length ∧
    (∀ a, t.rom.byte a = s.rom.byte a) ∧
    (∀ j, j ≠ ch.toNat → t.chs[j]? = s.chs[j]?) ∧
    (i.buf? = none → t.buf = s.buf)

/-- R24, R61, R350: no step changes a parameter, a ROM byte, the number of channels or the kind of a channel. -/
def Obligations.ConfigurationIsFixed : Prop :=
  ∀ s t : State, step s = .next t →
    t.cfg = s.cfg ∧ t.rom = s.rom ∧ t.chs.map (·.kind) = s.chs.map (·.kind)

/-- R128: the envelope only moves forward: after a step, every channel's state code is at least what it was, unless the step was an INIT of
that channel, which raises `gen` by one and leaves it Initializing. -/
def Obligations.EnvelopeOnlyMovesForward : Prop :=
  ∀ (s t : State), step s = .next t → ∀ (j : Nat) (c c' : Chan), s.chs[j]? = some c → t.chs[j]? = some c' →
    stateCode c.state ≤ stateCode c'.state ∧ c'.gen = c.gen ∨ c'.state = .initializing ∧ c'.gen = c.gen + 1

/-- R129: the events of a step are, for every channel, an alternation of `Detach` of its owner and `Attach` of a new one that leads from the owner
before the step to the owner after it. -/
def Obligations.EventsTellTheOwner : Prop :=
  ∀ (s t : State), step s = .next t → ∀ (j : Nat) (c c' : Chan), s.chs[j]? = some c → t.chs[j]? = some c' →
    ownerAfter j t.out.events c.owner = some c'.owner

/-- R39, R42, R64, R90, R118, R223, R299: every step keeps the invariant of the block (`State.Inv`). -/
def Obligations.StepKeepsTheInvariant : Prop :=
  ∀ s t : State, s.Inv → step s = .next t → t.Inv

/-- R350, R353: construction from allowed parameters, a canonical ROM and 1 to 256 kinds meets the invariant. So does the model's reset,
which is such a construction with parameters that are the model's choice (log 5). -/
def Obligations.ConstructionMeetsTheInvariant : Prop :=
  (∀ (cfg : Cfg) (rom : Memory) (kinds : List Kind), cfg.Ok → rom.wf = true → 1 ≤ kinds.length → kinds.length ≤ 256 →
    (State.construct cfg rom kinds).Inv) ∧
  State.reset.Inv

/-- R350: what construction leaves in a channel, register by register, and in the marks. -/
def Obligations.ResetValues : Prop :=
  (∀ kind : Kind, Chan.reset kind =
    { kind := kind, state := .dead, owner := none, gen := 0, note := ⟨0, 0, 0, 0⟩, A := 0, D := 0, S := 0, R := 0, vel := 0,
      pos := 0, frac := 0, freq := 0, hdr := ⟨0, 0, 0, 0⟩, base := 0, fixed := false, compressed := false, synth := false,
      dec := [], sp := ⟨0, 0, 0, 0, 0⟩, lvol := 0, rvol := 0, step := 0, next := .initializing, peak := 0, sus := 0,
      panpot := .center, duty := 0, wave := List.replicate 32 0, npat := .fine }) ∧
  (∀ (cfg : Cfg) (rom : Memory) (kinds : List Kind) (i : Nat),
    (State.construct cfg rom kinds).chs[i]? = kinds[i]?.map Chan.reset ∧
    (State.construct cfg rom kinds).faulted = false ∧ (State.construct cfg rom kinds).refused = false)
end

