-- ==== Sys2Proof/Laws/Arith.lean ====
section
/-! SUPPORT. The laws of the arithmetic: the phase advance, narrowing, and the pieces of `EXP2`. -/

namespace Sys2Proof.Machine

/-! Powers of two. -/

theorem pow2_eq_zpow (k : Int) : pow2 k = (2 : Rat) ^ k := by
  unfold pow2
  split
  · rename_i h
    obtain ⟨n, rfl⟩ := Int.eq_ofNat_of_zero_le h
    simp
  · rename_i h
    obtain ⟨n, hn⟩ := Int.eq_ofNat_of_zero_le (show 0 ≤ -k by omega)
    have : k = -(n : Int) := by omega
    subst this
    simp

theorem pow2_pos (k : Int) : 0 < pow2 k := by rw [pow2_eq_zpow]; positivity

theorem pow2_succ (k : Int) : pow2 (k + 1) = 2 * pow2 k := by
  rw [pow2_eq_zpow, pow2_eq_zpow, zpow_add_one₀ (by norm_num)]; ring

/-! Inside one octave. -/

@[simp] theorem exp2Within_zero (k : Int) : exp2Within k 0 = pow2 k := rfl

theorem exp2Within_le_succ (k : Int) (r : Nat) : exp2Within k r ≤ exp2Within k (r + 1) := le_max_left _ _

theorem exp2Within_mono (k : Int) {r r' : Nat} (h : r ≤ r') : exp2Within k r ≤ exp2Within k r' := by
  induction h with
  | refl => exact le_rfl
  | step _ ih => exact ih.trans (exp2Within_le_succ k _)

theorem exp2Within_ge (k : Int) (r : Nat) : pow2 k ≤ exp2Within k r := exp2Within_mono k (Nat.zero_le r)

theorem exp2Within_le (k : Int) (r : Nat) : exp2Within k r ≤ pow2 (k + 1) := by
  induction r with
  | zero => rw [exp2Within_zero, pow2_succ]; linarith [pow2_pos k]
  | succ r ih => exact max_le ih (min_le_right _ _)

/-! Narrowing. -/

theorem storePos_of_lt {p : Nat} (h : p < 2 ^ 32) : storePos p = BitVec.ofNat 32 p := if_pos h

theorem storePos_toNat {p : Nat} (h : p < 2 ^ 32) : (storePos p).toNat = p := by
  rw [storePos_of_lt h, BitVec.toNat_ofNat, Nat.mod_eq_of_lt h]

/-- `wrap32` changes nothing in the range of an `i32`. -/
theorem wrap32_of_range {v : Int} (h1 : -2 ^ 31 ≤ v) (h2 : v < 2 ^ 31) : wrap32 v = v := by
  unfold wrap32
  omega

theorem wrap32_range (v : Int) : -2 ^ 31 ≤ wrap32 v ∧ wrap32 v < 2 ^ 31 := by
  unfold wrap32
  omega

/-! The phase advance (R124). -/

/-- `ADV` splits the sum: the delta is its whole part, the fraction the rest. -/
theorem adv_split (frac : BitVec Config.F) (inc : Nat) :
    advDelta frac inc * 2 ^ Config.F + (advFrac frac inc).toNat = frac.toNat + inc := by
  simp only [advDelta, advFrac, BitVec.toNat_ofNat]
  exact Nat.div_add_mod' _ _

@[simp] theorem advFrac_toNat (frac : BitVec Config.F) (inc : Nat) :
    (advFrac frac inc).toNat = (frac.toNat + inc) % 2 ^ Config.F := rfl

/-- One sample per frame (R155): the index moves by 1. -/
theorem advDelta_one (frac : BitVec Config.F) : advDelta frac (2 ^ Config.F) = 1 := by
  have := frac.isLt
  unfold advDelta
  simp only [Config.F] at *
  omega

/-- One sample per frame (R155): the fraction stays. -/
theorem advFrac_one (frac : BitVec Config.F) : advFrac frac (2 ^ Config.F) = frac := by
  apply BitVec.eq_of_toNat_eq
  have := frac.isLt
  rw [advFrac_toNat]
  simp only [Config.F] at *
  omega

/-- The phase lies in `[0, 1)` (R30). -/
theorem phaseOf_range (frac : BitVec Config.F) : 0 ≤ phaseOf frac ∧ phaseOf frac < 1 := by
  have := frac.isLt
  refine ⟨div_nonneg (Nat.cast_nonneg _) (Nat.cast_nonneg _), ?_⟩
  unfold phaseOf
  rw [div_lt_one (by positivity)]
  exact_mod_cast this

/-- An increment of a frequency that is not negative (R122): the floor, which is then natural. -/
theorem phaseInc_eq {f d : Rat} (hf : 0 ≤ f) (hd : 0 < d) :
    (phaseInc f d : Int) = ⌊f * ((2 ^ Config.F : Nat) : Rat) / d⌋ := by
  have h : 0 ≤ ⌊f * ((2 ^ Config.F : Nat) : Rat) / d⌋ := by
    apply Int.floor_nonneg.mpr
    positivity
  unfold phaseInc
  exact Int.toNat_of_nonneg h

end Sys2Proof.Machine
end

