-- ==== Sys2Proof/Laws/Decode.lean ====
section
/-! SUPPORT. The laws of the command word's fields and of the operand readers: what each answers, once, both ways. -/

namespace Sys2Proof

/-! The operand readers. -/

/-- An unsigned value of a width reads as itself. -/
@[simp] theorem readU_toNat {w : Nat} (x : BitVec w) : readU w (x.toNat : Int) = some x := by
  have h : (x.toNat : Int) < 2 ^ w := by exact_mod_cast x.isLt
  simp [readU, h]

/-- A signed value of a width reads as itself. -/
@[simp] theorem readI_toInt {w : Nat} (x : BitVec w) : readI w x.toInt = some x := by
  have h1 := BitVec.le_toInt x
  have h2 := BitVec.toInt_lt (x := x)
  simp [readI, h1, h2]

/-- Everything an unsigned reader can answer. -/
theorem readU_eq {w : Nat} {x : Int} {v : BitVec w} (h : readU w x = some v) : (v.toNat : Int) = x := by
  unfold readU at h
  split at h
  · rename_i hx
    cases h
    simp only [BitVec.toNat_ofInt]
    push_cast
    rw [Int.emod_eq_of_lt hx.1 hx.2]
    omega
  · cases h

/-- Everything a signed reader can answer. -/
theorem readI_eq {w : Nat} (hw : 0 < w) {x : Int} {v : BitVec w} (h : readI w x = some v) : v.toInt = x := by
  unfold readI at h
  split at h
  · rename_i hx
    cases h
    exact BitVec.toInt_ofInt_eq_self hw hx.1 hx.2
  · cases h

@[simp] theorem readFlag_rawFlag (b : Bool) : readFlag (rawFlag b) = some b := by cases b <;> rfl

theorem readFlag_eq {x : Int} {b : Bool} (h : readFlag x = some b) : rawFlag b = x := by
  unfold readFlag at h
  split at h
  · cases h; simp [rawFlag, *]
  · split at h
    · cases h; simp [rawFlag, *]
    · cases h

@[simp] theorem readNpat_raw (p : NoisePat) : readNpat p.raw = some p := by cases p <;> rfl

theorem readNpat_eq {x : Int} {p : NoisePat} (h : readNpat x = some p) : p.raw = x := by
  unfold readNpat at h
  split at h
  · cases h; simp [NoisePat.raw, *]
  · split at h
    · cases h; simp [NoisePat.raw, *]
    · cases h

@[simp] theorem readNote_raw (x : NoteArg) : readNote x.raw = some x := by
  have h1 : readU 8 x.raw.key = some x.key := readU_toNat _
  have h2 : readU 8 x.raw.velocity = some x.velocity := readU_toNat _
  have h3 : readU 32 x.raw.duration = some x.duration := readU_toNat _
  rw [readNote, h1, h2, h3]

theorem readNote_eq {r : RawNote} {x : NoteArg} (h : readNote r = some x) : x.raw = r := by
  unfold readNote at h
  split at h
  · rename_i h1 h2 h3
    cases h
    simp only [NoteArg.raw, readU_eq h1, readU_eq h2, readU_eq h3]
  · cases h

@[simp] theorem readAdsr_raw (x : AdsrArg) : readAdsr x.raw = some x := by
  simp only [readAdsr, AdsrArg.raw, readU_toNat]

theorem readAdsr_eq {r : RawAdsr} {x : AdsrArg} (h : readAdsr r = some x) : x.raw = r := by
  unfold readAdsr at h
  split at h
  · rename_i h1 h2 h3 h4
    cases h
    simp only [AdsrArg.raw, readU_eq h1, readU_eq h2, readU_eq h3, readU_eq h4]
  · cases h

@[simp] theorem readStart_raw (x : StartArgs) : readStart x.raw = some x := by
  simp only [readStart, StartArgs.raw, readNote_raw, readAdsr_raw, readU_toNat, readI_toInt]

theorem readStart_eq {r : RawStart} {x : StartArgs} (h : readStart r = some x) : x.raw = r := by
  unfold readStart at h
  split at h
  · rename_i h1 h2 h3 h4 h5
    cases h
    simp only [StartArgs.raw, readNote_eq h1, readAdsr_eq h2, readU_eq h3, readI_eq (by decide) h4, readI_eq (by decide) h5]
  · cases h

theorem orRange_eq {x : Option Instr} {i : Instr} : orRange x = .ok i ↔ x = some i := by
  cases x <;> simp [orRange]

theorem orRange_error {x : Option Instr} {r : RefuseReason} (h : orRange x = .error r) : r = .operandRange := by
  cases x <;> simp_all [orRange]

/-! The command word. -/

theorem commandWord_toNat (op : Opcode) (ch : U8) :
    (commandWord op ch).toNat = op.code.toNat * 2 ^ 28 + ch.toNat * 2 ^ 20 := by
  have h1 := ch.isLt
  simp only [commandWord, BitVec.toNat_append]
  rw [← Nat.shiftLeft_add_eq_or_of_lt ch.isLt, ← Nat.shiftLeft_add_eq_or_of_lt (BitVec.isLt _)]
  simp only [Nat.shiftLeft_eq]
  change _ + 0 = _
  ring

@[simp] theorem fieldOp_commandWord (op : Opcode) (ch : U8) : fieldOp (commandWord op ch) = op.code := by
  apply BitVec.eq_of_toNat_eq
  have h1 := ch.isLt
  have h2 := op.code.isLt
  simp only [fieldOp, BitVec.extractLsb'_toNat, commandWord_toNat, Nat.shiftRight_eq_div_pow]
  omega

@[simp] theorem fieldCh_commandWord (op : Opcode) (ch : U8) : fieldCh (commandWord op ch) = ch := by
  apply BitVec.eq_of_toNat_eq
  have h1 := ch.isLt
  have h2 := op.code.isLt
  simp only [fieldCh, BitVec.extractLsb'_toNat, commandWord_toNat, Nat.shiftRight_eq_div_pow]
  omega

@[simp] theorem fieldRsv_commandWord (op : Opcode) (ch : U8) : fieldRsv (commandWord op ch) = 0 := by
  apply BitVec.eq_of_toNat_eq
  simp only [fieldRsv, BitVec.extractLsb'_toNat, commandWord_toNat, Nat.shiftRight_eq_div_pow]
  change _ = 0
  omega

/-- A word with `RSV = 0` is the word of its opcode and its channel. -/
theorem commandWord_fields {word : BitVec 32} {op : Opcode} (hop : fieldOp word = op.code) (hr : fieldRsv word = 0) :
    commandWord op (fieldCh word) = word := by
  apply BitVec.eq_of_toNat_eq
  have h1 := congrArg BitVec.toNat hop
  have h2 := congrArg BitVec.toNat hr
  have h3 := word.isLt
  rw [commandWord_toNat, ← h1]
  simp only [fieldOp, fieldCh, fieldRsv, BitVec.extractLsb'_toNat, Nat.shiftRight_eq_div_pow] at h2 ⊢
  change _ = 0 at h2
  omega

@[simp] theorem opcodeOf_code (op : Opcode) : opcodeOf op.code = some op := by cases op <;> rfl

/-- The opcode map, read both ways, is one map (R82). -/
theorem opcodeOf_eq {b : BitVec 4} {op : Opcode} (h : opcodeOf b = some op) : b = op.code := by
  revert b op
  decide

/-- The values of `OP` that spell nothing (R85). -/
theorem opcodeOf_none_iff (b : BitVec 4) : opcodeOf b = none ↔ b ∈ [0x0, 0xC, 0xD, 0xE, 0xF] := by
  revert b
  decide

end Sys2Proof
end

