-- ==== Sys2Proof/Laws/State.lean ====
section
/-! SUPPORT. One lemma per field per update of `State`, `Work` and the channel updates, so that no proof unfolds a record update. -/

namespace Sys2Proof.Machine

/-! `State.commit` writes the channels, the block and the output. -/

@[simp] theorem commit_cfg (s : State) (ch : Nat) (w : Work) :
    (s.commit ch w).cfg = s.cfg := rfl
@[simp] theorem commit_rom (s : State) (ch : Nat) (w : Work) :
    (s.commit ch w).rom = s.rom := rfl
@[simp] theorem commit_chs (s : State) (ch : Nat) (w : Work) :
    (s.commit ch w).chs = s.chs.set ch w.chan := rfl
@[simp] theorem commit_buf (s : State) (ch : Nat) (w : Work) :
    (s.commit ch w).buf = w.buf := rfl
@[simp] theorem commit_faulted (s : State) (ch : Nat) (w : Work) :
    (s.commit ch w).faulted = s.faulted := rfl
@[simp] theorem commit_refused (s : State) (ch : Nat) (w : Work) :
    (s.commit ch w).refused = s.refused := rfl
@[simp] theorem commit_cmds (s : State) (ch : Nat) (w : Work) :
    (s.commit ch w).cmds = s.cmds := rfl
@[simp] theorem commit_out (s : State) (ch : Nat) (w : Work) :
    (s.commit ch w).out = ⟨.ok, w.events, w.result⟩ := rfl

/-! `State.commitMix` likewise for `MIX_BLOCK`. -/

@[simp] theorem commitMix_cfg (s : State) (m : Mix) :
    (s.commitMix m).cfg = s.cfg := rfl
@[simp] theorem commitMix_rom (s : State) (m : Mix) :
    (s.commitMix m).rom = s.rom := rfl
@[simp] theorem commitMix_chs (s : State) (m : Mix) :
    (s.commitMix m).chs = m.chs := rfl
@[simp] theorem commitMix_buf (s : State) (m : Mix) :
    (s.commitMix m).buf = m.buf := rfl
@[simp] theorem commitMix_faulted (s : State) (m : Mix) :
    (s.commitMix m).faulted = s.faulted := rfl
@[simp] theorem commitMix_refused (s : State) (m : Mix) :
    (s.commitMix m).refused = s.refused := rfl
@[simp] theorem commitMix_cmds (s : State) (m : Mix) :
    (s.commitMix m).cmds = s.cmds := rfl
@[simp] theorem commitMix_out (s : State) (m : Mix) :
    (s.commitMix m).out = ⟨.ok, m.events, none⟩ := rfl

/-! Raising a fault writes the mark and the output (R320). -/

@[simp] theorem raiseFault_cfg (s : State) (r : FaultRecord) :
    (raiseFault s r).cfg = s.cfg := rfl
@[simp] theorem raiseFault_rom (s : State) (r : FaultRecord) :
    (raiseFault s r).rom = s.rom := rfl
@[simp] theorem raiseFault_chs (s : State) (r : FaultRecord) :
    (raiseFault s r).chs = s.chs := rfl
@[simp] theorem raiseFault_buf (s : State) (r : FaultRecord) :
    (raiseFault s r).buf = s.buf := rfl
@[simp] theorem raiseFault_faulted (s : State) (r : FaultRecord) :
    (raiseFault s r).faulted = true := rfl
@[simp] theorem raiseFault_refused (s : State) (r : FaultRecord) :
    (raiseFault s r).refused = s.refused := rfl
@[simp] theorem raiseFault_cmds (s : State) (r : FaultRecord) :
    (raiseFault s r).cmds = s.cmds := rfl
@[simp] theorem raiseFault_out (s : State) (r : FaultRecord) :
    (raiseFault s r).out = ⟨.fault r, s.out.events, none⟩ := rfl

/-! Refusing writes the mark and the output (R321). -/

@[simp] theorem refuseCommand_cfg (s : State) (r : RefuseReason) :
    (refuseCommand s r).cfg = s.cfg := rfl
@[simp] theorem refuseCommand_rom (s : State) (r : RefuseReason) :
    (refuseCommand s r).rom = s.rom := rfl
@[simp] theorem refuseCommand_chs (s : State) (r : RefuseReason) :
    (refuseCommand s r).chs = s.chs := rfl
@[simp] theorem refuseCommand_buf (s : State) (r : RefuseReason) :
    (refuseCommand s r).buf = s.buf := rfl
@[simp] theorem refuseCommand_faulted (s : State) (r : RefuseReason) :
    (refuseCommand s r).faulted = s.faulted := rfl
@[simp] theorem refuseCommand_refused (s : State) (r : RefuseReason) :
    (refuseCommand s r).refused = true := rfl
@[simp] theorem refuseCommand_cmds (s : State) (r : RefuseReason) :
    (refuseCommand s r).cmds = s.cmds := rfl
@[simp] theorem refuseCommand_out (s : State) (r : RefuseReason) :
    (refuseCommand s r).out = ⟨.refused r, [], none⟩ := rfl

/-! Placing a word writes the stream. -/

@[simp] theorem placeWord_cfg (s : State) (w : Nat) :
    (placeWord s w).cfg = s.cfg := rfl
@[simp] theorem placeWord_rom (s : State) (w : Nat) :
    (placeWord s w).rom = s.rom := rfl
@[simp] theorem placeWord_chs (s : State) (w : Nat) :
    (placeWord s w).chs = s.chs := rfl
@[simp] theorem placeWord_buf (s : State) (w : Nat) :
    (placeWord s w).buf = s.buf := rfl
@[simp] theorem placeWord_faulted (s : State) (w : Nat) :
    (placeWord s w).faulted = s.faulted := rfl
@[simp] theorem placeWord_refused (s : State) (w : Nat) :
    (placeWord s w).refused = s.refused := rfl
@[simp] theorem placeWord_cmds (s : State) (w : Nat) :
    (placeWord s w).cmds = tableCommand w :: s.cmds := rfl
@[simp] theorem placeWord_out (s : State) (w : Nat) :
    (placeWord s w).out = s.out := rfl

/-! Construction (R350). -/

@[simp] theorem construct_cfg (cfg : Cfg) (rom : Memory) (kinds : List Kind) :
    (State.construct cfg rom kinds).cfg = cfg := rfl
@[simp] theorem construct_rom (cfg : Cfg) (rom : Memory) (kinds : List Kind) :
    (State.construct cfg rom kinds).rom = rom := rfl
@[simp] theorem construct_chs (cfg : Cfg) (rom : Memory) (kinds : List Kind) :
    (State.construct cfg rom kinds).chs = kinds.map Chan.reset := rfl
@[simp] theorem construct_buf (cfg : Cfg) (rom : Memory) (kinds : List Kind) :
    (State.construct cfg rom kinds).buf = List.replicate (2 * cfg.n) 0 := rfl
@[simp] theorem construct_faulted (cfg : Cfg) (rom : Memory) (kinds : List Kind) :
    (State.construct cfg rom kinds).faulted = false := rfl
@[simp] theorem construct_refused (cfg : Cfg) (rom : Memory) (kinds : List Kind) :
    (State.construct cfg rom kinds).refused = false := rfl
@[simp] theorem construct_cmds (cfg : Cfg) (rom : Memory) (kinds : List Kind) :
    (State.construct cfg rom kinds).cmds = [] := rfl
@[simp] theorem construct_out (cfg : Cfg) (rom : Memory) (kinds : List Kind) :
    (State.construct cfg rom kinds).out = Output.initial := rfl

/-! `Work`. -/

@[simp] theorem start_chan (c : Chan) (b : List Rat) :
    (Work.start c b).chan = c := rfl
@[simp] theorem start_buf (c : Chan) (b : List Rat) :
    (Work.start c b).buf = b := rfl
@[simp] theorem start_events (c : Chan) (b : List Rat) :
    (Work.start c b).events = [] := rfl
@[simp] theorem start_result (c : Chan) (b : List Rat) :
    (Work.start c b).result = none := rfl

@[simp] theorem onChan_chan (w : Work) (f : Chan → Chan) :
    (w.onChan f).chan = f w.chan := rfl
@[simp] theorem onChan_buf (w : Work) (f : Chan → Chan) :
    (w.onChan f).buf = w.buf := rfl
@[simp] theorem onChan_events (w : Work) (f : Chan → Chan) :
    (w.onChan f).events = w.events := rfl
@[simp] theorem onChan_result (w : Work) (f : Chan → Chan) :
    (w.onChan f).result = w.result := rfl

@[simp] theorem answer_chan (w : Work) (b : Bool) :
    (w.answer b).chan = w.chan := rfl
@[simp] theorem answer_buf (w : Work) (b : Bool) :
    (w.answer b).buf = w.buf := rfl
@[simp] theorem answer_events (w : Work) (b : Bool) :
    (w.answer b).events = w.events := rfl
@[simp] theorem answer_result (w : Work) (b : Bool) :
    (w.answer b).result = some b := rfl

@[simp] theorem stop_chan (i : Nat) (w : Work) :
    (w.stop i).chan = { w.chan with state := .dead, owner := none } := rfl
@[simp] theorem stop_buf (i : Nat) (w : Work) :
    (w.stop i).buf = w.buf := rfl
@[simp] theorem stop_events (i : Nat) (w : Work) :
    (w.stop i).events = w.events ++ detachEvents i w.chan.owner := rfl
@[simp] theorem stop_result (i : Nat) (w : Work) :
    (w.stop i).result = w.result := rfl

@[simp] theorem attach_chan (i o : Nat) (note : NoteArg) (w : Work) :
    (w.attach i o note).chan = { w.chan with
      state := .initializing
      owner := some o
      gen := w.chan.gen + 1
      note := { w.chan.note with key := note.key, velocity := note.velocity, duration := note.duration } } := rfl
@[simp] theorem attach_buf (i o : Nat) (note : NoteArg) (w : Work) :
    (w.attach i o note).buf = w.buf := rfl
@[simp] theorem attach_events (i o : Nat) (note : NoteArg) (w : Work) :
    (w.attach i o note).events = w.events ++ detachEvents i w.chan.owner ++ [.attach o i] := rfl
@[simp] theorem attach_result (i o : Nat) (note : NoteArg) (w : Work) :
    (w.attach i o note).result = w.result := rfl

end Sys2Proof.Machine
end

