-- ==== Sys2Proof/Laws/Envelope.lean ====
section
/-! SUPPORT. What one envelope step can do, of either family, said once: `envStep_end`. -/

namespace Sys2Proof.Machine

/-- The registers an envelope step may write while the channel goes on. -/
def Chan.withEnv (st : EnvState) (v k : U8) (nx : EnvState) (c : Chan) : Chan :=
  { c with state := st, vel := v, step := k, next := nx }

/-- How an envelope step ends: the channel goes on, its state code no lower and not newly `Dead`, or it stops. -/
inductive EnvEnd (i : Nat) (w w' : Work) : Prop where
  | goes (st : EnvState) (v k : U8) (nx : EnvState) (eq : w' = w.onChan (Chan.withEnv st v k nx))
      (dead : st = .dead ↔ w.chan.state = .dead) (mono : stateCode w.chan.state ≤ stateCode st)
  | stops (v k : U8) (nx : EnvState) (eq : w' = (w.onChan (Chan.withEnv w.chan.state v k nx)).stop i)

/-- A step that changes nothing. -/
theorem EnvEnd.refl (i : Nat) (w : Work) : EnvEnd i w w :=
  .goes w.chan.state w.chan.vel w.chan.step w.chan.next rfl Iff.rfl le_rfl

/-- A step after the count of a frame. -/
theorem EnvEnd.of_count {i : Nat} {w w' : Work} (h : EnvEnd i (w.onChan psgCount) w') : EnvEnd i w w' := by
  cases h with
  | goes st v k nx eq dead mono => exact .goes st v k nx eq dead mono
  | stops v k nx eq => exact .stops v k nx eq

theorem relEntry_end (i : Nat) (w : Work) : EnvEnd i w (relEntry i w) := by
  unfold relEntry
  split
  · exact .stops 0 w.chan.step w.chan.next rfl
  · by_cases h : (w.chan.vel.toNat : Int) - 1 ≤ 0
    · exact .goes w.chan.state 0 0 .dying (by simp only [Work.onChan, if_pos h]; rfl) Iff.rfl le_rfl
    · exact .goes w.chan.state (w.chan.vel - 1) 0 w.chan.next (by simp only [Work.onChan, if_neg h]; rfl) Iff.rfl le_rfl

theorem enterReleasing_end (i : Nat) (w : Work) (hd : w.chan.state ≠ .dead)
    (hc : stateCode w.chan.state ≤ stateCode .releasing) : EnvEnd i w (enterReleasing i w) := by
  unfold enterReleasing
  cases relEntry_end i (w.onChan fun c => { c with state := .releasing }) with
  | goes st v k nx eq dead mono =>
    refine .goes st v k nx eq ?_ (hc.trans mono)
    constructor
    · intro h; exact absurd (dead.mp h) (by simp [Work.onChan])
    · intro h; exact absurd h hd
  | stops v k nx eq => exact .stops v k nx eq

theorem decEntry_end (i : Nat) (w : Work) : EnvEnd i w (w.onChan decEntry) := by
  by_cases h : (w.chan.vel.toNat : Int) - 1 ≤ w.chan.sus.toNat
  · exact .goes w.chan.state w.chan.sus 0 .playing (by simp only [Work.onChan, decEntry, if_pos h]; rfl) Iff.rfl le_rfl
  · exact .goes w.chan.state (w.chan.vel - 1) 0 w.chan.next (by simp only [Work.onChan, decEntry, if_neg h]; rfl) Iff.rfl le_rfl

theorem enterDecaying_end (i : Nat) (w : Work) (hs : w.chan.state = .rising) : EnvEnd i w (w.onChan enterDecaying) := by
  by_cases h : (w.chan.vel.toNat : Int) - 1 ≤ w.chan.sus.toNat
  · exact .goes .decaying w.chan.sus 0 .playing (by simp only [Work.onChan, enterDecaying, decEntry, if_pos h]; rfl)
      (by simp [hs]) (by simp [hs, stateCode])
  · exact .goes .decaying (w.chan.vel - 1) 0 w.chan.next
      (by simp only [Work.onChan, enterDecaying, decEntry, if_neg h]; rfl) (by simp [hs]) (by simp [hs, stateCode])

theorem enterPlaying_end (i : Nat) (w : Work) (hd : w.chan.state ≠ .dead)
    (hc : stateCode w.chan.state ≤ stateCode .playing) : EnvEnd i w (w.onChan enterPlaying) :=
  .goes .playing w.chan.vel 0 w.chan.next rfl (by simp [hd]) hc

theorem psgClimb_end (i : Nat) (w : Work) : EnvEnd i w (w.onChan psgClimb) := by
  by_cases h : w.chan.peak.toNat ≤ w.chan.vel.toNat + 1
  · exact .goes w.chan.state w.chan.peak 0 (if w.chan.D = 0 ∨ w.chan.peak = w.chan.sus then .playing else .decaying)
      (by simp only [Work.onChan, psgClimb, if_pos h]; rfl) Iff.rfl le_rfl
  · exact .goes w.chan.state (w.chan.vel + 1) 0 w.chan.next
      (by simp only [Work.onChan, psgClimb, if_neg h]; rfl) Iff.rfl le_rfl

/-- What `PSG_ENV_STEP` can do (R214 to R223). -/
theorem psgEnvStep_end (cfg : Cfg) (i : Nat) (w : Work) : EnvEnd i w (psgEnvStep cfg i w) := by
  unfold psgEnvStep
  cases hs : w.chan.state with
  | initializing =>
    have key : ∀ st v nx, stateCode .initializing ≤ stateCode st → st ≠ .dead →
        psgInitializing cfg w.chan = Chan.withEnv st v 0 nx w.chan → EnvEnd i w (w.onChan (psgInitializing cfg)) := by
      intro st v nx h1 h2 h3
      exact .goes st v 0 nx (by simp only [Work.onChan, h3]) (by simp [hs, h2]) (by simp [hs, h1])
    unfold psgInitializing at key
    dsimp only at key
    split at key
    · exact key .playing w.chan.sus _ (by decide) (by decide) rfl
    · split at key
      · exact key .decaying _ _ (by decide) (by decide) rfl
      · split at key
        · exact key .playing w.chan.sus _ (by decide) (by decide) rfl
        · exact key .rising 1 _ (by decide) (by decide) rfl
  | rising =>
    apply EnvEnd.of_count
    have hs' : (w.onChan psgCount).chan.state = .rising := hs
    simp only [psgRising]
    split
    · split
      · exact enterDecaying_end i _ hs'
      · exact enterPlaying_end i _ (by rw [hs']; decide) (by rw [hs']; decide)
      · exact enterReleasing_end i _ (by rw [hs']; decide) (by rw [hs']; decide)
      · exact psgClimb_end i _
    · exact .refl i _
  | decaying =>
    apply EnvEnd.of_count
    have hs' : (w.onChan psgCount).chan.state = .decaying := hs
    simp only [psgDecaying]
    split
    · split
      · exact enterPlaying_end i _ (by rw [hs']; decide) (by rw [hs']; decide)
      · exact enterReleasing_end i _ (by rw [hs']; decide) (by rw [hs']; decide)
      · exact decEntry_end i _
    · exact .refl i _
  | playing =>
    apply EnvEnd.of_count
    have hs' : (w.onChan psgCount).chan.state = .playing := hs
    simp only [psgPlaying]
    split
    · exact enterReleasing_end i _ (by rw [hs']; decide) (by rw [hs']; decide)
    · exact .goes w.chan.state w.chan.vel 0 w.chan.next rfl Iff.rfl le_rfl
  | releasing =>
    apply EnvEnd.of_count
    simp only [psgReleasing]
    split
    · split
      · exact .stops w.chan.vel _ w.chan.next rfl
      · exact relEntry_end i _
    · exact .refl i _
  | dying => exact .refl i w
  | dead => exact .refl i w

/-- What `PCM8_ENV_STEP` can do (R146 to R152). -/
theorem pcm8EnvStep_end (i : Nat) (w : Work) : EnvEnd i w (pcm8EnvStep i w) := by
  unfold pcm8EnvStep
  cases hs : w.chan.state with
  | initializing =>
    exact .goes .rising w.chan.A w.chan.step w.chan.next rfl (by simp [hs]) (by simp [hs, stateCode])
  | rising =>
    by_cases h : 255 ≤ w.chan.vel.toNat + w.chan.A.toNat
    · exact .goes .decaying 255 w.chan.step w.chan.next (by simp only [Work.onChan, pcm8Rising, if_pos h]; rfl)
        (by simp [hs]) (by simp [hs, stateCode])
    · exact .goes w.chan.state (BitVec.ofNat 8 (w.chan.vel.toNat + w.chan.A.toNat)) w.chan.step w.chan.next
        (by simp only [Work.onChan, pcm8Rising, if_neg h]; rfl) Iff.rfl le_rfl
  | decaying =>
    by_cases h : w.chan.vel.toNat * w.chan.D.toNat / 2 ^ 8 ≤ w.chan.S.toNat
    · exact .goes .playing w.chan.S w.chan.step w.chan.next (by simp only [Work.onChan, pcm8Decaying, if_pos h]; rfl)
        (by simp [hs]) (by simp [hs, stateCode])
    · exact .goes w.chan.state (BitVec.ofNat 8 (w.chan.vel.toNat * w.chan.D.toNat / 2 ^ 8)) w.chan.step w.chan.next
        (by simp only [Work.onChan, pcm8Decaying, if_neg h]; rfl) Iff.rfl le_rfl
  | playing => exact .refl i w
  | releasing =>
    by_cases h : w.chan.vel.toNat * w.chan.R.toNat / 2 ^ 8 = 0
    · exact .goes .dying 0 w.chan.step w.chan.next (by simp only [Work.onChan, pcm8Releasing, if_pos h]; rfl)
        (by simp [hs]) (by simp [hs, stateCode])
    · exact .goes w.chan.state (BitVec.ofNat 8 (w.chan.vel.toNat * w.chan.R.toNat / 2 ^ 8)) w.chan.step w.chan.next
        (by simp only [Work.onChan, pcm8Releasing, if_neg h]; rfl) Iff.rfl le_rfl
  | dying => exact .stops w.chan.vel w.chan.step w.chan.next rfl
  | dead => exact .refl i w

/-- What the envelope step of `PROCESS` can do (R119). -/
theorem envStep_end (cfg : Cfg) (i : Nat) (w : Work) : EnvEnd i w (envStep cfg i w) := by
  unfold envStep
  split
  · exact pcm8EnvStep_end i w
  · exact psgEnvStep_end cfg i w

end Sys2Proof.Machine
end

