-- ==== Sys2Proof/Laws/Lifecycle.lean ====
section
/-! SUPPORT. The laws of the lifecycle rules: each case of `RELEASE` and `TICK_NOTE`, once. -/

namespace Sys2Proof.Machine

/-- `late(c)` by its states (R23). -/
theorem late_iff (c : Chan) : late c = true ↔ c.state = .releasing ∨ c.state = .dying ∨ c.state = .dead := by
  cases h : c.state <;> simp [late, h, stateCode]

theorem late_eq_false {c : Chan} : late c = false ↔ ¬ (c.state = .releasing ∨ c.state = .dying ∨ c.state = .dead) := by
  rw [← late_iff, Bool.not_eq_true]

/-- A subtraction of 1 that leaves 0 had 1. -/
theorem duration_sub_one (d : U32) : d - 1 ≠ 0 ↔ d ≠ 1 := by
  rw [not_iff_not]
  constructor <;> intro h <;> bv_omega

/-- `RELEASE` of a late channel (R115). -/
theorem ruleRelease_late {i : Nat} {w : Work} (h : late w.chan = true) : ruleRelease i w = .done w := if_pos h

/-- `RELEASE` of a PCM8 channel (R153). -/
theorem ruleRelease_pcm8 {i : Nat} {w : Work} (h : late w.chan = false) (hk : w.chan.kind = .pcm8) :
    ruleRelease i w = .done (pcm8Release w) := by
  unfold ruleRelease
  rw [if_neg (by simp [h]), if_pos hk]

/-- `RELEASE` of a PSG channel (R224). -/
theorem ruleRelease_psg {i : Nat} {w : Work} (h : late w.chan = false) (hk : w.chan.kind ≠ .pcm8) :
    ruleRelease i w = .done (psgRelease i w) := by
  unfold ruleRelease
  rw [if_neg (by simp [h]), if_neg hk]

/-- `TICK_NOTE` of a late channel (R116). -/
theorem ruleTickNote_late {i : Nat} {w : Work} (h : late w.chan = true) : ruleTickNote i w = .done (w.answer false) :=
  if_pos h

/-- `TICK_NOTE` of an endless note (R116). -/
theorem ruleTickNote_endless {i : Nat} {w : Work} (h : late w.chan = false) (h0 : w.chan.note.duration = 0) :
    ruleTickNote i w = .done (w.answer true) := by
  unfold ruleTickNote
  rw [if_neg (by simp [h]), if_pos h0]

/-- `TICK_NOTE` of a note that goes on (R116). -/
theorem ruleTickNote_counts {i : Nat} {w : Work} (h : late w.chan = false) (h0 : w.chan.note.duration ≠ 0)
    (h1 : w.chan.note.duration ≠ 1) :
    ruleTickNote i w = .done ((w.onChan (withDuration (w.chan.note.duration - 1))).answer true) := by
  unfold ruleTickNote
  rw [if_neg (by simp [h]), if_neg h0]
  exact if_pos ((duration_sub_one _).mpr h1)

/-- `TICK_NOTE` of a note at its end (R116, R117). -/
theorem ruleTickNote_ends {i : Nat} {w : Work} (h : late w.chan = false) (h1 : w.chan.note.duration = 1) :
    ruleTickNote i w = .done ((expire i (w.onChan (withDuration 0))).answer false) := by
  unfold ruleTickNote
  rw [if_neg (by simp [h]), if_neg (by simp [h1])]
  have : w.chan.note.duration - 1 = 0 := by rw [h1]; simp
  have e : (w.onChan fun c => withDuration (c.note.duration - 1) c) = w.onChan (withDuration 0) := by
    simp only [Work.onChan, this]
  rw [e]
  exact if_neg (by simp [Work.onChan, withDuration])

end Sys2Proof.Machine
end

