-- ==== Sys2Proof/Laws/Memory.lean ====
section
/-! SUPPORT. The laws of ROM: a read after a load, the canonical form kept, and what `MemRead` can answer. -/

namespace Sys2Proof.Machine

/-- The form from a lower bound on holds from any lower one. -/
theorem cellsWf_mono {size lo lo' : Nat} {cells : List Host.Cell} (h : lo' ≤ lo) (hw : cellsWf size lo cells = true) :
    cellsWf size lo' cells = true := by
  cases cells with
  | nil => rfl
  | cons kb rest =>
    obtain ⟨k, b⟩ := kb
    simp only [cellsWf, Bool.and_eq_true, decide_eq_true_eq] at hw ⊢
    exact ⟨⟨⟨by omega, hw.1.1.2⟩, hw.1.2⟩, hw.2⟩

/-- Putting a byte below `size` keeps the form. -/
theorem putByte_wf {size : Nat} {cells : List Host.Cell} {lo a : Nat} {b : U8} (hlo : lo ≤ a) (ha : a < size)
    (hw : cellsWf size lo cells = true) : cellsWf size lo (putByte cells a b) = true := by
  induction cells generalizing lo with
  | nil =>
    simp only [putByte]
    split
    · rfl
    · rename_i hb
      simp only [cellsWf, Bool.and_eq_true, decide_eq_true_eq]
      exact ⟨⟨⟨hlo, ha⟩, hb⟩, trivial⟩
  | cons kv rest ih =>
    obtain ⟨k, v⟩ := kv
    simp only [cellsWf, Bool.and_eq_true, decide_eq_true_eq] at hw
    obtain ⟨⟨⟨h1, h2⟩, h3⟩, h4⟩ := hw
    simp only [putByte]
    split
    · split
      · simp only [cellsWf, Bool.and_eq_true, decide_eq_true_eq]
        exact ⟨⟨⟨h1, h2⟩, h3⟩, h4⟩
      · rename_i hak hb
        simp only [cellsWf, Bool.and_eq_true, decide_eq_true_eq]
        exact ⟨⟨⟨hlo, ha⟩, hb⟩, ⟨⟨⟨by omega, h2⟩, h3⟩, h4⟩⟩
    · split
      · split
        · exact cellsWf_mono (by omega) h4
        · rename_i hb
          simp only [cellsWf, Bool.and_eq_true, decide_eq_true_eq]
          exact ⟨⟨⟨h1, h2⟩, hb⟩, h4⟩
      · simp only [cellsWf, Bool.and_eq_true, decide_eq_true_eq]
        exact ⟨⟨⟨h1, h2⟩, h3⟩, ih (by omega) h4⟩

/-- Below the lower bound of a canonical list nothing is listed. -/
theorem byteAt_below {size lo : Nat} {cells : List Host.Cell} {a : Nat} (ha : a < lo) (hw : cellsWf size lo cells = true) :
    byteAt cells a = 0 := by
  induction cells generalizing lo with
  | nil => rfl
  | cons kv rest ih =>
    obtain ⟨k, v⟩ := kv
    simp only [cellsWf, Bool.and_eq_true, decide_eq_true_eq] at hw
    simp only [byteAt]
    rw [if_neg (by omega)]
    exact ih (by omega) hw.2

/-- Reading after a put: the byte put at its address, the old byte elsewhere. -/
theorem byteAt_putByte {size lo : Nat} {cells : List Host.Cell} (a : Nat) (b : U8) (x : Nat)
    (hw : cellsWf size lo cells = true) : byteAt (putByte cells a b) x = if x = a then b else byteAt cells x := by
  induction cells generalizing lo with
  | nil =>
    simp only [putByte]
    split
    · rename_i hb
      simp only [byteAt, hb, ite_self]
    · by_cases hx : x = a
      · subst hx; simp only [byteAt, if_true]
      · simp only [byteAt, hx, if_false]; rw [if_neg (fun h => hx h.symm)]
  | cons kv rest ih =>
    obtain ⟨k, v⟩ := kv
    simp only [cellsWf, Bool.and_eq_true, decide_eq_true_eq] at hw
    have h4 := hw.2
    simp only [putByte]
    split
    · split
      · rename_i hak hb
        by_cases hx : x = a
        · subst hx
          simp only [byteAt, if_true, hb]
          rw [if_neg (by omega)]
          exact byteAt_below (by omega) h4
        · simp [hx]
      · by_cases hx : x = a
        · subst hx; simp [byteAt]
        · simp only [byteAt, hx, if_false]; rw [if_neg (fun h => hx h.symm)]
    · split
      · rename_i hak hka
        subst hka
        split
        · rename_i hb
          by_cases hx : x = a
          · subst hx; simp only [if_true, hb]; exact byteAt_below (by omega) h4
          · simp only [byteAt, hx, if_false]; rw [if_neg (fun h => hx h.symm)]
        · by_cases hx : x = a
          · subst hx; simp [byteAt]
          · simp only [byteAt, hx, if_false]; rw [if_neg (fun h => hx h.symm), if_neg (fun h => hx h.symm)]
      · rename_i hak hka
        simp only [byteAt]
        by_cases hk : k = x
        · subst hk; rw [if_pos rfl, if_neg (fun h => hka h.symm), if_pos rfl]
        · rw [if_neg hk, if_neg hk]; exact ih h4

/-- A load keeps the canonical form. -/
theorem load_wf {m : Memory} (a : Nat) (b : U8) (hw : m.wf = true) : (m.load a b).wf = true := by
  unfold Memory.load
  split
  · exact putByte_wf (Nat.zero_le _) ‹_› hw
  · exact hw

@[simp] theorem load_size (m : Memory) (a : Nat) (b : U8) : (m.load a b).size = m.size := by
  unfold Memory.load; split <;> rfl

/-- Reading after a load (a load outside ROM does nothing). -/
theorem load_byte {m : Memory} (a : Nat) (b : U8) (x : Nat) (hw : m.wf = true) :
    (m.load a b).byte x = if x = a ∧ a < m.size then b else m.byte x := by
  unfold Memory.load
  split
  · rename_i h
    simp only [Memory.byte, h, and_true]
    exact byteAt_putByte a b x hw
  · rename_i h; simp [h]

/-- Loading a run of bytes keeps the canonical form. -/
theorem loadBytes_wf {m : Memory} (a : Nat) (bs : List U8) (hw : m.wf = true) : (m.loadBytes a bs).wf = true := by
  induction bs generalizing m a with
  | nil => exact hw
  | cons b rest ih => exact ih _ (load_wf a b hw)

@[simp] theorem loadBytes_size (m : Memory) (a : Nat) (bs : List U8) : (m.loadBytes a bs).size = m.size := by
  induction bs generalizing m a with
  | nil => rfl
  | cons b rest ih => simp [Memory.loadBytes, ih]

/-- The reset ROM is canonical. -/
theorem reset_rom_wf : State.reset.rom.wf = true := rfl

/-- `MemRead` inside ROM (R62). -/
theorem memRead_ok {m : Memory} {a n : Nat} (h : a + n ≤ m.size) :
    memRead m a n = .ok ((List.range n).map fun k => m.byte (a + k)) := if_pos h

/-- `MemRead` that runs out of ROM (R62, R320). -/
theorem memRead_error {m : Memory} {a n : Nat} (h : m.size < a + n) : memRead m a n = .error (max a m.size) :=
  if_neg (by omega)

/-- All that `MemRead` can answer: the bytes, as many as asked for, or an address that is not in ROM. -/
theorem memRead_cases (m : Memory) (a n : Nat) :
    (a + n ≤ m.size ∧ memRead m a n = .ok ((List.range n).map fun k => m.byte (a + k))) ∨
    (m.size < a + n ∧ memRead m a n = .error (max a m.size)) := by
  by_cases h : a + n ≤ m.size
  · exact .inl ⟨h, memRead_ok h⟩
  · exact .inr ⟨by omega, memRead_error (by omega)⟩

/-- An address that a failed `MemRead` reports lies outside ROM. -/
theorem memRead_error_addr {m : Memory} {a n x : Nat} (h : memRead m a n = .error x) : m.size ≤ x := by
  rcases memRead_cases m a n with ⟨_, h'⟩ | ⟨_, h'⟩ <;> rw [h'] at h
  · cases h
  · cases h; exact Nat.le_max_right _ _

/-- The same for a header. -/
theorem readHeader_error_addr {m : Memory} {a x : Nat} (h : readHeader m a = .error x) : m.size ≤ x := by
  unfold readHeader at h
  cases hr : memRead m a Params.headerSize with
  | error y => rw [hr] at h; cases h; exact memRead_error_addr hr
  | ok bs => rw [hr] at h; cases h

/-- The same for synthesis parameters. -/
theorem readSynthParams_error_addr {m : Memory} {a x : Nat} (h : readSynthParams m a = .error x) : m.size ≤ x := by
  unfold readSynthParams at h
  cases hr : memRead m a 6 with
  | error y => rw [hr] at h; cases h; exact memRead_error_addr hr
  | ok bs => rw [hr] at h; cases h

/-- The same for the codec, whatever it is (log 8). -/
theorem decomp_error_addr {m : Memory} {a n x : Nat} (h : decomp m a n = .error x) : m.size ≤ x := by
  unfold decomp at h
  split at h
  · cases h; exact Nat.le_max_right _ _
  · cases h

end Sys2Proof.Machine
end

