-- ==== Sys2Proof/Laws/Ops.lean ====
section
/-! SUPPORT. The laws of the shared operations: the output block, the frame loop, and a one-channel command as a whole. Later proofs cite
these and do not unfold the operations. -/

namespace Sys2Proof.Machine

/-! The output block (R64, R65). -/

@[simp] theorem bufAcc_length (buf : List Rat) (j : Nat) (v : Rat) : (bufAcc buf j v).length = buf.length := by
  simp [bufAcc]

@[simp] theorem accFrame_length (buf : List Rat) (i : Nat) (l r : Rat) : (accFrame buf i l r).length = buf.length := by
  simp [accFrame]

/-- `BufAcc` as a whole: element `j` alone grows by `v`. -/
theorem bufAcc_getElem? (buf : List Rat) (j : Nat) (v : Rat) (k : Nat) :
    (bufAcc buf j v)[k]? = if j = k then buf[k]?.map (· + v) else buf[k]? := by
  simp only [bufAcc, List.getElem?_modify]
  split <;> simp_all

/-- One frame as a whole: elements `2i` and `2i + 1` alone grow. -/
theorem accFrame_getElem? (buf : List Rat) (i : Nat) (l r : Rat) (k : Nat) :
    (accFrame buf i l r)[k]? =
      if k = 2 * i then buf[k]?.map (· + l) else if k = 2 * i + 1 then buf[k]?.map (· + r) else buf[k]? := by
  simp only [accFrame, bufAcc_getElem?]
  by_cases h1 : k = 2 * i
  · subst h1; simp
  · by_cases h2 : k = 2 * i + 1
    · subst h2; simp
    · simp [h1, h2, Ne.symm h1, Ne.symm h2]

@[simp] theorem zeroBlock_length (n : Nat) : (zeroBlock n).length = 2 * n := by simp [zeroBlock]

/-! Blocks with samples added. -/

@[simp] theorem addFrames_length (gL gR : Rat) (s : Nat → Rat) (m : Nat) (buf : List Rat) :
    (addFrames gL gR s m buf).length = buf.length := by simp [addFrames]

@[simp] theorem addFrames_zero (gL gR : Rat) (s : Nat → Rat) (buf : List Rat) : addFrames gL gR s 0 buf = buf := by
  simp [addFrames, List.mapIdx_eq_iff]

/-- Each element of a block with samples added. -/
theorem addFrames_getElem? (gL gR : Rat) (s : Nat → Rat) (m : Nat) (buf : List Rat) (j : Nat) :
    (addFrames gL gR s m buf)[j]? =
      buf[j]?.map fun x => if j < 2 * m then x + s (j / 2) * (if j % 2 = 0 then gL else gR) else x := by
  simp [addFrames, List.getElem?_mapIdx]

/-- The next frame added to the frames so far. -/
theorem accFrame_addFrames (gL gR : Rat) (s : Nat → Rat) (m : Nat) (buf : List Rat) :
    accFrame (addFrames gL gR s m buf) m (s m * gL) (s m * gR) = addFrames gL gR s (m + 1) buf := by
  apply List.ext_getElem?
  intro j
  rw [accFrame_getElem?, addFrames_getElem?, addFrames_getElem?]
  cases buf[j]? with
  | none => simp
  | some x =>
    by_cases h1 : j = 2 * m
    · subst h1
      have e1 : 2 * m / 2 = m := by omega
      have e2 : 2 * m % 2 = 0 := by omega
      simp [e1, e2]
    · by_cases h2 : j = 2 * m + 1
      · subst h2
        have e1 : (2 * m + 1) / 2 = m := by omega
        have e2 : (2 * m + 1) % 2 = 1 := by omega
        simp [e1, e2, show 2 * m + 1 < 2 * (m + 1) by omega]
      · by_cases h3 : j < 2 * m
        · simp [h1, h2, h3, show j < 2 * (m + 1) by omega]
        · simp [h1, h2, h3, show ¬ j < 2 * (m + 1) by omega]

/-! The frame loop (R65, R160). -/

/-- Frames that all go on: the channel runs through `cs`, and the samples `s` are added. -/
theorem frames_go {ch : Nat} {gL gR : Rat} {tick : Chan → FrameOut} (cs : Nat → Chan) (s : Nat → Rat) (b : List Rat)
    (k f : Nat) (w : Work) (h : ∀ j, j < k → tick (cs (f + j)) = .go (cs (f + j + 1)) (s (f + j))) :
    frames ch gL gR tick k f { w with chan := cs f, buf := addFrames gL gR s f b } =
      .done { w with chan := cs (f + k), buf := addFrames gL gR s (f + k) b } := by
  induction k generalizing f with
  | zero => rfl
  | succ k ih =>
    have h0 : tick (cs f) = .go (cs (f + 1)) (s f) := h 0 (by omega)
    have hs := ih (f + 1) (fun j hj => by
      have := h (j + 1) (by omega)
      rw [show f + (j + 1) = f + 1 + j by omega] at this
      exact this)
    simp only [frames, h0, accFrame_addFrames]
    rw [hs, show f + 1 + k = f + (k + 1) by omega]

/-- Frames that go on for `m` frames and end with the `m`-th as the channel's last. -/
theorem frames_last {ch : Nat} {gL gR : Rat} {tick : Chan → FrameOut} (cs : Nat → Chan) (s : Nat → Rat) (b : List Rat)
    (m k f : Nat) (c : Chan) (w : Work) (hk : m < k)
    (h : ∀ j, j < m → tick (cs (f + j)) = .go (cs (f + j + 1)) (s (f + j)))
    (hl : tick (cs (f + m)) = .last c (s (f + m))) :
    frames ch gL gR tick k f { w with chan := cs f, buf := addFrames gL gR s f b } =
      .done (Work.stop ch { w with chan := c, buf := addFrames gL gR s (f + m + 1) b }) := by
  induction m generalizing f k with
  | zero =>
    obtain ⟨k, rfl⟩ := Nat.exists_eq_succ_of_ne_zero (show k ≠ 0 by omega)
    have hl' : tick (cs f) = .last c (s f) := hl
    simp only [frames, hl', accFrame_addFrames]
  | succ m ih =>
    obtain ⟨k, rfl⟩ := Nat.exists_eq_succ_of_ne_zero (show k ≠ 0 by omega)
    have h0 : tick (cs f) = .go (cs (f + 1)) (s f) := h 0 (by omega)
    simp only [frames, h0, accFrame_addFrames]
    rw [ih k (f + 1) (by omega)
      (fun j hj => by
        have := h (j + 1) (by omega)
        rw [show f + (j + 1) = f + 1 + j by omega] at this
        exact this)
      (by rw [show f + (m + 1) = f + 1 + m by omega] at hl; exact hl),
      show f + 1 + m + 1 = f + (m + 1) + 1 by omega]

/-- What a run leaves of a property of its channel, its events, its result and the length of its block. -/
structure LoopEnd (ch : Nat) (P Q : Chan → Prop) (w w' : Work) : Prop where
  result : w'.result = w.result
  length : w'.buf.length = w.buf.length
  chan : (P w'.chan ∧ w'.events = w.events) ∨
    ∃ c, Q c ∧ w'.chan = { c with state := .dead, owner := none } ∧ w'.events = w.events ++ detachEvents ch c.owner

/-- Everything the frame loop can do: with `P` kept by the frames that go on and `Q` given by a last one, it ends in `P`, or it ends in the stop
of a channel with `Q`, or it raises the fault of a channel with `P`. -/
theorem frames_cases {ch : Nat} {gL gR : Rat} {tick : Chan → FrameOut} {P Q : Chan → Prop}
    (hgo : ∀ c c' s, P c → tick c = .go c' s → P c') (hlast : ∀ c c' s, P c → tick c = .last c' s → Q c')
    (k f : Nat) (w : Work) (h0 : P w.chan) :
    (∃ w', frames ch gL gR tick k f w = .done w' ∧ LoopEnd ch P Q w w') ∨
    ∃ w' cause, frames ch gL gR tick k f w = .raised w' cause ∧ P w'.chan ∧ tick w'.chan = .fault cause ∧
      w'.events = w.events ∧ w'.result = w.result ∧ w'.buf.length = w.buf.length := by
  induction k generalizing f w with
  | zero => exact .inl ⟨w, rfl, rfl, rfl, .inl ⟨h0, rfl⟩⟩
  | succ k ih =>
    cases ht : tick w.chan with
    | go c s =>
      have hc := hgo _ _ _ h0 ht
      rcases ih (f + 1) { w with chan := c, buf := accFrame w.buf f (s * gL) (s * gR) } hc with
        ⟨w', hw, he⟩ | ⟨w', cause, hw, h1, h2, h3, h4, h5⟩
      · refine .inl ⟨w', by simp only [frames, ht]; exact hw, he.result, ?_, he.chan⟩
        rw [he.length]; simp
      · refine .inr ⟨w', cause, by simp only [frames, ht]; exact hw, h1, h2, h3, h4, ?_⟩
        rw [h5]; simp
    | last c s =>
      refine .inl ⟨Work.stop ch { w with chan := c, buf := accFrame w.buf f (s * gL) (s * gR) }, ?_, rfl, ?_,
        .inr ⟨c, hlast _ _ _ h0 ht, rfl, rfl⟩⟩
      · simp only [frames, ht]
      · simp [Work.stop]
    | fault cause => exact .inr ⟨w, cause, by simp only [frames, ht], h0, ht, rfl, rfl, rfl⟩

/-! Contributions: what a rule adds to a block does not depend on the block (R64, R73). -/

/-- A block with a value added at every index. -/
def addAll (d : Nat → Rat) (buf : List Rat) : List Rat := buf.mapIdx fun j x => x + d j

/-- The block of a run replaced. -/
def Run.withBuf (buf : List Rat) : Run → Run
  | .done w => .done { w with buf := buf }
  | .raised w cause => .raised { w with buf := buf } cause

/-- A rule, as a function of the block it is given, only adds to it. -/
def Additive (r : List Rat → Run) : Prop := ∃ (d : Nat → Rat) (r0 : Run), ∀ buf, r buf = r0.withBuf (addAll d buf)

theorem addAll_zero (buf : List Rat) : addAll (fun _ => 0) buf = buf := by
  simp [addAll, List.mapIdx_eq_iff]

theorem addAll_getElem? (d : Nat → Rat) (buf : List Rat) (j : Nat) : (addAll d buf)[j]? = buf[j]?.map (· + d j) := by
  simp [addAll, List.getElem?_mapIdx]

/-- Two additions commute (R14, R73). -/
theorem addAll_comm (d d' : Nat → Rat) (buf : List Rat) : addAll d (addAll d' buf) = addAll d' (addAll d buf) := by
  apply List.ext_getElem?
  intro j
  rw [addAll_getElem?, addAll_getElem?, addAll_getElem?, addAll_getElem?]
  cases buf[j]? with
  | none => rfl
  | some x => simp only [Option.map_some]; rw [add_right_comm]

theorem addAll_addAll (d d' : Nat → Rat) (buf : List Rat) :
    addAll d (addAll d' buf) = addAll (fun j => d' j + d j) buf := by
  apply List.ext_getElem?
  intro j
  rw [addAll_getElem?, addAll_getElem?, addAll_getElem?]
  cases buf[j]? with
  | none => rfl
  | some x => simp only [Option.map_some]; rw [add_assoc]

/-- One frame is an addition. -/
theorem accFrame_eq_addAll (i : Nat) (l r : Rat) (buf : List Rat) :
    accFrame buf i l r = addAll (fun j => if j = 2 * i then l else if j = 2 * i + 1 then r else 0) buf := by
  apply List.ext_getElem?
  intro j
  rw [accFrame_getElem?, addAll_getElem?]
  cases buf[j]? with
  | none => simp
  | some x => simp only [Option.map_some]; split <;> [rfl; (split <;> simp)]

/-- A rule that does not touch the block is additive. -/
theorem additive_done (w : Work) : Additive fun buf => .done { w with buf := buf } :=
  ⟨fun _ => 0, .done w, fun buf => by simp only [Run.withBuf, addAll_zero]⟩

theorem additive_raised (w : Work) (cause : FaultCause) : Additive fun buf => .raised { w with buf := buf } cause :=
  ⟨fun _ => 0, .raised w cause, fun buf => by simp only [Run.withBuf, addAll_zero]⟩

/-- The frame loop only adds to the block. -/
theorem frames_additive (ch : Nat) (gL gR : Rat) (tick : Chan → FrameOut) (k f : Nat) (w : Work) :
    Additive fun buf => frames ch gL gR tick k f { w with buf := buf } := by
  induction k generalizing f w with
  | zero => exact additive_done w
  | succ k ih =>
    cases ht : tick w.chan with
    | go c s =>
      obtain ⟨d, r0, h⟩ := ih (f + 1) { w with chan := c }
      refine ⟨fun j => (if j = 2 * f then s * gL else if j = 2 * f + 1 then s * gR else 0) + d j, r0, fun buf => ?_⟩
      simp only [frames, ht]
      rw [accFrame_eq_addAll, ← addAll_addAll]
      exact h _
    | last c s =>
      refine ⟨fun j => if j = 2 * f then s * gL else if j = 2 * f + 1 then s * gR else 0,
        .done (Work.stop ch { w with chan := c }), fun buf => ?_⟩
      simp only [frames, ht, accFrame_eq_addAll]
      rfl
    | fault cause =>
      simp only [frames, ht]
      exact additive_raised w cause

/-! A one-channel command. -/

/-- On a channel of the pool. -/
theorem onChannel_some {op : Opcode} {ch : U8} {buf : List Rat} {s : State} {rule : Nat → Work → Run} {c : Chan}
    (h : s.chs[ch.toNat]? = some c) :
    onChannel op ch buf s rule = .next (finish s op ch.toNat (rule ch.toNat (Work.start c buf))) := by
  simp only [onChannel, h]

/-- On a channel the pool does not have (log 14). -/
theorem onChannel_none {op : Opcode} {ch : U8} {buf : List Rat} {s : State} {rule : Nat → Work → Run}
    (h : s.chs[ch.toNat]? = none) : onChannel op ch buf s rule = .next (refuseCommand s .chRange) := by
  simp only [onChannel, h]

/-- Everything a one-channel command can do: refused for want of the channel, through, or ended by a fault. -/
theorem onChannel_cases {op : Opcode} {ch : U8} {buf : List Rat} {s t : State} {rule : Nat → Work → Run}
    (h : onChannel op ch buf s rule = .next t) :
    (s.chs[ch.toNat]? = none ∧ t = refuseCommand s .chRange) ∨
    ∃ c, s.chs[ch.toNat]? = some c ∧
      ((∃ w, rule ch.toNat (Work.start c buf) = .done w ∧ t = s.commit ch.toNat w) ∨
      ∃ w cause, rule ch.toNat (Work.start c buf) = .raised w cause ∧
        t = raiseFault (s.commit ch.toNat w) ⟨cause.reason, op, ch.toNat, cause.addr⟩) := by
  cases hc : s.chs[ch.toNat]? with
  | none => rw [onChannel_none hc] at h; cases h; exact .inl ⟨rfl, rfl⟩
  | some c =>
    rw [onChannel_some hc] at h
    cases h
    refine .inr ⟨c, rfl, ?_⟩
    cases hr : rule ch.toNat (Work.start c buf) with
    | done w => exact .inl ⟨w, rfl, rfl⟩
    | raised w cause => exact .inr ⟨w, cause, rfl, rfl⟩

/-- A kind check (R112): the rest, or the fault with nothing done. -/
theorem kindCheck_cases (kind : Kind) (w : Work) (rest : Run) :
    (w.chan.kind = kind ∧ kindCheck kind w rest = rest) ∨
    (w.chan.kind ≠ kind ∧ kindCheck kind w rest = .raised w ⟨.kindMismatch, none⟩) := by
  by_cases h : w.chan.kind = kind
  · exact .inl ⟨h, if_pos h⟩
  · exact .inr ⟨h, if_neg h⟩

/-! Writing a channel that is as it was changes nothing. -/

theorem set_self {chs : List Chan} {i : Nat} {c : Chan} (h : chs[i]? = some c) : chs.set i c = chs := by
  apply List.ext_getElem?
  intro j
  rw [List.getElem?_set]
  split
  · rename_i hij; subst hij
    obtain ⟨hlt, he⟩ := List.getElem?_eq_some_iff.mp h
    simp [hlt, he]
  · rfl

end Sys2Proof.Machine
end

