-- ==== Sys2Proof/Laws/Process.lean ====
section
/-! SUPPORT. What `PROCESS` can do, said once: what a frame of each generator changes (`*_same`), which faults it raises (`*_cause`), how the
generator ends (`generate_end`), and that the rule only adds to the block (`ruleProcess_additive`). -/

namespace Sys2Proof.Machine

/-- `c'` is `c` but for the play position. -/
def SamePlay (c c' : Chan) : Prop := c' = { c with pos := c'.pos, frac := c'.frac }

theorem SamePlay.refl (c : Chan) : SamePlay c c := rfl

theorem SamePlay.trans {a b c : Chan} (h1 : SamePlay a b) (h2 : SamePlay b c) : SamePlay a c := by
  unfold SamePlay at *
  rw [h2, h1]

/-- The address of a fault record is there exactly for `ROM_RANGE`, and then outside ROM (R320). -/
def CauseOk (rom : Memory) (cause : FaultCause) : Prop :=
  if cause.reason = .romRange then ∃ a, cause.addr = some a ∧ rom.size ≤ a else cause.addr = none

/-- A frame that goes on. -/
def GoSame (c : Chan) : FrameOut → Prop
  | .go c' _ => SamePlay c c'
  | .last c' _ => SamePlay c c'
  | .fault _ => True

theorem rawTick_same (rom : Memory) (inc : Nat) (c : Chan) : GoSame c (rawTick rom inc c) := by
  unfold rawTick
  split
  · trivial
  · dsimp only
    split
    · unfold rawOverrun
      split <;> rfl
    · rfl

theorem decTick_same (inc : Nat) (c : Chan) : GoSame c (decTick inc c) := by
  unfold decTick
  split
  · trivial
  · dsimp only
    split <;> rfl

theorem synthSquareTick_same (th : Rat) (inc : Nat) (c : Chan) : GoSame c (synthSquareTick th inc c) := rfl

theorem sawTick_same (inc : Nat) (c : Chan) : GoSame c (sawTick inc c) := rfl

theorem triangleTick_same (inc : Nat) (c : Chan) : GoSame c (triangleTick inc c) := rfl

theorem tableTick_same (len : Nat) (sample : Nat → Rat) (inc : Nat) (c : Chan) : GoSame c (tableTick len sample inc c) := rfl

theorem rawTick_cause {rom : Memory} {inc : Nat} {c : Chan} {cause : FaultCause} (h : rawTick rom inc c = .fault cause) :
    CauseOk rom cause := by
  unfold rawTick at h
  split at h
  · rename_i a ha
    cases h
    refine ⟨a, rfl, ?_⟩
    unfold memRead at ha
    split at ha
    · cases ha
    · cases ha; exact le_max_right _ _
  · dsimp only at h
    split at h
    · unfold rawOverrun at h
      split at h <;> cases h
    · cases h

theorem decTick_cause {rom : Memory} {inc : Nat} {c : Chan} {cause : FaultCause} (h : decTick inc c = .fault cause) :
    CauseOk rom cause := by
  unfold decTick at h
  split at h
  · cases h; rfl
  · dsimp only at h
    split at h <;> cases h

/-- An increment in range (R123). -/
theorem incTooBig_eq_false {inc : Nat} (h : inc < 2 ^ 48) : incTooBig inc = false :=
  decide_eq_false (Nat.not_le.mpr (by simpa [Config.F, Params.incIntBits] using h))

/-- An increment out of range (R123). -/
theorem incTooBig_eq_true {inc : Nat} (h : 2 ^ 48 ≤ inc) : incTooBig inc = true :=
  decide_eq_true (by simpa [Config.F, Params.incIntBits] using h)

/-- A whole block whose frames all go on. -/
theorem frames_block {ch : Nat} {gL gR : Rat} {tick : Chan → FrameOut} (cs : Nat → Chan) (s : Nat → Rat) (b : List Rat)
    (n : Nat) (h : ∀ j, j < n → tick (cs j) = .go (cs (j + 1)) (s j)) :
    frames ch gL gR tick n 0 (Work.start (cs 0) b) = .done (Work.start (cs n) (addFrames gL gR s n b)) := by
  have := frames_go (ch := ch) (gL := gL) (gR := gR) (tick := tick) cs s b n 0 (Work.start (cs 0) b)
    (by intro j hj; simpa using h j hj)
  rw [addFrames_zero, Nat.zero_add] at this
  exact this

/-- A block whose frame `m` is the channel's last. -/
theorem frames_stop {ch : Nat} {gL gR : Rat} {tick : Chan → FrameOut} (cs : Nat → Chan) (s : Nat → Rat) (b : List Rat)
    (n m : Nat) (c : Chan) (hm : m < n) (h : ∀ j, j < m → tick (cs j) = .go (cs (j + 1)) (s j))
    (hl : tick (cs m) = .last c (s m)) :
    frames ch gL gR tick n 0 (Work.start (cs 0) b) =
      .done (Work.stop ch (Work.start c (addFrames gL gR s (m + 1) b))) := by
  have := frames_last (ch := ch) (gL := gL) (gR := gR) (tick := tick) cs s b m n 0 c (Work.start (cs 0) b) hm
    (by intro j hj; simpa using h j hj) (by simpa using hl)
  rw [addFrames_zero, Nat.zero_add] at this
  exact this

/-- How a generator ends, on work `w`: through, going on or stopped, or at a fault before the next frame. -/
def GenEnd (ch : Nat) (rom : Memory) (w : Work) (r : Run) : Prop :=
  (∃ w', r = .done w' ∧ LoopEnd ch (SamePlay w.chan) (SamePlay w.chan) w w') ∨
  ∃ w' cause, r = .raised w' cause ∧ CauseOk rom cause ∧ SamePlay w.chan w'.chan ∧
    w'.events = w.events ∧ w'.result = w.result ∧ w'.buf.length = w.buf.length

/-- A generator that faults at once. -/
theorem GenEnd.fault (ch : Nat) (rom : Memory) (w : Work) {cause : FaultCause} (h : CauseOk rom cause) :
    GenEnd ch rom w (.raised w cause) := .inr ⟨w, cause, rfl, h, .refl _, rfl, rfl, rfl⟩

/-- The frame loop of a generator whose frames change the play position alone. -/
theorem frames_end {ch : Nat} {gL gR : Rat} {tick : Chan → FrameOut} {rom : Memory} (hs : ∀ c, GoSame c (tick c))
    (hf : ∀ c cause, tick c = .fault cause → CauseOk rom cause) (k f : Nat) (w : Work) :
    GenEnd ch rom w (frames ch gL gR tick k f w) := by
  rcases frames_cases (ch := ch) (gL := gL) (gR := gR) (tick := tick) (P := SamePlay w.chan) (Q := SamePlay w.chan)
    (fun c c' s h ht => h.trans (by have := hs c; rw [ht] at this; exact this))
    (fun c c' s h ht => h.trans (by have := hs c; rw [ht] at this; exact this)) k f w (.refl _) with
    h | ⟨w', cause, h1, h2, h3, h4, h5, h6⟩
  · exact .inl h
  · exact .inr ⟨w', cause, h1, hf _ _ h3, h2, h4, h5, h6⟩

/-- A generator that starts from a moved play position. -/
theorem GenEnd.of_pos {ch : Nat} {rom : Memory} {w : Work} {p : BitVec 32} {r : Run}
    (h : GenEnd ch rom (w.onChan fun c => { c with pos := p }) r) : GenEnd ch rom w r := by
  have h0 : SamePlay w.chan { w.chan with pos := p } := rfl
  rcases h with ⟨w', h1, h2⟩ | ⟨w', cause, h1, h2, h3, h4⟩
  · refine .inl ⟨w', h1, h2.result, h2.length, ?_⟩
    rcases h2.chan with ⟨h3, h4⟩ | ⟨c, h3, h4⟩
    · exact .inl ⟨h0.trans h3, h4⟩
    · exact .inr ⟨c, h0.trans h3, h4⟩
  · exact .inr ⟨w', cause, h1, h2, h0.trans h3, h4⟩

theorem tableGenerate_end (cfg : Cfg) (rom : Memory) (ch : Nat) (gL gR : Rat) (len : Nat) (sample : Nat → Rat) (w : Work) :
    GenEnd ch rom w (tableGenerate cfg ch gL gR len sample w) := by
  unfold tableGenerate
  dsimp only
  split
  · exact .fault ch rom w rfl
  · exact frames_end (tableTick_same len sample _) (fun c cause h => by cases h) _ _ _

theorem synthGenerate_end (rom : Memory) (n ch : Nat) (gL gR : Rat) (inc : Nat) (w : Work) :
    GenEnd ch rom w (synthGenerate n ch gL gR inc w) := by
  unfold synthGenerate
  split
  · exact .fault ch rom w rfl
  · split
    · exact .of_pos (frames_end (synthSquareTick_same _ inc) (fun c cause h => by cases h) _ _ _)
    · exact frames_end (sawTick_same inc) (fun c cause h => by cases h) _ _ _
    · exact frames_end (triangleTick_same inc) (fun c cause h => by cases h) _ _ _
    · exact .fault ch rom w rfl

theorem pcm8Generate_end (cfg : Cfg) (rom : Memory) (ch : Nat) (gL gR : Rat) (w : Work) :
    GenEnd ch rom w (pcm8Generate cfg rom ch gL gR w) := by
  unfold pcm8Generate
  dsimp only
  split
  · exact .fault ch rom w rfl
  · split
    · exact synthGenerate_end rom _ _ _ _ _ _
    · split
      · exact frames_end (decTick_same _) (fun c cause h => decTick_cause h) _ _ _
      · exact frames_end (rawTick_same rom _) (fun c cause h => rawTick_cause h) _ _ _

/-- How any generator ends (R119, R154, R160). -/
theorem generate_end (cfg : Cfg) (rom : Memory) (ch : Nat) (gL gR : Rat) (w : Work) :
    GenEnd ch rom w (generate cfg rom ch gL gR w) := by
  unfold generate
  split
  · exact pcm8Generate_end cfg rom ch gL gR w
  · exact tableGenerate_end cfg rom ch gL gR _ _ w
  · exact tableGenerate_end cfg rom ch gL gR _ _ w
  · exact tableGenerate_end cfg rom ch gL gR _ _ w

/-- How what follows the envelope step ends. -/
theorem afterEnv_end (cfg : Cfg) (rom : Memory) (ch : Nat) (w : Work) : GenEnd ch rom w (afterEnv cfg rom ch w) := by
  unfold afterEnv
  split
  · exact .inl ⟨w, rfl, rfl, rfl, .inl ⟨.refl _, rfl⟩⟩
  · exact generate_end cfg rom ch _ _ w

/-! The block. -/

/-- The block of a work replaced. -/
def Work.withBuf (buf : List Rat) (w : Work) : Work := { w with buf := buf }

/-- A release step of a channel without a release rate (R222). -/
theorem relEntry_stops {i : Nat} {w : Work} (h : w.chan.R = 0) :
    relEntry i w = (w.onChan fun c => { c with vel := 0 }).stop i := if_pos h

/-- Any other release step (R222). -/
theorem relEntry_falls {i : Nat} {w : Work} (h : w.chan.R ≠ 0) :
    relEntry i w = w.onChan fun c =>
      if (c.vel.toNat : Int) - 1 ≤ 0 then { c with step := 0, next := .dying, vel := 0 }
      else { c with step := 0, vel := c.vel - 1 } := if_neg h

theorem relEntry_withBuf (i : Nat) (w : Work) (buf : List Rat) :
    relEntry i (w.withBuf buf) = (relEntry i w).withBuf buf := by
  by_cases h : w.chan.R = 0
  · rw [relEntry_stops h, relEntry_stops (w := w.withBuf buf) h]
    rfl
  · rw [relEntry_falls h, relEntry_falls (w := w.withBuf buf) h]
    rfl

theorem enterReleasing_withBuf (i : Nat) (w : Work) (buf : List Rat) :
    enterReleasing i (w.withBuf buf) = (enterReleasing i w).withBuf buf :=
  relEntry_withBuf i (w.onChan fun c => { c with state := .releasing }) buf

/-- Rising during a hold (R216). -/
theorem psgRising_hold {i : Nat} {w : Work} (h : ¬ w.chan.A.toNat ≤ (w.chan.step + 1).toNat) :
    psgRising i w = w.onChan psgCount := if_neg h

/-- Rising at the end of a hold (R216). -/
theorem psgRising_boundary {i : Nat} {w : Work} (h : w.chan.A.toNat ≤ (w.chan.step + 1).toNat) :
    psgRising i w = match w.chan.next with
      | .decaying => (w.onChan psgCount).onChan enterDecaying
      | .playing => (w.onChan psgCount).onChan enterPlaying
      | .releasing => enterReleasing i (w.onChan psgCount)
      | _ => (w.onChan psgCount).onChan psgClimb := if_pos h

/-- Decaying during a hold (R217). -/
theorem psgDecaying_hold {i : Nat} {w : Work} (h : ¬ w.chan.D.toNat ≤ (w.chan.step + 1).toNat) :
    psgDecaying i w = w.onChan psgCount := if_neg h

/-- Decaying at the end of a hold (R217). -/
theorem psgDecaying_boundary {i : Nat} {w : Work} (h : w.chan.D.toNat ≤ (w.chan.step + 1).toNat) :
    psgDecaying i w = match w.chan.next with
      | .playing => (w.onChan psgCount).onChan enterPlaying
      | .releasing => enterReleasing i (w.onChan psgCount)
      | _ => (w.onChan psgCount).onChan decEntry := if_pos h

/-- Playing with a staged release (R218). -/
theorem psgPlaying_staged {i : Nat} {w : Work} (h : w.chan.next = .releasing) :
    psgPlaying i w = enterReleasing i (w.onChan psgCount) := if_pos h

/-- Playing otherwise (R218). -/
theorem psgPlaying_holds {i : Nat} {w : Work} (h : w.chan.next ≠ .releasing) :
    psgPlaying i w = (w.onChan psgCount).onChan susEntry := if_neg h

/-- Releasing during a hold (R219). -/
theorem psgReleasing_hold {i : Nat} {w : Work} (h : ¬ w.chan.R.toNat ≤ (w.chan.step + 1).toNat) :
    psgReleasing i w = w.onChan psgCount := if_neg h

/-- Releasing at the end of its last hold (R219). -/
theorem psgReleasing_ends {i : Nat} {w : Work} (h : w.chan.R.toNat ≤ (w.chan.step + 1).toNat) (hn : w.chan.next = .dying) :
    psgReleasing i w = (w.onChan psgCount).stop i := (if_pos h).trans (if_pos hn)

/-- Releasing at the end of another hold (R219). -/
theorem psgReleasing_boundary {i : Nat} {w : Work} (h : w.chan.R.toNat ≤ (w.chan.step + 1).toNat)
    (hn : w.chan.next ≠ .dying) : psgReleasing i w = relEntry i (w.onChan psgCount) := (if_pos h).trans (if_neg hn)

theorem psgEnvStep_withBuf (cfg : Cfg) (i : Nat) (w : Work) (buf : List Rat) :
    psgEnvStep cfg i (w.withBuf buf) = (psgEnvStep cfg i w).withBuf buf := by
  have hc : (w.withBuf buf).chan = w.chan := rfl
  unfold psgEnvStep
  rw [hc]
  cases w.chan.state
  · rfl
  · by_cases h : w.chan.A.toNat ≤ (w.chan.step + 1).toNat
    · dsimp only
      rw [psgRising_boundary h, psgRising_boundary (w := w.withBuf buf) h, hc]
      cases w.chan.next <;> first | rfl | exact enterReleasing_withBuf i (w.onChan psgCount) buf
    · dsimp only
      rw [psgRising_hold h, psgRising_hold (w := w.withBuf buf) h]
      rfl
  · by_cases h : w.chan.D.toNat ≤ (w.chan.step + 1).toNat
    · dsimp only
      rw [psgDecaying_boundary h, psgDecaying_boundary (w := w.withBuf buf) h, hc]
      cases w.chan.next <;> first | rfl | exact enterReleasing_withBuf i (w.onChan psgCount) buf
    · dsimp only
      rw [psgDecaying_hold h, psgDecaying_hold (w := w.withBuf buf) h]
      rfl
  · by_cases h : w.chan.next = .releasing
    · dsimp only
      rw [psgPlaying_staged h, psgPlaying_staged (w := w.withBuf buf) h]
      exact enterReleasing_withBuf i (w.onChan psgCount) buf
    · dsimp only
      rw [psgPlaying_holds h, psgPlaying_holds (w := w.withBuf buf) h]
      rfl
  · by_cases h : w.chan.R.toNat ≤ (w.chan.step + 1).toNat
    · by_cases hn : w.chan.next = .dying
      · dsimp only
        rw [psgReleasing_ends h hn, psgReleasing_ends (w := w.withBuf buf) h hn]
        rfl
      · dsimp only
        rw [psgReleasing_boundary h hn, psgReleasing_boundary (w := w.withBuf buf) h hn]
        exact relEntry_withBuf i (w.onChan psgCount) buf
    · dsimp only
      rw [psgReleasing_hold h, psgReleasing_hold (w := w.withBuf buf) h]
      rfl
  · rfl
  · rfl

theorem pcm8EnvStep_withBuf (i : Nat) (w : Work) (buf : List Rat) :
    pcm8EnvStep i (w.withBuf buf) = (pcm8EnvStep i w).withBuf buf := by
  have hc : (w.withBuf buf).chan = w.chan := rfl
  unfold pcm8EnvStep
  rw [hc]
  cases w.chan.state <;> rfl

/-- An envelope step does not look at the block. -/
theorem envStep_withBuf (cfg : Cfg) (i : Nat) (w : Work) (buf : List Rat) :
    envStep cfg i (w.withBuf buf) = (envStep cfg i w).withBuf buf := by
  have pcm8 : ∀ w : Work, w.chan.kind = .pcm8 → envStep cfg i w = pcm8EnvStep i w := fun w h => if_pos h
  have psg : ∀ w : Work, w.chan.kind ≠ .pcm8 → envStep cfg i w = psgEnvStep cfg i w := fun w h => if_neg h
  by_cases h : w.chan.kind = .pcm8
  · rw [pcm8 w h, pcm8 (w.withBuf buf) h, pcm8EnvStep_withBuf]
  · rw [psg w h, psg (w.withBuf buf) h, psgEnvStep_withBuf]

theorem tableGenerate_additive (cfg : Cfg) (i : Nat) (gL gR : Rat) (len : Nat) (sample : Nat → Rat) (w : Work) :
    Additive fun buf => tableGenerate cfg i gL gR len sample (w.withBuf buf) := by
  by_cases h : incTooBig (phaseInc w.chan.freq (cfg.sr : Rat)) = true
  · have e : ∀ buf, tableGenerate cfg i gL gR len sample (w.withBuf buf) = .raised (w.withBuf buf) ⟨.incRange, none⟩ :=
      fun buf => if_pos h
    simp only [e]
    exact additive_raised w _
  · have e : ∀ buf, tableGenerate cfg i gL gR len sample (w.withBuf buf) =
        frames i gL gR (tableTick len sample (phaseInc w.chan.freq (cfg.sr : Rat))) cfg.n 0 (w.withBuf buf) :=
      fun buf => if_neg h
    simp only [e]
    exact frames_additive i gL gR _ _ _ w

theorem synthGenerate_additive (n i : Nat) (gL gR : Rat) (inc : Nat) (w : Work) :
    Additive fun buf => synthGenerate n i gL gR inc (w.withBuf buf) := by
  have hc : ∀ buf, (w.withBuf buf).chan = w.chan := fun _ => rfl
  unfold synthGenerate
  simp only [hc]
  by_cases h : 2 ^ Config.F ≤ inc
  · simp only [if_pos h]
    exact additive_raised w _
  · simp only [if_neg h]
    split
    · exact frames_additive i gL gR _ _ _ (w.onChan fun c => { c with pos := BitVec.ofInt 32 (squareModPhase w.chan) })
    · exact frames_additive i gL gR _ _ _ w
    · exact frames_additive i gL gR _ _ _ w
    · exact additive_raised w _

theorem pcm8Generate_additive (cfg : Cfg) (rom : Memory) (i : Nat) (gL gR : Rat) (w : Work) :
    Additive fun buf => pcm8Generate cfg rom i gL gR (w.withBuf buf) := by
  have hc : ∀ buf, (w.withBuf buf).chan = w.chan := fun _ => rfl
  unfold pcm8Generate
  simp only [hc]
  by_cases h : incTooBig (pcm8Inc cfg w.chan) = true
  · simp only [if_pos h]
    exact additive_raised w _
  · simp only [if_neg h]
    by_cases h2 : w.chan.synth = true
    · simp only [if_pos h2]
      exact synthGenerate_additive cfg.n i gL gR _ w
    · simp only [if_neg h2]
      by_cases h3 : w.chan.compressed = true
      · simp only [if_pos h3]
        exact frames_additive i gL gR _ _ _ w
      · simp only [if_neg h3]
        exact frames_additive i gL gR _ _ _ w

/-- A generator only adds to the block (R64). -/
theorem generate_additive (cfg : Cfg) (rom : Memory) (i : Nat) (gL gR : Rat) (w : Work) :
    Additive fun buf => generate cfg rom i gL gR (w.withBuf buf) := by
  have hc : ∀ buf, (w.withBuf buf).chan = w.chan := fun _ => rfl
  unfold generate
  simp only [hc]
  cases w.chan.kind
  · exact pcm8Generate_additive cfg rom i gL gR w
  · exact tableGenerate_additive cfg i gL gR 8 (squareSample w.chan) w
  · exact tableGenerate_additive cfg i gL gR 32 (waveSample w.chan) w
  · exact tableGenerate_additive cfg i gL gR (noiseLen w.chan.npat) (noiseSample w.chan) w

/-- `PROCESS` only adds to the block (R64, R73): what it adds, and all else it does, does not depend on the block. -/
theorem ruleProcess_additive (cfg : Cfg) (rom : Memory) (i : Nat) (w : Work) :
    Additive fun buf => ruleProcess cfg rom i (w.withBuf buf) := by
  have hc : ∀ buf, ((envStep cfg i w).withBuf buf).chan = (envStep cfg i w).chan := fun _ => rfl
  unfold ruleProcess
  simp only [envStep_withBuf]
  unfold afterEnv
  simp only [hc]
  by_cases h : (envStep cfg i w).chan.state = .dead
  · simp only [if_pos h]
    exact additive_done _
  · simp only [if_neg h]
    exact generate_additive cfg rom i _ _ _

/-- The envelope step of a channel that it leaves alive: no event, and the block as it was. -/
theorem envStep_alive {cfg : Cfg} {i : Nat} {c : Chan} (buf : List Rat) (h : (envChan cfg i c).state ≠ .dead) :
    envStep cfg i (Work.start c buf) = Work.start (envChan cfg i c) buf := by
  have e := envStep_withBuf cfg i (Work.start c []) buf
  change envStep cfg i (Work.start c buf) = _ at e
  rw [e]
  unfold envChan at h ⊢
  cases envStep_end cfg i (Work.start c []) with
  | goes st v k nx eq dead mono => rw [eq]; rfl
  | stops v k nx eq => exact absurd (by rw [eq]; rfl) h

/-- The registers an envelope step does not write. -/
structure EnvSame (c e : Chan) : Prop where
  kind : e.kind = c.kind
  gen : e.gen = c.gen
  note : e.note = c.note
  rates : e.A = c.A ∧ e.D = c.D ∧ e.S = c.S ∧ e.R = c.R
  pos : e.pos = c.pos
  frac : e.frac = c.frac
  freq : e.freq = c.freq
  hdr : e.hdr = c.hdr
  base : e.base = c.base
  fixed : e.fixed = c.fixed
  compressed : e.compressed = c.compressed
  synth : e.synth = c.synth
  dec : e.dec = c.dec
  sp : e.sp = c.sp
  gains : e.lvol = c.lvol ∧ e.rvol = c.rvol ∧ e.peak = c.peak ∧ e.sus = c.sus ∧ e.panpot = c.panpot
  table : e.duty = c.duty ∧ e.wave = c.wave ∧ e.npat = c.npat

/-- What an envelope step leaves as it was (R119). -/
theorem envChan_same (cfg : Cfg) (i : Nat) (c : Chan) : EnvSame c (envChan cfg i c) := by
  unfold envChan
  cases envStep_end cfg i (Work.start c []) with
  | goes st v k nx eq dead mono => rw [eq]; constructor <;> first | rfl | exact ⟨rfl, rfl, rfl, rfl⟩ | exact ⟨rfl, rfl, rfl, rfl, rfl⟩ | exact ⟨rfl, rfl, rfl⟩
  | stops v k nx eq => rw [eq]; constructor <;> first | rfl | exact ⟨rfl, rfl, rfl, rfl⟩ | exact ⟨rfl, rfl, rfl, rfl, rfl⟩ | exact ⟨rfl, rfl, rfl⟩

/-- The owner of a channel that an envelope step leaves alive. -/
theorem envChan_owner {cfg : Cfg} {i : Nat} {c : Chan} (h : (envChan cfg i c).state ≠ .dead) :
    (envChan cfg i c).owner = c.owner := by
  unfold envChan at h ⊢
  cases envStep_end cfg i (Work.start c []) with
  | goes st v k nx eq dead mono => rw [eq]; rfl
  | stops v k nx eq => exact absurd (by rw [eq]; rfl) h

/-- `PROCESS` of a channel that its envelope step leaves alive: its generator, from the channel after the step. -/
theorem execProcess_alive {s : State} {ch : U8} {b : BufArg} {c : Chan} (hc : s.chs[ch.toNat]? = some c)
    (h : (envChan s.cfg ch.toNat c).state ≠ .dead) :
    exec (.process ch b) s = .next (finish s .process ch.toNat
      (generate s.cfg s.rom ch.toNat (gainL s.cfg (envChan s.cfg ch.toNat c)) (gainR s.cfg (envChan s.cfg ch.toNat c))
        (Work.start (envChan s.cfg ch.toNat c) (bufOf b s)))) := by
  unfold exec
  dsimp only
  unfold execProcess
  rw [onChannel_some hc]
  unfold ruleProcess
  rw [envStep_alive _ h]
  unfold afterEnv
  exact congrArg (fun r => Host.Outcome.next (finish s .process ch.toNat r)) (if_neg h)

end Sys2Proof.Machine
end

