-- ==== Sys2Proof/Laws/Rules.lean ====
section
/-! SUPPORT. What the rule of any one-channel command can do, said once (`ruleOf_end`): the kind stays, the envelope goes forward or starts
anew, the events tell the owner, the block keeps its length, a fault has the address it should. -/

namespace Sys2Proof.Machine

/-- The events `ev` lead the owner of channel `i` from `o` to `o'`, and say nothing of another channel. -/
structure OwnerPath (i : Nat) (ev : List Event) (o o' : Option Nat) : Prop where
  own : ∀ rest, ownerAfter i (ev ++ rest) o = ownerAfter i rest o'
  other : ∀ j, j ≠ i → ∀ rest cur, ownerAfter j (ev ++ rest) cur = ownerAfter j rest cur

theorem OwnerPath.refl (i : Nat) (o : Option Nat) : OwnerPath i [] o o := ⟨fun _ => rfl, fun _ _ _ _ => rfl⟩

theorem OwnerPath.trans {i : Nat} {ev ev' : List Event} {a b c : Option Nat} (h : OwnerPath i ev a b)
    (h' : OwnerPath i ev' b c) : OwnerPath i (ev ++ ev') a c :=
  ⟨fun rest => by rw [List.append_assoc, h.own, h'.own],
    fun j hj rest cur => by rw [List.append_assoc, h.other j hj, h'.other j hj]⟩

theorem OwnerPath.detach (i : Nat) (o : Option Nat) : OwnerPath i (detachEvents i o) o none := by
  cases o with
  | none => exact .refl i none
  | some o =>
    refine ⟨fun rest => ?_, fun j hj rest cur => ?_⟩
    · simp [detachEvents, ownerAfter]
    · simp [detachEvents, ownerAfter, Ne.symm hj]

theorem OwnerPath.attach (i o : Nat) : OwnerPath i [.attach o i] none (some o) := by
  refine ⟨fun rest => ?_, fun j hj rest cur => ?_⟩
  · simp [ownerAfter]
  · simp [ownerAfter, Ne.symm hj]

/-- `Dead` has the last code of all (R23). -/
theorem stateCode_le_dead (st : EnvState) : stateCode st ≤ stateCode .dead := by cases st <;> decide

/-- What every rule does between the work it is given and the work it leaves. -/
structure Moves (i : Nat) (w w' : Work) : Prop where
  kind : w'.chan.kind = w.chan.kind
  length : w'.buf.length = w.buf.length
  forward : stateCode w.chan.state ≤ stateCode w'.chan.state ∧ w'.chan.gen = w.chan.gen ∨
    w'.chan.state = .initializing ∧ w'.chan.gen = w.chan.gen + 1
  owner : ∃ ev, w'.events = w.events ++ ev ∧ OwnerPath i ev w.chan.owner w'.chan.owner

theorem Moves.refl (i : Nat) (w : Work) : Moves i w w :=
  ⟨rfl, rfl, .inl ⟨le_rfl, rfl⟩, [], (List.append_nil _).symm, .refl i _⟩

/-- A move, then one that does not start a note. -/
theorem Moves.trans {i : Nat} {a b c : Work} (h : Moves i a b) (h' : Moves i b c)
    (hf : stateCode b.chan.state ≤ stateCode c.chan.state ∧ c.chan.gen = b.chan.gen)
    (hi : b.chan.state = .initializing → c.chan.state = .initializing) : Moves i a c := by
  refine ⟨h'.kind.trans h.kind, h'.length.trans h.length, ?_, ?_⟩
  · rcases h.forward with ⟨h1, h2⟩ | ⟨h1, h2⟩
    · exact .inl ⟨h1.trans hf.1, hf.2.trans h2⟩
    · exact .inr ⟨hi h1, hf.2.trans h2⟩
  · obtain ⟨ev, h1, h2⟩ := h.owner
    obtain ⟨ev', h1', h2'⟩ := h'.owner
    exact ⟨ev ++ ev', by rw [h1', h1, List.append_assoc], h2.trans h2'⟩

/-- Registers written that are neither kind, state, owner nor `gen`. -/
theorem Moves.onChan {i : Nat} {w : Work} {f : Chan → Chan} (hk : (f w.chan).kind = w.chan.kind)
    (hs : (f w.chan).state = w.chan.state) (ho : (f w.chan).owner = w.chan.owner) (hg : (f w.chan).gen = w.chan.gen) :
    Moves i w (w.onChan f) :=
  ⟨hk, rfl, .inl ⟨le_of_eq (by rw [← hs]; rfl), hg⟩, [], (List.append_nil _).symm, by
    rw [show (w.onChan f).chan.owner = w.chan.owner from ho]; exact .refl i _⟩

theorem Moves.stop (i : Nat) (w : Work) : Moves i w (w.stop i) := by
  exact ⟨rfl, rfl, .inl ⟨stateCode_le_dead _, rfl⟩, detachEvents i w.chan.owner, rfl, .detach i _⟩

theorem Moves.attach (i o : Nat) (note : NoteArg) (w : Work) : Moves i w (w.attach i o note) := by
  refine ⟨rfl, rfl, .inr ⟨rfl, rfl⟩, detachEvents i w.chan.owner ++ [Event.attach o i], ?_,
    (OwnerPath.detach i _).trans (.attach i o)⟩
  exact List.append_assoc _ _ _

theorem Moves.answer {i : Nat} {w w' : Work} (b : Bool) (h : Moves i w w') : Moves i w (w'.answer b) :=
  ⟨h.kind, h.length, h.forward, h.owner⟩

/-- An envelope step moves. -/
theorem EnvEnd.moves {i : Nat} {w w' : Work} (h : EnvEnd i w w') : Moves i w w' := by
  cases h with
  | goes st v k nx eq dead mono =>
    rw [eq]
    exact ⟨rfl, rfl, .inl ⟨mono, rfl⟩, [], (List.append_nil _).symm, .refl i _⟩
  | stops v k nx eq =>
    rw [eq]
    have := Moves.stop i (w.onChan (Chan.withEnv w.chan.state v k nx))
    exact ⟨this.kind, this.length, this.forward, this.owner⟩

/-- `SET_VOLUME` writes neither kind, state, owner nor `gen`. -/
theorem setVolume_frame (vol : U8) (pan : I8) (c : Chan) :
    (setVolume vol pan c).kind = c.kind ∧ (setVolume vol pan c).state = c.state ∧
    (setVolume vol pan c).owner = c.owner ∧ (setVolume vol pan c).gen = c.gen := by
  unfold setVolume
  split
  · exact ⟨rfl, rfl, rfl, rfl⟩
  · split <;> exact ⟨rfl, rfl, rfl, rfl⟩

/-- How a rule ends: it moves, and a fault has the address it should. -/
def RuleEnd (i : Nat) (rom : Memory) (w : Work) : Run → Prop
  | .done w' => Moves i w w'
  | .raised w' cause => Moves i w w' ∧ CauseOk rom cause

theorem kindCheck_end {i : Nat} {rom : Memory} {kind : Kind} {w : Work} {rest : Run} (h : RuleEnd i rom w rest) :
    RuleEnd i rom w (kindCheck kind w rest) := by
  rcases kindCheck_cases kind w rest with ⟨_, e⟩ | ⟨_, e⟩
  · rw [e]; exact h
  · rw [e]; exact ⟨.refl i w, rfl⟩

/-- A note begun and then registers written that are neither kind, state, owner nor `gen`. -/
theorem Moves.started {i : Nat} {w w' : Work} {o : Nat} {note : NoteArg} (hk : w'.chan.kind = w.chan.kind)
    (hs : w'.chan.state = .initializing) (ho : w'.chan.owner = some o) (hg : w'.chan.gen = w.chan.gen + 1)
    (hb : w'.buf = w.buf) (he : w'.events = (w.attach i o note).events) : Moves i w w' := by
  have h := Moves.attach i o note w
  refine ⟨hk, by rw [hb], .inr ⟨hs, hg⟩, ?_⟩
  rw [he, ho]
  exact h.owner

theorem memRead_error_le {rom : Memory} {a n x : Nat} (h : memRead rom a n = .error x) : rom.size ≤ x := by
  unfold memRead at h
  split at h
  · cases h
  · cases h; exact le_max_right _ _

theorem readHeader_error_le {rom : Memory} {a x : Nat} (h : readHeader rom a = .error x) : rom.size ≤ x := by
  unfold readHeader at h
  cases hm : memRead rom a Params.headerSize with
  | error y => rw [hm] at h; cases h; exact memRead_error_le hm
  | ok b => rw [hm] at h; cases h

theorem readSynthParams_error_le {rom : Memory} {a x : Nat} (h : readSynthParams rom a = .error x) : rom.size ≤ x := by
  unfold readSynthParams at h
  cases hm : memRead rom a 6 with
  | error y => rw [hm] at h; cases h; exact memRead_error_le hm
  | ok b => rw [hm] at h; cases h

theorem decomp_error_le {rom : Memory} {a n x : Nat} (h : decomp rom a n = .error x) : rom.size ≤ x := by
  unfold decomp at h
  split at h
  · cases h; exact le_max_right _ _
  · cases h

/-- The epilogue of an INIT as one change of the channel (R113). -/
theorem initEpilogue_frame (st : StartArgs) (w : Work) :
    (initEpilogue st w).chan.kind = w.chan.kind ∧ (initEpilogue st w).chan.state = w.chan.state ∧
    (initEpilogue st w).chan.owner = w.chan.owner ∧ (initEpilogue st w).chan.gen = w.chan.gen ∧
    (initEpilogue st w).buf = w.buf ∧ (initEpilogue st w).events = w.events := by
  obtain ⟨h1, h2, h3, h4⟩ := setVolume_frame st.vol st.pan w.chan
  exact ⟨h1, h2, h3, h4, rfl, rfl⟩

theorem ruleInitPcm8_end (cfg : Cfg) (rom : Memory) (st : StartArgs) (off : U32) (fixed comp : Bool) (i : Nat) (w : Work) :
    RuleEnd i rom w (ruleInitPcm8 cfg rom st off fixed comp i w) := by
  unfold ruleInitPcm8
  apply kindCheck_end
  split
  · rename_i a ha
    exact ⟨.refl i w, a, rfl, readHeader_error_le ha⟩
  · rename_i h _
    have pro : ∀ w', w'.chan.kind = w.chan.kind → w'.chan.state = .initializing → w'.chan.owner = some st.owner →
        w'.chan.gen = w.chan.gen + 1 → w'.buf = w.buf → w'.events = (w.attach i st.owner st.note).events →
        Moves i w w' := fun w' h1 h2 h3 h4 h5 h6 => .started h1 h2 h3 h4 h5 h6
    have epi : ∀ w', w'.chan.kind = w.chan.kind → w'.chan.state = .initializing → w'.chan.owner = some st.owner →
        w'.chan.gen = w.chan.gen + 1 → w'.buf = w.buf → w'.events = (w.attach i st.owner st.note).events →
        Moves i w (initEpilogue st w') := by
      intro w' h1 h2 h3 h4 h5 h6
      obtain ⟨e1, e2, e3, e4, e5, e6⟩ := initEpilogue_frame st w'
      exact .started (e1.trans h1) (e2.trans h2) (e3.trans h3) (e4.trans h4) (e5.trans h5) (e6.trans h6)
    have detect : ∀ w', w'.chan.kind = w.chan.kind → w'.chan.state = .initializing → w'.chan.owner = some st.owner →
        w'.chan.gen = w.chan.gen + 1 → w'.buf = w.buf → w'.events = (w.attach i st.owner st.note).events →
        RuleEnd i rom w ((pcm8Detect cfg rom w').andThen fun w => .done (initEpilogue st w)) := by
      intro w' h1 h2 h3 h4 h5 h6
      unfold pcm8Detect
      dsimp only
      split
      · split
        · rename_i a ha
          refine ⟨?_, a, rfl, readSynthParams_error_le ha⟩
          exact pro _ h1 h2 h3 h4 h5 h6
        · change Moves i w (initEpilogue st _)
          exact epi _ h1 h2 h3 h4 h5 h6
      · change Moves i w (initEpilogue st _)
        exact epi _ h1 h2 h3 h4 h5 h6
    unfold pcm8Decode
    split
    · split
      · rename_i a ha
        refine ⟨?_, a, rfl, decomp_error_le ha⟩
        exact pro _ rfl rfl rfl rfl rfl rfl
      · exact detect _ rfl rfl rfl rfl rfl rfl
    · exact detect _ rfl rfl rfl rfl rfl rfl

/-- The end of a PSG INIT. -/
theorem psgEpilogue_moves (cfg : Cfg) (st : StartArgs) (i : Nat) (w : Work) (f : Chan → Chan)
    (h : ∀ c, (f c).kind = c.kind ∧ (f c).state = c.state ∧ (f c).owner = c.owner ∧ (f c).gen = c.gen) :
    Moves i w (psgEpilogue cfg st ((psgPrologue i st w).onChan f)) := by
  obtain ⟨h1, h2, h3, h4⟩ := h (psgPrologue i st w).chan
  have hp : ∀ c, (psgPhaseInit cfg c).kind = c.kind ∧ (psgPhaseInit cfg c).state = c.state ∧
      (psgPhaseInit cfg c).owner = c.owner ∧ (psgPhaseInit cfg c).gen = c.gen := by
    intro c
    unfold psgPhaseInit
    split <;> exact ⟨rfl, rfl, rfl, rfl⟩
  obtain ⟨p1, p2, p3, p4⟩ := hp ((psgPrologue i st w).onChan f).chan
  obtain ⟨e1, e2, e3, e4, e5, e6⟩ := initEpilogue_frame st (((psgPrologue i st w).onChan f).onChan (psgPhaseInit cfg))
  exact .started (note := st.note) (e1.trans (p1.trans h1)) (e2.trans (p2.trans h2)) (e3.trans (p3.trans h3)) (e4.trans (p4.trans h4)) e5 e6

theorem ruleInitSquare_end (cfg : Cfg) (rom : Memory) (st : StartArgs) (duty : BitVec 2) (i : Nat) (w : Work) :
    RuleEnd i rom w (ruleInitSquare cfg st duty i w) :=
  kindCheck_end (psgEpilogue_moves cfg st i w _ fun _ => ⟨rfl, rfl, rfl, rfl⟩)

theorem ruleInitWave_end (cfg : Cfg) (rom : Memory) (st : StartArgs) (off : U32) (i : Nat) (w : Work) :
    RuleEnd i rom w (ruleInitWave cfg rom st off i w) := by
  unfold ruleInitWave
  apply kindCheck_end
  split
  · rename_i a ha
    exact ⟨.started (o := st.owner) (note := st.note) rfl rfl rfl rfl rfl rfl, a, rfl, memRead_error_le ha⟩
  · exact psgEpilogue_moves cfg st i w _ fun _ => ⟨rfl, rfl, rfl, rfl⟩

theorem ruleInitNoise_end (cfg : Cfg) (rom : Memory) (st : StartArgs) (npat : NoisePat) (i : Nat) (w : Work) :
    RuleEnd i rom w (ruleInitNoise cfg st npat i w) :=
  kindCheck_end (psgEpilogue_moves cfg st i w _ fun _ => ⟨rfl, rfl, rfl, rfl⟩)

theorem setVolume_moves (i : Nat) (vol : U8) (pan : I8) (w : Work) : Moves i w (w.onChan (setVolume vol pan)) := by
  obtain ⟨h1, h2, h3, h4⟩ := setVolume_frame vol pan w.chan
  exact .onChan h1 h2 h3 h4

theorem setPitch_moves (i : Nat) (pitch : I32) (w : Work) : Moves i w (w.onChan (setPitch pitch)) :=
  .onChan rfl rfl rfl rfl

/-- Into Releasing from a channel that is not late. -/
theorem releasing_moves {i : Nat} {w : Work} (h : late w.chan = false) (f : Chan → Chan) (hk : (f w.chan).kind = w.chan.kind)
    (hs : (f w.chan).state = .releasing) (ho : (f w.chan).owner = w.chan.owner) (hg : (f w.chan).gen = w.chan.gen) :
    Moves i w (w.onChan f) := by
  refine ⟨hk, rfl, .inl ⟨?_, hg⟩, [], (List.append_nil _).symm, by
    rw [show (w.onChan f).chan.owner = w.chan.owner from ho]; exact .refl i _⟩
  rw [show (w.onChan f).chan.state = .releasing from hs]
  have h := late_eq_false.mp h
  cases hs : w.chan.state <;> simp_all [stateCode]

theorem psgRelease_moves (i : Nat) (w : Work) : Moves i w (psgRelease i w) := by
  unfold psgRelease
  split
  · have := Moves.stop i (w.onChan fun c => { c with vel := 0 })
    exact ⟨this.kind, this.length, this.forward, this.owner⟩
  · split
    · exact .stop i w
    · exact .onChan rfl rfl rfl rfl

theorem ruleRelease_end (rom : Memory) (i : Nat) (w : Work) : RuleEnd i rom w (ruleRelease i w) := by
  cases h : late w.chan with
  | true => rw [ruleRelease_late h]; exact .refl i w
  | false =>
    by_cases hk : w.chan.kind = .pcm8
    · rw [ruleRelease_pcm8 h hk]
      exact releasing_moves h _ rfl rfl rfl rfl
    · rw [ruleRelease_psg h hk]
      exact psgRelease_moves i w

/-- The expiry of a channel that is not late. -/
theorem expire_moves {i : Nat} {w : Work} (h : late w.chan = false) : Moves i w (expire i w) := by
  unfold expire
  split
  · exact releasing_moves h _ rfl rfl rfl rfl
  · unfold psgExpire
    split
    · by_cases hR : w.chan.R = 0
      · have := Moves.stop i (w.onChan fun c => { c with vel := 0 })
        have e : (w.onChan fun c => if c.R = 0 then { c with vel := 0 } else c) = w.onChan fun c => { c with vel := 0 } := by
          simp only [Work.onChan, if_pos hR]
        rw [e]
        exact ⟨this.kind, this.length, this.forward, this.owner⟩
      · have e : (w.onChan fun c => if c.R = 0 then { c with vel := 0 } else c) = w := by
          simp only [Work.onChan, if_neg hR]
        rw [e]
        exact .stop i w
    · exact releasing_moves h _ rfl rfl rfl rfl

theorem ruleTickNote_end (rom : Memory) (i : Nat) (w : Work) : RuleEnd i rom w (ruleTickNote i w) := by
  cases h : late w.chan with
  | true => rw [ruleTickNote_late h]; exact .answer false (.refl i w)
  | false =>
    by_cases h0 : w.chan.note.duration = 0
    · rw [ruleTickNote_endless h h0]; exact .answer true (.refl i w)
    · by_cases h1 : w.chan.note.duration = 1
      · rw [ruleTickNote_ends h h1]
        have e := expire_moves (i := i) (w := w.onChan (withDuration 0)) h
        exact ⟨e.kind, e.length, e.forward, e.owner⟩
      · rw [ruleTickNote_counts h h0 h1]
        exact .answer true (.onChan rfl rfl rfl rfl)

/-- A generator moves. -/
theorem GenEnd.moves {ch : Nat} {rom : Memory} {w : Work} {r : Run} (h : GenEnd ch rom w r) : RuleEnd ch rom w r := by
  rcases h with ⟨w', rfl, h⟩ | ⟨w', cause, rfl, h1, h2, h3, h4, h5⟩
  · rcases h.chan with ⟨h1, h2⟩ | ⟨c, h1, h2, h3⟩
    · refine ⟨by rw [h1], h.length, .inl ⟨by rw [h1], by rw [h1]⟩, [], by rw [h2, List.append_nil], ?_⟩
      rw [show w'.chan.owner = w.chan.owner by rw [h1]]
      exact .refl ch _
    · have e : c.owner = w.chan.owner := by rw [h1]
      refine ⟨by rw [h2, h1], h.length, .inl ⟨?_, by rw [h2, h1]⟩, detachEvents ch w.chan.owner, by rw [h3, e], ?_⟩
      · rw [h2]
        exact stateCode_le_dead _
      · rw [h2]
        exact .detach ch _
  · refine ⟨⟨by rw [h2], h5, .inl ⟨by rw [h2], by rw [h2]⟩, [], by rw [h3, List.append_nil], ?_⟩, h1⟩
    rw [show w'.chan.owner = w.chan.owner by rw [h2]]
    exact .refl ch _

theorem ruleProcess_end (cfg : Cfg) (rom : Memory) (i : Nat) (w : Work) : RuleEnd i rom w (ruleProcess cfg rom i w) := by
  have step := (envStep_end cfg i w).moves
  have step2 := envStep_end cfg i w
  have gen := (afterEnv_end cfg rom i (envStep cfg i w)).moves
  have glue : ∀ w', Moves i (envStep cfg i w) w' → w'.chan.gen = (envStep cfg i w).chan.gen →
      stateCode (envStep cfg i w).chan.state ≤ stateCode w'.chan.state → Moves i w w' := by
    intro w' h hg hs
    refine ⟨h.kind.trans step.kind, h.length.trans step.length, ?_, ?_⟩
    · have hw : stateCode w.chan.state ≤ stateCode (envStep cfg i w).chan.state ∧
          (envStep cfg i w).chan.gen = w.chan.gen := by
        cases step2 with
        | goes st v k nx eq dead mono => rw [eq]; exact ⟨mono, rfl⟩
        | stops v k nx eq => rw [eq]; exact ⟨stateCode_le_dead _, rfl⟩
      exact .inl ⟨hw.1.trans hs, hg.trans hw.2⟩
    · obtain ⟨ev, h1, h2⟩ := step.owner
      obtain ⟨ev', h1', h2'⟩ := h.owner
      exact ⟨ev ++ ev', by rw [h1', h1, List.append_assoc], h2.trans h2'⟩
  have same : ∀ w' : Work, (SamePlay (envStep cfg i w).chan w'.chan ∨
      ∃ c, SamePlay (envStep cfg i w).chan c ∧ w'.chan = { c with state := .dead, owner := none }) →
      w'.chan.gen = (envStep cfg i w).chan.gen ∧ stateCode (envStep cfg i w).chan.state ≤ stateCode w'.chan.state := by
    intro w' h
    rcases h with h | ⟨c, h, h'⟩
    · rw [h]; exact ⟨rfl, le_rfl⟩
    · rw [h', h]; exact ⟨rfl, stateCode_le_dead _⟩
  have h := afterEnv_end cfg rom i (envStep cfg i w)
  unfold ruleProcess
  rcases h with ⟨w', e, h⟩ | ⟨w', cause, e, h1, h2, h3⟩
  · rw [e] at gen ⊢
    have := same w' (h.chan.imp (fun h => h.1) (fun ⟨c, h1, h2, _⟩ => ⟨c, h1, h2⟩))
    exact glue w' gen this.1 this.2
  · rw [e] at gen ⊢
    have := same w' (.inl h2)
    exact ⟨glue w' gen.1 this.1 this.2, gen.2⟩

/-- The rule of a one-channel command, by its instruction. -/
def ruleOf (s : State) : Instr → Nat → Work → Run
  | .initPcm8 _ st off fixed comp => ruleInitPcm8 s.cfg s.rom st off fixed comp
  | .initSquare _ st duty => ruleInitSquare s.cfg st duty
  | .initWave _ st off => ruleInitWave s.cfg s.rom st off
  | .initNoise _ st npat => ruleInitNoise s.cfg st npat
  | .setVolume _ vol pan => fun _ w => .done (w.onChan (setVolume vol pan))
  | .setPitch _ pitch => fun _ w => .done (w.onChan (setPitch pitch))
  | .release _ => ruleRelease
  | .tickNote _ => ruleTickNote
  | .process _ _ => ruleProcess s.cfg s.rom
  | .stop _ => fun i w => .done (w.stop i)
  | .mixBlock _ => fun _ w => .done w

/-- The block a command works on. -/
def blockOf (s : State) (i : Instr) : List Rat :=
  match i.buf? with
  | some b => bufOf b s
  | none => s.buf

/-- Every one-channel command is its rule within the one frame (R110). -/
theorem exec_eq {i : Instr} {ch : U8} (h : i.channel? = some ch) (s : State) :
    exec i s = onChannel i.opcode ch (blockOf s i) s (ruleOf s i) := by
  cases i <;> first | (cases h; rfl) | cases h

/-- What the rule of any one-channel command can do. -/
theorem ruleOf_end (s : State) (i : Instr) (ch : Nat) (w : Work) : RuleEnd ch s.rom w (ruleOf s i ch w) := by
  cases i with
  | initPcm8 c st off fixed comp => exact ruleInitPcm8_end s.cfg s.rom st off fixed comp ch w
  | initSquare c st duty => exact ruleInitSquare_end s.cfg s.rom st duty ch w
  | initWave c st off => exact ruleInitWave_end s.cfg s.rom st off ch w
  | initNoise c st npat => exact ruleInitNoise_end s.cfg s.rom st npat ch w
  | setVolume c vol pan => exact setVolume_moves ch vol pan w
  | setPitch c pitch => exact setPitch_moves ch pitch w
  | release c => exact ruleRelease_end s.rom ch w
  | tickNote c => exact ruleTickNote_end s.rom ch w
  | process c b => exact ruleProcess_end s.cfg s.rom ch w
  | stop c => exact Moves.stop ch w
  | mixBlock b => exact Moves.refl ch w

end Sys2Proof.Machine
end

