-- ==== Sys2Proof/Laws/Mix.lean ====
section
/-! SUPPORT. What `MIX_BLOCK` can do (R297): `mixChannels` channel by channel. -/

namespace Sys2Proof.Machine

/-- Replacing the block twice. -/
theorem Run.withBuf_withBuf (b b' : List Rat) (r : Run) : Run.withBuf b (Run.withBuf b' r) = Run.withBuf b r := by
  cases r <;> rfl

/-- `PROCESS` of a channel on any two blocks: the same in all but the block (R73). -/
theorem ruleProcess_block (cfg : Cfg) (rom : Memory) (i : Nat) (c : Chan) :
    ∃ (d : Nat → Rat) (r0 : Run), ∀ buf, ruleProcess cfg rom i (Work.start c buf) = r0.withBuf (addAll d buf) :=
  ruleProcess_additive cfg rom i (Work.start c [])

/-- Through on one block is through on every block, with the same channel, events and result (R73). -/
theorem ruleProcess_done {cfg : Cfg} {rom : Memory} {i : Nat} {c : Chan} {buf : List Rat} {w : Work}
    (h : ruleProcess cfg rom i (Work.start c buf) = .done w) (buf' : List Rat) :
    ∃ w', ruleProcess cfg rom i (Work.start c buf') = .done w' ∧ w'.chan = w.chan ∧ w'.events = w.events ∧
      w'.result = w.result := by
  obtain ⟨d, r0, e⟩ := ruleProcess_block cfg rom i c
  rw [e] at h ⊢
  cases r0 with
  | done w0 => cases h; exact ⟨_, rfl, rfl, rfl, rfl⟩
  | raised w0 cause => cases h

/-- A fault on one block is the same fault on every block. -/
theorem ruleProcess_raised {cfg : Cfg} {rom : Memory} {i : Nat} {c : Chan} {buf : List Rat} {w : Work} {cause : FaultCause}
    (h : ruleProcess cfg rom i (Work.start c buf) = .raised w cause) (buf' : List Rat) :
    ∃ w', ruleProcess cfg rom i (Work.start c buf') = .raised w' cause ∧ w'.chan = w.chan ∧ w'.events = w.events := by
  obtain ⟨d, r0, e⟩ := ruleProcess_block cfg rom i c
  rw [e] at h ⊢
  cases r0 with
  | done w0 => cases h
  | raised w0 cause0 => cases h; exact ⟨_, rfl, rfl, rfl⟩

/-- `mixChannels` of a channel that is through, and the rest. -/
theorem mixChannels_done {cfg : Cfg} {rom : Memory} {i : Nat} {c : Chan} {rest : List Chan} {buf : List Rat}
    {ev : List Event} {w : Work} (h : ruleProcess cfg rom i (Work.start c buf) = .done w) :
    mixChannels cfg rom i (c :: rest) buf ev =
      { mixChannels cfg rom (i + 1) rest w.buf (ev ++ w.events) with
        chs := w.chan :: (mixChannels cfg rom (i + 1) rest w.buf (ev ++ w.events)).chs } := by
  rw [mixChannels, h]

/-- `mixChannels` of a channel that faults. -/
theorem mixChannels_raised {cfg : Cfg} {rom : Memory} {i : Nat} {c : Chan} {rest : List Chan} {buf : List Rat}
    {ev : List Event} {w : Work} {cause : FaultCause}
    (h : ruleProcess cfg rom i (Work.start c buf) = .raised w cause) :
    mixChannels cfg rom i (c :: rest) buf ev = ⟨w.chan :: rest, w.buf, ev ++ w.events, some (i, cause)⟩ := by
  rw [mixChannels, h]

/-- What a mix can do to the channels of a list: as many as before, each through, faulted, or as it was. -/
theorem mixChannels_chan (cfg : Cfg) (rom : Memory) (i : Nat) (chs : List Chan) (buf : List Rat) (ev : List Event) :
    (mixChannels cfg rom i chs buf ev).chs.length = chs.length ∧
    (mixChannels cfg rom i chs buf ev).buf.length = buf.length ∧
    ∀ (j : Nat) (c : Chan), chs[j]? = some c →
      (mixChannels cfg rom i chs buf ev).chs[j]? = some c ∨
      (∃ b w, ruleProcess cfg rom (i + j) (Work.start c b) = .done w ∧
        (mixChannels cfg rom i chs buf ev).chs[j]? = some w.chan) ∨
      ∃ b w cause, ruleProcess cfg rom (i + j) (Work.start c b) = .raised w cause ∧
        (mixChannels cfg rom i chs buf ev).chs[j]? = some w.chan := by
  induction chs generalizing i buf ev with
  | nil => exact ⟨rfl, rfl, fun j c h => by simp at h⟩
  | cons c0 rest ih =>
    have hl := ruleProcess_end cfg rom i (Work.start c0 buf)
    cases hr : ruleProcess cfg rom i (Work.start c0 buf) with
    | done w =>
      rw [hr] at hl
      have hl : w.buf.length = buf.length := hl.length
      obtain ⟨h1, h2, h3⟩ := ih (i + 1) w.buf (ev ++ w.events)
      rw [mixChannels_done hr]
      refine ⟨by simp [h1], by rw [← hl]; exact h2, ?_⟩
      intro j c hj
      cases j with
      | zero => cases hj; exact .inr (.inl ⟨buf, w, hr, rfl⟩)
      | succ j =>
        have := h3 j c (by simpa using hj)
        rw [show i + 1 + j = i + (j + 1) by omega] at this
        simpa using this
    | raised w cause =>
      rw [hr] at hl
      have hl : w.buf.length = buf.length := hl.1.length
      rw [mixChannels_raised hr]
      refine ⟨by simp, hl, ?_⟩
      intro j c hj
      cases j with
      | zero => cases hj; exact .inr (.inr ⟨buf, w, cause, hr, rfl⟩)
      | succ j => exact .inl (by simpa using hj)

end Sys2Proof.Machine
end

