-- ==== Sys2Proof/Laws/Invariant.lean ====
section
/-! SUPPORT. The parts of a rule, each keeping `Chan.Ok`. -/

namespace Sys2Proof.Machine

theorem peakOf_toNat (velocity vol : U8) : (peakOf velocity vol).toNat = velocity.toNat * vol.toNat / 2 ^ 10 := by
  have h : velocity.toNat * vol.toNat ≤ 255 * 255 :=
    Nat.mul_le_mul (Nat.le_of_lt_succ velocity.isLt) (Nat.le_of_lt_succ vol.isLt)
  simp only [peakOf, Params.psgPeakShift, BitVec.toNat_ofNat]
  omega

/-- R212: the peak is at most 63. -/
theorem peakOf_le (velocity vol : U8) : (peakOf velocity vol).toNat ≤ 63 := by
  have h : velocity.toNat * vol.toNat ≤ 255 * 255 :=
    Nat.mul_le_mul (Nat.le_of_lt_succ velocity.isLt) (Nat.le_of_lt_succ vol.isLt)
  rw [peakOf_toNat]
  omega

/-- R213: the sustain level is at most the peak. -/
theorem susOf_le {peak s : U8} (h : s.toNat < 16) : (susOf peak s).toNat ≤ peak.toNat := by
  have : peak.toNat * s.toNat ≤ peak.toNat * 15 := Nat.mul_le_mul_left _ (by omega)
  simp only [susOf, BitVec.toNat_ofNat]
  omega

theorem pow2_nonneg (k : Int) : 0 ≤ pow2 k := (pow2_pos k).le

/-- R121: positive. -/
theorem exp2_pos (e : Int) : 0 < exp2 e := (pow2_pos _).trans_le (exp2Within_ge _ _)

/-- R145, R254, R255: no frequency is negative. -/
theorem freqOf_nonneg (c : Chan) : 0 ≤ freqOf c := by
  unfold freqOf
  split
  · exact mul_nonneg (Nat.cast_nonneg _) (exp2_pos _).le
  · exact mul_nonneg (by norm_num [Params.squareBase]) (exp2_pos _).le
  · exact mul_nonneg (by norm_num [Params.waveBase]) (exp2_pos _).le
  · exact le_min ((by norm_num [Params.noiseFMin] : (0 : Rat) ≤ Params.noiseFMin).trans (le_max_right _ _))
      (by norm_num [Params.noiseFMax])

theorem waveDecode_length {bytes : List U8} (h : bytes.length = 16) : (waveDecode bytes).length = 32 := by
  simp [waveDecode, nibbles, h]

theorem Chan.Ok.setPitch {c : Chan} (h : c.Ok) (pitch : I32) : (Machine.setPitch pitch c).Ok :=
  ⟨h.owned, h.wave, h.dec, freqOf_nonneg _, fun hk =>
    ⟨(h.psg hk).rates, (h.psg hk).levels, (h.psg hk).not_dying, (h.psg hk).rising, (h.psg hk).decaying, (h.psg hk).index⟩⟩

theorem PsgOk.setVolume {c : Chan} (h : PsgOk c) (vol : U8) (pan : I8) : PsgOk (psgSetVolume vol pan c) := by
  have hs := susOf_le (peak := peakOf c.note.velocity vol) h.rates.2.2.1
  have hp := peakOf_le c.note.velocity vol
  refine ⟨h.rates, ⟨hs, hp, ?_⟩, h.not_dying, h.rising, h.decaying, h.index⟩
  change (if c.state = .playing then susOf (peakOf c.note.velocity vol) c.S else c.vel).toNat ≤ 63
  split
  · exact hs.trans hp
  · exact h.levels.2.2

theorem Chan.Ok.setVolume {c : Chan} (h : c.Ok) (vol : U8) (pan : I8) : (Machine.setVolume vol pan c).Ok := by
  unfold Machine.setVolume
  split
  · exact h
  · split
    · exact ⟨h.owned, h.wave, h.dec, h.freq, fun hk => absurd ‹c.kind = .pcm8› hk⟩
    · exact ⟨h.owned, h.wave, h.dec, h.freq, fun hk => (h.psg hk).setVolume vol pan⟩

/-- A channel stopped, with any velocity and hold counter that are in range. -/
theorem Chan.Ok.stop {c : Chan} (h : c.Ok) (v k : U8) (nx : EnvState) (hv : c.kind ≠ .pcm8 → v.toNat ≤ 63) :
    ({ c with vel := v, step := k, next := nx, state := .dead, owner := none } : Chan).Ok :=
  ⟨by simp, h.wave, h.dec, h.freq, fun hk =>
    ⟨(h.psg hk).rates, ⟨(h.psg hk).levels.1, (h.psg hk).levels.2.1, hv hk⟩, by simp, by simp, by simp, (h.psg hk).index⟩⟩

/-- A channel that plays on: another play position within its table. -/
theorem Chan.Ok.play {c : Chan} (h : c.Ok) (p : BitVec 32) (f : BitVec Config.F)
    (hp : c.kind ≠ .pcm8 → p.toNat < indexBound c.kind) : ({ c with pos := p, frac := f } : Chan).Ok :=
  ⟨h.owned, h.wave, h.dec, h.freq, fun hk =>
    ⟨(h.psg hk).rates, (h.psg hk).levels, (h.psg hk).not_dying, (h.psg hk).rising, (h.psg hk).decaying, hp hk⟩⟩

/-- A channel that goes on after an envelope step of its family. -/
theorem Chan.Ok.goes {c : Chan} (h : c.Ok) (st : EnvState) (v k : U8) (nx : EnvState)
    (hd : st = .dead ↔ c.state = .dead) (hp : c.kind ≠ .pcm8 → v.toNat ≤ 63 ∧ st ≠ .dying ∧
      (st = .rising → 1 ≤ c.A.toNat ∧ (nx = .decaying → 1 ≤ c.D.toNat)) ∧ (st = .decaying → 1 ≤ c.D.toNat)) :
    (Chan.withEnv st v k nx c).Ok :=
  ⟨hd.trans h.owned, h.wave, h.dec, h.freq, fun hk =>
    ⟨(h.psg hk).rates, ⟨(h.psg hk).levels.1, (h.psg hk).levels.2.1, (hp hk).1⟩, (hp hk).2.1, (hp hk).2.2.1, (hp hk).2.2.2,
      (h.psg hk).index⟩⟩

theorem relEntry_ok (i : Nat) {w : Work} (h : w.chan.Ok) (hk : w.chan.kind ≠ .pcm8) (hs : w.chan.state = .releasing) :
    (relEntry i w).chan.Ok := by
  have p := h.psg hk
  have hl := p.levels.2.2
  by_cases hR : w.chan.R = 0
  · rw [relEntry_stops hR]
    exact h.stop 0 w.chan.step w.chan.next fun _ => by simp
  · rw [relEntry_falls hR]
    by_cases hv : (w.chan.vel.toNat : Int) - 1 ≤ 0
    · have := h.goes w.chan.state 0 0 .dying Iff.rfl fun _ => ⟨by simp, p.not_dying, by simp [hs], p.decaying⟩
      simp only [Work.onChan, if_pos hv]
      exact this
    · have hv' : (w.chan.vel - 1).toNat ≤ 63 := by bv_omega
      have := h.goes w.chan.state (w.chan.vel - 1) 0 w.chan.next Iff.rfl fun _ =>
        ⟨hv', p.not_dying, by simp [hs], p.decaying⟩
      simp only [Work.onChan, if_neg hv]
      exact this

theorem enterReleasing_ok (i : Nat) {w : Work} (h : w.chan.Ok) (hk : w.chan.kind ≠ .pcm8) (hs : w.chan.state ≠ .dead) :
    (enterReleasing i w).chan.Ok := by
  have p := h.psg hk
  have h' : ({ w.chan with state := .releasing } : Chan).Ok :=
    h.goes .releasing w.chan.vel w.chan.step w.chan.next (by simp [hs]) fun _ =>
      ⟨p.levels.2.2, by simp, by simp, by simp⟩
  exact relEntry_ok i (w := w.onChan fun c => { c with state := .releasing }) h' hk rfl

theorem psgCount_ok {c : Chan} (h : c.Ok) : (psgCount c).Ok :=
  h.goes c.state c.vel (c.step + 1) c.next Iff.rfl fun hk =>
    ⟨(h.psg hk).levels.2.2, (h.psg hk).not_dying, (h.psg hk).rising, (h.psg hk).decaying⟩

theorem decEntry_ok {c : Chan} (h : c.Ok) (hs : c.state = .decaying) : (decEntry c).Ok := by
  unfold decEntry
  split
  · exact h.goes c.state c.sus 0 .playing Iff.rfl fun hk =>
      ⟨(h.psg hk).levels.1.trans (h.psg hk).levels.2.1, (h.psg hk).not_dying, by simp [hs], (h.psg hk).decaying⟩
  · rename_i hv
    exact h.goes c.state (c.vel - 1) 0 c.next Iff.rfl fun hk =>
      ⟨by have := (h.psg hk).levels.2.2; bv_omega, (h.psg hk).not_dying, by simp [hs], (h.psg hk).decaying⟩

theorem enterPlaying_ok {c : Chan} (h : c.Ok) (hs : c.state ≠ .dead) : (enterPlaying c).Ok :=
  h.goes .playing c.vel 0 c.next (by simp [hs]) fun hk => ⟨(h.psg hk).levels.2.2, by simp, by simp, by simp⟩

theorem psgInitializing_ok (cfg : Cfg) {c : Chan} (h : c.Ok) (hk : c.kind ≠ .pcm8) (hs : c.state = .initializing) :
    (psgInitializing cfg c).Ok := by
  have p := h.psg hk
  have hsus := p.levels.1.trans p.levels.2.1
  have hn : (if cfg.psgInitDropsStagedRelease = true ∨ c.next ≠ .releasing then EnvState.rising else c.next) ≠ .decaying := by
    split
    · decide
    · rename_i h1
      rw [not_or, not_not] at h1
      rw [h1.2]
      decide
  unfold psgInitializing
  dsimp only
  split
  · exact h.goes .playing c.sus 0 _ (by simp [hs]) fun _ => ⟨hsus, by simp, by simp, by simp⟩
  · rename_i h1
    have hD : c.A = 0 → 1 ≤ c.D.toNat := by
      intro hA
      have hD : ¬ c.D = 0 := fun hD => h1 (.inl ⟨hA, hD⟩)
      by_contra hlt
      exact hD (BitVec.eq_of_toNat_eq (by simpa using hlt))
    split
    · rename_i h2
      refine h.goes .decaying _ 0 _ (by simp [hs]) fun _ => ⟨?_, by simp, by simp, fun _ => hD h2.1⟩
      rw [BitVec.toNat_ofNat]
      have := p.levels.2.1
      omega
    · split
      · exact h.goes .playing c.sus 0 _ (by simp [hs]) fun _ => ⟨hsus, by simp, by simp, by simp⟩
      · rename_i hA
        refine h.goes .rising 1 0 _ (by simp [hs]) fun _ => ⟨by simp, by simp, fun _ => ⟨?_, fun h => absurd h hn⟩, by simp⟩
        by_contra hlt
        exact hA (BitVec.eq_of_toNat_eq (by simpa using hlt))

theorem psgClimb_ok {c : Chan} (h : c.Ok) (hk : c.kind ≠ .pcm8) (hs : c.state = .rising) : (psgClimb c).Ok := by
  have p := h.psg hk
  have hA := (p.rising hs).1
  unfold psgClimb
  split
  · refine h.goes c.state c.peak 0 _ Iff.rfl fun _ => ⟨p.levels.2.1, p.not_dying, fun _ => ⟨hA, ?_⟩, p.decaying⟩
    split
    · intro h; cases h
    · rename_i hD
      intro _
      rw [not_or] at hD
      by_contra hlt
      exact hD.1 (BitVec.eq_of_toNat_eq (by simpa using hlt))
  · rename_i hv
    refine h.goes c.state (c.vel + 1) 0 c.next Iff.rfl fun _ => ⟨?_, p.not_dying, p.rising, p.decaying⟩
    have := p.levels
    bv_omega

theorem psgEnvStep_ok (cfg : Cfg) (i : Nat) {w : Work} (h : w.chan.Ok) (hk : w.chan.kind ≠ .pcm8) :
    (psgEnvStep cfg i w).chan.Ok := by
  have p := h.psg hk
  have hc : (w.onChan psgCount).chan.Ok := psgCount_ok h
  have hkc : (w.onChan psgCount).chan.kind ≠ .pcm8 := hk
  unfold psgEnvStep
  cases hs : w.chan.state with
  | initializing => exact psgInitializing_ok cfg h hk hs
  | rising =>
    have hsc : (w.onChan psgCount).chan.state = .rising := hs
    have hnd : (w.onChan psgCount).chan.state ≠ .dead := by rw [hsc]; decide
    by_cases hb : w.chan.A.toNat ≤ (w.chan.step + 1).toNat
    · dsimp only
      rw [psgRising_boundary hb]
      split
      · rename_i hn
        refine decEntry_ok (c := { (w.onChan psgCount).chan with state := .decaying }) ?_ rfl
        exact hc.goes .decaying _ _ _ (iff_of_false (by decide) hnd) fun _ =>
          ⟨p.levels.2.2, by simp, by simp, fun _ => (p.rising hs).2 hn⟩
      · exact enterPlaying_ok hc hnd
      · exact enterReleasing_ok i hc hkc hnd
      · exact psgClimb_ok hc hkc hsc
    · dsimp only
      rw [psgRising_hold hb]
      exact hc
  | decaying =>
    have hsc : (w.onChan psgCount).chan.state = .decaying := hs
    have hnd : (w.onChan psgCount).chan.state ≠ .dead := by rw [hsc]; decide
    by_cases hb : w.chan.D.toNat ≤ (w.chan.step + 1).toNat
    · dsimp only
      rw [psgDecaying_boundary hb]
      split
      · exact enterPlaying_ok hc hnd
      · exact enterReleasing_ok i hc hkc hnd
      · exact decEntry_ok hc hsc
    · dsimp only
      rw [psgDecaying_hold hb]
      exact hc
  | playing =>
    have hsc : (w.onChan psgCount).chan.state = .playing := hs
    by_cases hn : w.chan.next = .releasing
    · dsimp only
      rw [psgPlaying_staged hn]
      exact enterReleasing_ok i hc hkc (by rw [hsc]; decide)
    · dsimp only
      rw [psgPlaying_holds hn]
      exact hc.goes (w.onChan psgCount).chan.state w.chan.vel 0 w.chan.next Iff.rfl fun _ =>
        ⟨p.levels.2.2, p.not_dying, p.rising, p.decaying⟩
  | releasing =>
    by_cases hb : w.chan.R.toNat ≤ (w.chan.step + 1).toNat
    · by_cases hn : w.chan.next = .dying
      · dsimp only
        rw [psgReleasing_ends hb hn]
        exact h.stop w.chan.vel _ w.chan.next fun _ => p.levels.2.2
      · dsimp only
        rw [psgReleasing_boundary hb hn]
        exact relEntry_ok i hc hkc hs
    · dsimp only
      rw [psgReleasing_hold hb]
      exact hc
  | dying => exact h
  | dead => exact h

theorem pcm8EnvStep_ok (i : Nat) {w : Work} (h : w.chan.Ok) (hk : w.chan.kind = .pcm8) : (pcm8EnvStep i w).chan.Ok := by
  have hkf : ∀ w' : Work, EnvEnd i w w' → w'.chan.Ok := by
    intro w' he
    cases he with
    | goes st v k nx eq dead mono => rw [eq]; exact h.goes st v k nx dead fun hn => absurd hk hn
    | stops v k nx eq => rw [eq]; exact h.stop v k nx fun hn => absurd hk hn
  exact hkf _ (pcm8EnvStep_end i w)

/-- The envelope step keeps `Chan.Ok`. -/
theorem envStep_ok (cfg : Cfg) (i : Nat) {w : Work} (h : w.chan.Ok) : (envStep cfg i w).chan.Ok := by
  unfold envStep
  split
  · exact pcm8EnvStep_ok i h ‹_›
  · exact psgEnvStep_ok cfg i h ‹_›

/-- The channel a rule leaves. -/
def Run.chan : Run → Chan
  | .done w => w.chan
  | .raised w _ => w.chan

/-- A generator whose frames stay within the table keeps `Chan.Ok`. -/
theorem GenEnd.ok {ch : Nat} {rom : Memory} {w : Work} {r : Run} (h : GenEnd ch rom w r) (hc : w.chan.Ok)
    (hk : w.chan.kind = .pcm8) : r.chan.Ok := by
  rcases h with ⟨w', rfl, h⟩ | ⟨w', cause, rfl, h1, h2, h3⟩
  · rcases h.chan with ⟨h1, h2⟩ | ⟨c, h1, h2, h3⟩
    · change w'.chan.Ok
      rw [h1]
      exact hc.play _ _ fun hn => absurd hk hn
    · change w'.chan.Ok
      rw [h2, h1]
      exact (hc.play c.pos c.frac fun hn => absurd hk hn).stop w.chan.vel w.chan.step w.chan.next fun hn => absurd hk hn
  · change w'.chan.Ok
    rw [h2]
    exact hc.play _ _ fun hn => absurd hk hn

/-- An oscillator keeps `Chan.Ok`. -/
theorem tableGenerate_ok (cfg : Cfg) (ch : Nat) (gL gR : Rat) (len : Nat) (sample : Nat → Rat) {w : Work} (hc : w.chan.Ok)
    (hl : 0 < len) (hb : len ≤ indexBound w.chan.kind) (h32 : len ≤ 2 ^ 32) :
    (tableGenerate cfg ch gL gR len sample w).chan.Ok := by
  unfold tableGenerate
  dsimp only
  split
  · exact hc
  · have step : ∀ inc c c' s, (c.Ok ∧ c.kind = w.chan.kind) → tableTick len sample inc c = .go c' s →
        c'.Ok ∧ c'.kind = w.chan.kind := by
      intro inc c c' s h ht
      cases ht
      refine ⟨h.1.play _ _ fun _ => ?_, h.2⟩
      have hm := Nat.mod_lt (c.pos.toNat % len + advDelta c.frac inc) hl
      rw [BitVec.toNat_ofNat, Nat.mod_eq_of_lt (hm.trans_le h32), h.2]
      exact hm.trans_le hb
    rcases frames_cases (ch := ch) (gL := gL) (gR := gR) (P := fun c => c.Ok ∧ c.kind = w.chan.kind) (Q := fun _ => False)
      (step _) (fun c c' s _ ht => by cases ht) cfg.n 0 w ⟨hc, rfl⟩ with ⟨w', h1, h2⟩ | ⟨w', cause, h1, h2, h3⟩
    · rw [h1]
      rcases h2.chan with ⟨h3, _⟩ | ⟨c, h3, _⟩
      · exact h3.1
      · exact h3.elim
    · rw [h1]
      exact h2.1

/-- Any generator keeps `Chan.Ok`. -/
theorem generate_ok (cfg : Cfg) (rom : Memory) (i : Nat) (gL gR : Rat) {w : Work} (hc : w.chan.Ok) :
    (generate cfg rom i gL gR w).chan.Ok := by
  unfold generate
  split
  · exact (pcm8Generate_end cfg rom i gL gR w).ok hc ‹_›
  · rename_i hk
    exact tableGenerate_ok cfg i gL gR 8 _ hc (by norm_num) (by rw [hk]; exact le_rfl) (by norm_num)
  · rename_i hk
    exact tableGenerate_ok cfg i gL gR 32 _ hc (by norm_num) (by rw [hk]; exact le_rfl) (by norm_num)
  · rename_i hk
    refine tableGenerate_ok cfg i gL gR _ _ hc ?_ ?_ ?_
    · unfold noiseLen; split <;> norm_num
    · rw [hk]; unfold noiseLen indexBound; split <;> norm_num
    · unfold noiseLen; split <;> norm_num

/-- `PROCESS` keeps `Chan.Ok`. -/
theorem ruleProcess_ok (cfg : Cfg) (rom : Memory) (i : Nat) {w : Work} (hc : w.chan.Ok) :
    (ruleProcess cfg rom i w).chan.Ok := by
  unfold ruleProcess afterEnv
  split
  · exact envStep_ok cfg i hc
  · exact generate_ok cfg rom i _ _ (envStep_ok cfg i hc)

/-- A note begun on a channel of any kind, its rates within the kind's widths. -/
theorem Chan.Ok.begun {c : Chan} (h : c.Ok) (o : Nat) (g : U32) (n : Note) (a d su r : U8)
    (hr : c.kind ≠ .pcm8 → a.toNat < 8 ∧ d.toNat < 8 ∧ su.toNat < 16 ∧ r.toNat < 8) :
    ({ c with state := .initializing, owner := some o, gen := g, note := n, A := a, D := d, S := su, R := r } : Chan).Ok :=
  ⟨by simp, h.wave, h.dec, h.freq, fun hk =>
    ⟨hr hk, (h.psg hk).levels, by simp, by simp, by simp, (h.psg hk).index⟩⟩

/-- The masked rates lie within their widths (R90). -/
theorem maskTo_lt {bits : Nat} (hb : bits < 8) (x : U8) : (maskTo bits x).toNat < 2 ^ bits := by
  have h1 : 2 ^ bits < 2 ^ 8 := Nat.pow_lt_pow_right (by norm_num) hb
  have h2 : 0 < 2 ^ bits := Nat.two_pow_pos bits
  have e : (BitVec.ofNat 8 (2 ^ bits - 1)).toNat = 2 ^ bits - 1 := by rw [BitVec.toNat_ofNat, Nat.mod_eq_of_lt (by omega)]
  rw [maskTo, BitVec.toNat_and, e]
  have := @Nat.and_le_right x.toNat (2 ^ bits - 1)
  omega

theorem psgPrologue_ok (i : Nat) (st : StartArgs) {w : Work} (h : w.chan.Ok) : (psgPrologue i st w).chan.Ok :=
  h.begun st.owner _ _ _ _ _ _ fun _ =>
    ⟨maskTo_lt (bits := 3) (by norm_num) _, maskTo_lt (bits := 3) (by norm_num) _,
      maskTo_lt (bits := 4) (by norm_num) _, maskTo_lt (bits := 3) (by norm_num) _⟩

theorem initEpilogue_ok (st : StartArgs) {w : Work} (h : w.chan.Ok) : (initEpilogue st w).chan.Ok :=
  (h.setVolume st.vol st.pan).setPitch st.pitch

theorem psgEpilogue_ok (cfg : Cfg) (st : StartArgs) {w : Work} (h : w.chan.Ok) : (psgEpilogue cfg st w).chan.Ok := by
  refine initEpilogue_ok st (w := w.onChan (psgPhaseInit cfg)) ?_
  change (psgPhaseInit cfg w.chan).Ok
  unfold psgPhaseInit
  split
  · refine h.play 0 0 fun _ => ?_
    cases w.chan.kind <;> decide
  · exact h

theorem kindCheck_ok {kind : Kind} {w : Work} {rest : Run} (h : w.chan.Ok) (hr : w.chan.kind = kind → rest.chan.Ok) :
    (kindCheck kind w rest).chan.Ok := by
  rcases kindCheck_cases kind w rest with ⟨hk, e⟩ | ⟨_, e⟩
  · rw [e]; exact hr hk
  · rw [e]; exact h

theorem ruleInitSquare_ok (cfg : Cfg) (st : StartArgs) (duty : BitVec 2) (i : Nat) {w : Work} (h : w.chan.Ok) :
    (ruleInitSquare cfg st duty i w).chan.Ok :=
  kindCheck_ok h fun _ => psgEpilogue_ok cfg st (w := (psgPrologue i st w).onChan fun c => { c with duty := duty })
    (have p := psgPrologue_ok i st h
     ⟨p.owned, p.wave, p.dec, p.freq, fun hk => ⟨(p.psg hk).rates, (p.psg hk).levels, (p.psg hk).not_dying, (p.psg hk).rising,
      (p.psg hk).decaying, (p.psg hk).index⟩⟩)

theorem ruleInitNoise_ok (cfg : Cfg) (st : StartArgs) (npat : NoisePat) (i : Nat) {w : Work} (h : w.chan.Ok) :
    (ruleInitNoise cfg st npat i w).chan.Ok :=
  kindCheck_ok h fun _ => psgEpilogue_ok cfg st (w := (psgPrologue i st w).onChan fun c => { c with npat := npat })
    (have p := psgPrologue_ok i st h
     ⟨p.owned, p.wave, p.dec, p.freq, fun hk => ⟨(p.psg hk).rates, (p.psg hk).levels, (p.psg hk).not_dying, (p.psg hk).rising,
      (p.psg hk).decaying, (p.psg hk).index⟩⟩)

theorem memRead_length {m : Memory} {a n : Nat} {bytes : List U8} (h : memRead m a n = .ok bytes) : bytes.length = n := by
  unfold memRead at h
  split at h
  · cases h; simp
  · cases h

theorem ruleInitWave_ok (cfg : Cfg) (rom : Memory) (st : StartArgs) (off : U32) (i : Nat) {w : Work} (h : w.chan.Ok) :
    (ruleInitWave cfg rom st off i w).chan.Ok := by
  unfold ruleInitWave
  refine kindCheck_ok h fun _ => ?_
  have p := psgPrologue_ok i st h
  split
  · exact p
  · rename_i bytes hb
    exact psgEpilogue_ok cfg st (w := (psgPrologue i st w).onChan fun c => { c with wave := waveDecode bytes })
      ⟨p.owned, waveDecode_length (memRead_length hb), p.dec, p.freq, fun hk => ⟨(p.psg hk).rates, (p.psg hk).levels,
        (p.psg hk).not_dying, (p.psg hk).rising, (p.psg hk).decaying, (p.psg hk).index⟩⟩

/-- A PCM8 channel is as it should be when its owner, wavetable, decoded list and frequency are. -/
theorem Chan.Ok.pcm8 {c : Chan} (hk : c.kind = .pcm8) (ho : c.state = .dead ↔ c.owner = none) (hw : c.wave.length = 32)
    (hd : c.compressed = false → c.dec = []) (hf : 0 ≤ c.freq) : c.Ok :=
  ⟨ho, hw, hd, hf, fun hn => absurd hk hn⟩

theorem ruleInitPcm8_ok (cfg : Cfg) (rom : Memory) (st : StartArgs) (off : U32) (fixed comp : Bool) (i : Nat) {w : Work}
    (h : w.chan.Ok) : (ruleInitPcm8 cfg rom st off fixed comp i w).chan.Ok := by
  unfold ruleInitPcm8
  refine kindCheck_ok h fun hk => ?_
  split
  · exact h
  · rename_i hdr _
    have detect : ∀ w' : Work, w'.chan.Ok → w'.chan.kind = .pcm8 →
        ((pcm8Detect cfg rom w').andThen fun w => .done (initEpilogue st w)).chan.Ok := by
      intro w' h' hk'
      unfold pcm8Detect
      dsimp only
      split
      · split
        · exact .pcm8 hk' h'.owned h'.wave h'.dec h'.freq
        · exact initEpilogue_ok st (.pcm8 hk' h'.owned h'.wave h'.dec h'.freq)
      · exact initEpilogue_ok st (.pcm8 hk' h'.owned h'.wave h'.dec h'.freq)
    have ho : EnvState.initializing = .dead ↔ some st.owner = none := by simp
    unfold pcm8Decode
    split
    · rename_i hc
      have hc' : ∀ {p : Prop}, (pcm8Prologue i st off fixed comp hdr w).chan.compressed = false → p := by
        intro p hf; rw [hc] at hf; cases hf
      split
      · exact .pcm8 hk ho h.wave hc' h.freq
      · exact detect _ (.pcm8 hk ho h.wave hc' h.freq) hk
    · exact detect _ (.pcm8 hk ho h.wave (fun _ => rfl) h.freq) hk

/-- `STOP` keeps `Chan.Ok`. -/
theorem Work.stop_ok (i : Nat) {w : Work} (h : w.chan.Ok) : (w.stop i).chan.Ok :=
  h.stop w.chan.vel w.chan.step w.chan.next fun hk => (h.psg hk).levels.2.2

/-- Into Releasing from a channel that is not late. -/
theorem Chan.Ok.releasing {c : Chan} (h : c.Ok) (hl : late c = false) : ({ c with state := .releasing } : Chan).Ok := by
  have hd : c.state ≠ .dead := fun h => late_eq_false.mp hl (.inr (.inr h))
  exact h.goes .releasing c.vel c.step c.next (iff_of_false (by decide) hd) fun hk =>
    ⟨(h.psg hk).levels.2.2, by decide, by simp, by simp⟩

theorem ruleRelease_ok (i : Nat) {w : Work} (h : w.chan.Ok) : (ruleRelease i w).chan.Ok := by
  cases hl : late w.chan with
  | true => rw [ruleRelease_late hl]; exact h
  | false =>
    by_cases hk : w.chan.kind = .pcm8
    · rw [ruleRelease_pcm8 hl hk]; exact h.releasing hl
    · rw [ruleRelease_psg hl hk]
      have p := h.psg hk
      change (psgRelease i w).chan.Ok
      unfold psgRelease
      split
      · exact h.stop 0 w.chan.step w.chan.next fun _ => by simp
      · split
        · exact w.stop_ok i h
        · exact h.goes w.chan.state w.chan.vel w.chan.step .releasing Iff.rfl fun _ =>
            ⟨p.levels.2.2, p.not_dying, fun hs => ⟨(p.rising hs).1, by simp⟩, p.decaying⟩

theorem expire_ok (i : Nat) {w : Work} (h : w.chan.Ok) (hl : late w.chan = false) : (expire i w).chan.Ok := by
  unfold expire
  split
  · exact h.releasing hl
  · unfold psgExpire
    split
    · by_cases hR : w.chan.R = 0
      · have e : (w.onChan fun c => if c.R = 0 then { c with vel := 0 } else c) = w.onChan fun c => { c with vel := 0 } := by
          simp only [Work.onChan, if_pos hR]
        rw [e]
        exact h.stop 0 w.chan.step w.chan.next fun _ => by simp
      · have e : (w.onChan fun c => if c.R = 0 then { c with vel := 0 } else c) = w := by
          simp only [Work.onChan, if_neg hR]
        rw [e]
        exact w.stop_ok i h
    · exact h.releasing hl

theorem withDuration_ok {c : Chan} (h : c.Ok) (d : U32) : (withDuration d c).Ok :=
  ⟨h.owned, h.wave, h.dec, h.freq, fun hk => ⟨(h.psg hk).rates, (h.psg hk).levels, (h.psg hk).not_dying, (h.psg hk).rising,
    (h.psg hk).decaying, (h.psg hk).index⟩⟩

theorem ruleTickNote_ok (i : Nat) {w : Work} (h : w.chan.Ok) : (ruleTickNote i w).chan.Ok := by
  cases hl : late w.chan with
  | true => rw [ruleTickNote_late hl]; exact h
  | false =>
    by_cases h0 : w.chan.note.duration = 0
    · rw [ruleTickNote_endless hl h0]; exact h
    · by_cases h1 : w.chan.note.duration = 1
      · rw [ruleTickNote_ends hl h1]
        exact expire_ok i (w := w.onChan (withDuration 0)) (withDuration_ok h 0) hl
      · rw [ruleTickNote_counts hl h0 h1]
        exact withDuration_ok h _

/-- The rule of any one-channel command keeps `Chan.Ok`. -/
theorem ruleOf_ok (s : State) (i : Instr) (ch : Nat) {w : Work} (h : w.chan.Ok) : (ruleOf s i ch w).chan.Ok := by
  cases i with
  | initPcm8 c st off fixed comp => exact ruleInitPcm8_ok s.cfg s.rom st off fixed comp ch h
  | initSquare c st duty => exact ruleInitSquare_ok s.cfg st duty ch h
  | initWave c st off => exact ruleInitWave_ok s.cfg s.rom st off ch h
  | initNoise c st npat => exact ruleInitNoise_ok s.cfg st npat ch h
  | setVolume c vol pan => exact h.setVolume vol pan
  | setPitch c pitch => exact h.setPitch pitch
  | release c => exact ruleRelease_ok ch h
  | tickNote c => exact ruleTickNote_ok ch h
  | process c b => exact ruleProcess_ok s.cfg s.rom ch h
  | stop c => exact w.stop_ok ch h
  | mixBlock b => exact h

end Sys2Proof.Machine
end

