-- ==== Sys2Proof/Laws/PerInstr.lean ====
section
/-! SUPPORT. Statements about every instruction as syntax, one lemma per constructor. -/

namespace Sys2Proof.Laws.WordFields

/-- R81, R82: the word of an instruction has its opcode's number in `OP`, its channel in `CH` (0 where it has none), and `RSV = 0`. -/
def Statement (i : Instr) : Prop :=
  fieldOp (encode i).word = i.opcode.code ∧ fieldCh (encode i).word = i.channel?.getD 0 ∧ fieldRsv (encode i).word = 0

/-- The fields of any command word. -/
theorem fields (op : Opcode) (ch : U8) :
    fieldOp (commandWord op ch) = op.code ∧ fieldCh (commandWord op ch) = ch ∧ fieldRsv (commandWord op ch) = 0 :=
  ⟨fieldOp_commandWord op ch, fieldCh_commandWord op ch, fieldRsv_commandWord op ch⟩

theorem initPcm8 (ch : U8) (st : StartArgs) (off : U32) (fixed comp : Bool) : Statement (.initPcm8 ch st off fixed comp) :=
  fields .initPcm8 ch

theorem initSquare (ch : U8) (st : StartArgs) (duty : BitVec 2) : Statement (.initSquare ch st duty) := fields .initSquare ch

theorem initWave (ch : U8) (st : StartArgs) (off : U32) : Statement (.initWave ch st off) := fields .initWave ch

theorem initNoise (ch : U8) (st : StartArgs) (npat : NoisePat) : Statement (.initNoise ch st npat) := fields .initNoise ch

theorem setVolume (ch : U8) (vol : U8) (pan : I8) : Statement (.setVolume ch vol pan) := fields .setVolume ch

theorem setPitch (ch : U8) (pitch : I32) : Statement (.setPitch ch pitch) := fields .setPitch ch

theorem release (ch : U8) : Statement (.release ch) := fields .release ch

theorem tickNote (ch : U8) : Statement (.tickNote ch) := fields .tickNote ch

theorem process (ch : U8) (b : BufArg) : Statement (.process ch b) := fields .process ch

theorem stop (ch : U8) : Statement (.stop ch) := fields .stop ch

theorem mixBlock (b : BufArg) : Statement (.mixBlock b) := fields .mixBlock 0

end Sys2Proof.Laws.WordFields
end

