-- ==== Sys2Proof/Laws/Players.lean ====
section
/-! SUPPORT. The PCM8 players frame by frame: which loop `PROCESS` runs, what one frame of each branch comes to, and how the position and the
fraction move over a block. -/

namespace Sys2Proof.Machine

/-! The loop of a branch. -/

/-- A block whose frame `m` raises a fault (R328). -/
theorem frames_fault {ch : Nat} {gL gR : Rat} {tick : Chan → FrameOut} (cs : Nat → Chan) (s : Nat → Rat) (b : List Rat)
    (n m : Nat) (cause : FaultCause) (hm : m < n) (h : ∀ j, j < m → tick (cs j) = .go (cs (j + 1)) (s j))
    (hl : tick (cs m) = .fault cause) :
    frames ch gL gR tick n 0 (Work.start (cs 0) b) = .raised (Work.start (cs m) (addFrames gL gR s m b)) cause := by
  have key : ∀ m k f, m < k → (∀ j, j < m → tick (cs (f + j)) = .go (cs (f + j + 1)) (s (f + j))) →
      tick (cs (f + m)) = .fault cause →
      frames ch gL gR tick k f (Work.start (cs f) (addFrames gL gR s f b)) =
        .raised (Work.start (cs (f + m)) (addFrames gL gR s (f + m) b)) cause := by
    intro m
    induction m with
    | zero =>
      intro k f hk _ hl
      obtain ⟨k, rfl⟩ := Nat.exists_eq_succ_of_ne_zero (show k ≠ 0 by omega)
      have hl' : tick (cs f) = .fault cause := hl
      simp only [frames, Work.start, hl', Nat.add_zero]
    | succ m ih =>
      intro k f hk h hl
      obtain ⟨k, rfl⟩ := Nat.exists_eq_succ_of_ne_zero (show k ≠ 0 by omega)
      have h0 : tick (cs f) = .go (cs (f + 1)) (s f) := h 0 (by omega)
      have hs := ih k (f + 1) (by omega) (fun j hj => by
        have := h (j + 1) (by omega)
        rwa [show f + (j + 1) = f + 1 + j by omega] at this) (by rwa [show f + 1 + m = f + (m + 1) by omega])
      rw [show f + 1 + m = f + (m + 1) by omega] at hs
      simp only [frames, Work.start, h0, accFrame_addFrames]
      exact hs
  have := key m n 0 hm (by intro j hj; simpa using h j hj) (by simpa using hl)
  rwa [addFrames_zero, Nat.zero_add] at this

/-- The generator of a PCM8 channel. -/
theorem generate_pcm8 {cfg : Cfg} {rom : Memory} {i : Nat} {gL gR : Rat} {w : Work} (h : w.chan.kind = .pcm8) :
    generate cfg rom i gL gR w = pcm8Generate cfg rom i gL gR w := by
  unfold generate
  rw [h]

/-- The raw branch (R154, R156). -/
theorem pcm8Generate_raw {cfg : Cfg} {rom : Memory} {i : Nat} {gL gR : Rat} {w : Work} (hs : w.chan.synth = false)
    (hc : w.chan.compressed = false) (hi : pcm8Inc cfg w.chan < 2 ^ 48) :
    pcm8Generate cfg rom i gL gR w = frames i gL gR (rawTick rom (pcm8Inc cfg w.chan)) cfg.n 0 w := by
  simp only [pcm8Generate, incTooBig_eq_false hi, hs, hc, Bool.false_eq_true, if_false]

/-- The compressed branch (R154, R159). -/
theorem pcm8Generate_dec {cfg : Cfg} {rom : Memory} {i : Nat} {gL gR : Rat} {w : Work} (hs : w.chan.synth = false)
    (hc : w.chan.compressed = true) (hi : pcm8Inc cfg w.chan < 2 ^ 48) :
    pcm8Generate cfg rom i gL gR w = frames i gL gR (decTick (pcm8Inc cfg w.chan)) cfg.n 0 w := by
  simp only [pcm8Generate, incTooBig_eq_false hi, hs, hc, Bool.false_eq_true, if_false, if_true]

/-- The synthesis branch (R154, R183). -/
theorem pcm8Generate_synth {cfg : Cfg} {rom : Memory} {i : Nat} {gL gR : Rat} {w : Work} (hs : w.chan.synth = true)
    (hi : pcm8Inc cfg w.chan < 2 ^ 32) :
    pcm8Generate cfg rom i gL gR w = synthGenerate cfg.n i gL gR (pcm8Inc cfg w.chan) w := by
  simp only [pcm8Generate, incTooBig_eq_false (hi.trans (by norm_num)), hs, Bool.false_eq_true, if_false, if_true]

/-- The increment does not depend on what an envelope step writes (R155). -/
theorem pcm8Inc_same {cfg : Cfg} {c e : Chan} (h : EnvSame c e) : pcm8Inc cfg e = pcm8Inc cfg c := by
  simp only [pcm8Inc, h.synth, h.fixed, h.freq]

/-- `PROCESS` of a raw channel that its envelope step leaves alive, with an increment in range. -/
theorem execProcess_raw {s : State} {ch : U8} {b : BufArg} {c : Chan} (hc : s.chs[ch.toNat]? = some c)
    (hd : (envChan s.cfg ch.toNat c).state ≠ .dead) (hk : c.kind = .pcm8) (hs : c.synth = false) (hco : c.compressed = false)
    (hi : pcm8Inc s.cfg c < 2 ^ 48) :
    exec (.process ch b) s = .next (finish s .process ch.toNat
      (frames ch.toNat (gainL s.cfg (envChan s.cfg ch.toNat c)) (gainR s.cfg (envChan s.cfg ch.toNat c))
        (rawTick s.rom (pcm8Inc s.cfg c)) s.cfg.n 0 (Work.start (envChan s.cfg ch.toNat c) (bufOf b s)))) := by
  have same := envChan_same s.cfg ch.toNat c
  have hi' := pcm8Inc_same (cfg := s.cfg) same
  rw [execProcess_alive hc hd, generate_pcm8 (w := Work.start (envChan s.cfg ch.toNat c) (bufOf b s)) (same.kind.trans hk),
    pcm8Generate_raw (w := Work.start (envChan s.cfg ch.toNat c) (bufOf b s)) (same.synth.trans hs) (same.compressed.trans hco) (hi'.trans_lt hi)]
  simp only [Work.start, hi']

/-- The same for a compressed channel. -/
theorem execProcess_dec {s : State} {ch : U8} {b : BufArg} {c : Chan} (hc : s.chs[ch.toNat]? = some c)
    (hd : (envChan s.cfg ch.toNat c).state ≠ .dead) (hk : c.kind = .pcm8) (hs : c.synth = false) (hco : c.compressed = true)
    (hi : pcm8Inc s.cfg c < 2 ^ 48) :
    exec (.process ch b) s = .next (finish s .process ch.toNat
      (frames ch.toNat (gainL s.cfg (envChan s.cfg ch.toNat c)) (gainR s.cfg (envChan s.cfg ch.toNat c))
        (decTick (pcm8Inc s.cfg c)) s.cfg.n 0 (Work.start (envChan s.cfg ch.toNat c) (bufOf b s)))) := by
  have same := envChan_same s.cfg ch.toNat c
  have hi' := pcm8Inc_same (cfg := s.cfg) same
  rw [execProcess_alive hc hd, generate_pcm8 (w := Work.start (envChan s.cfg ch.toNat c) (bufOf b s)) (same.kind.trans hk),
    pcm8Generate_dec (w := Work.start (envChan s.cfg ch.toNat c) (bufOf b s)) (same.synth.trans hs) (same.compressed.trans hco) (hi'.trans_lt hi)]
  simp only [Work.start, hi']

/-- The same for a synth channel. -/
theorem execProcess_synth {s : State} {ch : U8} {b : BufArg} {c : Chan} (hc : s.chs[ch.toNat]? = some c)
    (hd : (envChan s.cfg ch.toNat c).state ≠ .dead) (hk : c.kind = .pcm8) (hs : c.synth = true)
    (hi : pcm8Inc s.cfg c < 2 ^ 32) :
    exec (.process ch b) s = .next (finish s .process ch.toNat
      (synthGenerate s.cfg.n ch.toNat (gainL s.cfg (envChan s.cfg ch.toNat c)) (gainR s.cfg (envChan s.cfg ch.toNat c))
        (pcm8Inc s.cfg c) (Work.start (envChan s.cfg ch.toNat c) (bufOf b s)))) := by
  have same := envChan_same s.cfg ch.toNat c
  have hi' := pcm8Inc_same (cfg := s.cfg) same
  rw [execProcess_alive hc hd, generate_pcm8 (w := Work.start (envChan s.cfg ch.toNat c) (bufOf b s)) (same.kind.trans hk),
    pcm8Generate_synth (w := Work.start (envChan s.cfg ch.toNat c) (bufOf b s)) (same.synth.trans hs) (hi'.trans_lt hi)]
  simp only [Work.start, hi']

/-! One frame. -/

theorem memRead_one {rom : Memory} {a : Nat} (h : a < rom.size) : memRead rom a 1 = .ok [rom.byte a] := by
  simp [memRead, Nat.succ_le_of_lt h, List.range_succ]

/-- A raw frame in ROM that does not overrun (R156). -/
theorem rawTick_go {rom : Memory} {inc : Nat} {c : Chan} (h : c.base + c.pos.toNat < rom.size)
    (hl : c.pos.toNat + advDelta c.frac inc < c.hdr.length.toNat) :
    rawTick rom inc c = .go { c with
        frac := advFrac c.frac inc, pos := BitVec.ofNat 32 (c.pos.toNat + advDelta c.frac inc) }
      (pcmSample (rom.byte (c.base + c.pos.toNat))) := by
  have hL := c.hdr.length.isLt
  simp only [rawTick, memRead_one h, if_neg (Nat.not_le.mpr hl), storePos_of_lt (hl.trans hL), List.headD]

/-- A raw frame in ROM that overruns a looping sample (R158). -/
theorem rawTick_loop {rom : Memory} {inc : Nat} {c : Chan} (h : c.base + c.pos.toNat < rom.size)
    (hl : c.hdr.length.toNat ≤ c.pos.toNat + advDelta c.frac inc) (hs : c.hdr.loop = 0x40000000) :
    rawTick rom inc c = .go { c with frac := advFrac c.frac inc, pos := c.hdr.loopOffset }
      (pcmSample (rom.byte (c.base + c.pos.toNat))) := by
  simp only [rawTick, memRead_one h, if_pos hl, rawOverrun, List.headD]
  exact if_pos hs

/-- A raw frame in ROM that overruns a sample without a loop (R158, log 9). -/
theorem rawTick_last {rom : Memory} {inc : Nat} {c : Chan} (h : c.base + c.pos.toNat < rom.size)
    (hl : c.hdr.length.toNat ≤ c.pos.toNat + advDelta c.frac inc) (hs : c.hdr.loop ≠ 0x40000000) :
    rawTick rom inc c = .last { c with
        frac := advFrac c.frac inc, pos := storePos (c.pos.toNat + advDelta c.frac inc) }
      (pcmSample (rom.byte (c.base + c.pos.toNat))) := by
  simp only [rawTick, memRead_one h, if_pos hl, rawOverrun, List.headD]
  exact if_neg hs

/-- A raw frame outside ROM (R156, R320). -/
theorem rawTick_fault {rom : Memory} {inc : Nat} {c : Chan} (h : rom.size ≤ c.base + c.pos.toNat) :
    rawTick rom inc c = .fault ⟨.romRange, some (c.base + c.pos.toNat)⟩ := by
  simp only [rawTick, memRead, if_neg (show ¬ c.base + c.pos.toNat + 1 ≤ rom.size by omega), max_eq_left h]

/-- A compressed frame (R159, log 9). -/
theorem decTick_read {inc : Nat} {c : Chan} (h : c.pos.toNat < c.dec.length) :
    decTick inc c =
      if c.dec.length ≤ c.pos.toNat + advDelta c.frac inc then
        .last { c with frac := advFrac c.frac inc, pos := storePos (c.pos.toNat + advDelta c.frac inc) }
          (pcmSample (c.dec.getD c.pos.toNat 0))
      else .go { c with frac := advFrac c.frac inc, pos := storePos (c.pos.toNat + advDelta c.frac inc) }
          (pcmSample (c.dec.getD c.pos.toNat 0)) := by
  simp only [decTick, List.getElem?_eq_getElem h, List.getD, Option.getD]

/-! The phase over a block. -/

@[simp] theorem fracAfter_zero (inc : Nat) (c : Chan) : fracAfter inc c 0 = c.frac := by simp [fracAfter]

@[simp] theorem fracAfter_toNat (inc : Nat) (c : Chan) (k : Nat) :
    (fracAfter inc c k).toNat = (c.frac.toNat + k * inc) % 2 ^ Config.F := by simp [fracAfter]

/-- The fraction of one more frame (R124). -/
theorem advFrac_fracAfter (inc : Nat) (c : Chan) (k : Nat) : advFrac (fracAfter inc c k) inc = fracAfter inc c (k + 1) := by
  apply BitVec.eq_of_toNat_eq
  rw [advFrac_toNat, fracAfter_toNat, fracAfter_toNat, Nat.mod_add_mod]
  congr 1
  ring

/-- The same for the synthesis phase (R184). -/
theorem synthAdv_fracAfter {inc : Nat} {c e : Chan} {k : Nat} (h : e.frac = fracAfter inc c k) (hi : inc < 2 ^ 32) :
    synthAdv inc e = { e with frac := fracAfter inc c (k + 1) } := by
  have hf := e.frac.isLt
  have hn : e.frac.toNat = (c.frac.toNat + k * inc) % 2 ^ Config.F := by rw [h, fracAfter_toNat]
  have : BitVec.ofNat Config.F (if 2 ^ Config.F ≤ e.frac.toNat + inc then e.frac.toNat + inc - 2 ^ Config.F
      else e.frac.toNat + inc) = fracAfter inc c (k + 1) := by
    apply BitVec.eq_of_toNat_eq
    rw [fracAfter_toNat, BitVec.toNat_ofNat, Nat.succ_mul, ← Nat.add_assoc, Nat.add_mod _ inc, ← hn,
      Nat.mod_eq_of_lt (show inc < 2 ^ Config.F from hi)]
    split
    · exact (Nat.mod_eq_sub_mod ‹_›).symm
    · rfl
  simp only [synthAdv, this]

@[simp] theorem playPos_zero (inc : Nat) (c : Chan) : playPos inc c 0 = c.pos.toNat := by
  have := c.frac.isLt
  simp [playPos, Nat.div_eq_of_lt this]

/-- The position of one more frame (R124). -/
theorem playPos_succ (inc : Nat) (c : Chan) (k : Nat) :
    playPos inc c (k + 1) = playPos inc c k + advDelta (fracAfter inc c k) inc := by
  have h := Nat.div_add_mod (c.frac.toNat + k * inc) (2 ^ Config.F)
  have e : c.frac.toNat + (k + 1) * inc = 2 ^ Config.F * ((c.frac.toNat + k * inc) / 2 ^ Config.F) +
      ((c.frac.toNat + k * inc) % 2 ^ Config.F + inc) := by rw [← Nat.add_assoc, h]; ring
  rw [playPos, playPos, advDelta, fracAfter_toNat, e, Nat.mul_add_div (by norm_num), Nat.add_assoc]

@[simp] theorem rawPos_zero (inc : Nat) (c : Chan) : rawPos inc c 0 = c.pos.toNat := rfl

/-- The position of one more raw frame (R156, R158). -/
theorem rawPos_succ (inc : Nat) (c : Chan) (k : Nat) :
    rawPos inc c (k + 1) =
      if c.hdr.loop = 0x40000000 ∧ c.hdr.length.toNat ≤ rawPos inc c k + advDelta (fracAfter inc c k) inc
      then c.hdr.loopOffset.toNat else rawPos inc c k + advDelta (fracAfter inc c k) inc := by
  simp only [rawPos, advDelta, fracAfter_toNat]

/-- Without a loop the raw position is the closed form. -/
theorem rawPos_eq_playPos {inc : Nat} {c : Chan} (h : c.hdr.loop ≠ 0x40000000) (k : Nat) :
    rawPos inc c k = playPos inc c k := by
  induction k with
  | zero => simp
  | succ k ih => rw [rawPos_succ, if_neg (fun h' => h h'.1), playPos_succ, ih]

/-! The saw. -/

/-- The `i32` of a filter state (R188). -/
theorem toInt_ofInt_wrap32 (v : Int) : (BitVec.ofInt 32 (wrap32 v)).toInt = wrap32 v := by
  have h := wrap32_range v
  rw [BitVec.toInt_ofInt, Int.bmod_def]
  omega

end Sys2Proof.Machine
end

