-- ==== Sys2Proof/Machine/Assembler.lean ====
section
/-! DEFINITION. The textual syntax of `spec/30_encoding.md` R98: one line to one command. `;` starts a comment; numbers are decimal or
`0x` hex, with a minus sign where negative; the named operands stand in the rule's order; `buf` has no text and refers to the block as it stands.
DESIGN CHOICE (log 22): R98 gives the forms of a line and does not say what another line means; here it is no command. A comma and a space
separate alike, so a line that drops R98's commas is read as the line with them. -/

namespace Sys2Proof.Machine

/-- A text cut at the characters that satisfy `p`. -/
def cutAt (p : Char → Bool) : List Char → List (List Char)
  | [] => [[]]
  | c :: rest =>
    match cutAt p rest with
    | [] => [[]]
    | w :: ws => if p c then [] :: w :: ws else (c :: w) :: ws

/-- The words of a line, its comment left out. -/
def asmWords (line : List Char) : List (List Char) :=
  (cutAt (fun c => c == ' ' || c == ',') (line.takeWhile (· != ';'))).filter (· ≠ [])

/-- The value of a digit, `none` for another character. -/
def asmDigit (base : Nat) (c : Char) : Option Nat :=
  let v :=
    if 48 ≤ c.toNat ∧ c.toNat ≤ 57 then c.toNat - 48
    else if 97 ≤ c.toNat ∧ c.toNat ≤ 102 then c.toNat - 87
    else if 65 ≤ c.toNat ∧ c.toNat ≤ 70 then c.toNat - 55
    else base
  if v < base then some v else none

/-- The digits of a number from the left. -/
def asmDigits (base : Nat) : Nat → List Char → Option Nat
  | acc, [] => some acc
  | acc, c :: rest =>
    match asmDigit base c with
    | some v => asmDigits base (acc * base + v) rest
    | none => none

/-- A number without sign: decimal or `0x` hex. -/
def asmNat : List Char → Option Nat
  | [] => none
  | '0' :: 'x' :: c :: rest => asmDigits 16 0 (c :: rest)
  | c :: rest => asmDigits 10 0 (c :: rest)

/-- A number. -/
def asmInt : List Char → Option Int
  | '-' :: rest => (asmNat rest).map fun v => -(v : Int)
  | cs => (asmNat cs).map fun v => (v : Int)

/-- All of a list, or nothing. -/
def allSome : List (Option Int) → Option (List Int)
  | [] => some []
  | some x :: rest => (allSome rest).map (x :: ·)
  | none :: _ => none

/-- How many numbers an operand takes: `adsr=A/D/S/R` four, any other one (R98). -/
def asmArity (key : String) : Nat := if key = "adsr" then 4 else 1

/-- The named operands in order, `key=value` or `adsr=A/D/S/R`, as one list of numbers; `none` for a name, an order or a number of values
that R98 does not give (DESIGN CHOICE, log 22: the spec says nothing of such a line). -/
def asmArgs : List String → List (List Char) → Option (List Int)
  | [], [] => some []
  | key :: keys, word :: words =>
    match cutAt (· == '=') word with
    | [k, v] =>
      if k = key.toList ∧ (cutAt (· == '/') v).length = asmArity key then
        match allSome ((cutAt (· == '/') v).map asmInt), asmArgs keys words with
        | some xs, some ys => some (xs ++ ys)
        | _, _ => none
      else none
    | _ => none
  | _, _ => none

/-- The names before a note-start's own operand (R98). -/
def asmStartKeys : List String := ["owner", "key", "vel", "dur", "adsr"]

/-- The names after it (R98). -/
def asmEndKeys : List String := ["vol", "pan", "pitch"]

/-- The opcode of a mnemonic (R82). -/
def asmOpcode (w : List Char) : Option Opcode :=
  if w = "INIT_PCM8".toList then some .initPcm8
  else if w = "INIT_SQUARE".toList then some .initSquare
  else if w = "INIT_WAVE".toList then some .initWave
  else if w = "INIT_NOISE".toList then some .initNoise
  else if w = "SET_VOLUME".toList then some .setVolume
  else if w = "SET_PITCH".toList then some .setPitch
  else if w = "RELEASE".toList then some .release
  else if w = "TICK_NOTE".toList then some .tickNote
  else if w = "PROCESS".toList then some .process
  else if w = "STOP".toList then some .stop
  else if w = "MIX_BLOCK".toList then some .mixBlock
  else none

/-- The operand names of a mnemonic (R98). -/
def asmKeys : Opcode → List String
  | .initPcm8 => asmStartKeys ++ ["off"] ++ asmEndKeys ++ ["fixed", "comp"]
  | .initSquare => asmStartKeys ++ ["duty"] ++ asmEndKeys
  | .initWave => asmStartKeys ++ ["off"] ++ asmEndKeys
  | .initNoise => asmStartKeys ++ ["npat"] ++ asmEndKeys
  | .setVolume => ["vol", "pan"]
  | .setPitch => ["pitch"]
  | _ => []

/-- The record of the numbers of a line (R83). -/
def asmRecord : Opcode → List Int → Option Operands
  | .initPcm8, [o, k, v, t, a, d, s, r, off, vol, p, b, fixed, comp] =>
    if 0 ≤ o then some (.initPcm8 ⟨o.toNat, ⟨k, v, t⟩, ⟨a, d, s, r⟩, vol, p, b⟩ off fixed comp) else none
  | .initSquare, [o, k, v, t, a, d, s, r, duty, vol, p, b] =>
    if 0 ≤ o then some (.initSquare ⟨o.toNat, ⟨k, v, t⟩, ⟨a, d, s, r⟩, vol, p, b⟩ duty) else none
  | .initWave, [o, k, v, t, a, d, s, r, off, vol, p, b] =>
    if 0 ≤ o then some (.initWave ⟨o.toNat, ⟨k, v, t⟩, ⟨a, d, s, r⟩, vol, p, b⟩ off) else none
  | .initNoise, [o, k, v, t, a, d, s, r, npat, vol, p, b] =>
    if 0 ≤ o then some (.initNoise ⟨o.toNat, ⟨k, v, t⟩, ⟨a, d, s, r⟩, vol, p, b⟩ npat) else none
  | .setVolume, [vol, p] => some (.volPan vol p)
  | .setPitch, [b] => some (.pitch b)
  | .release, [] => some .none
  | .tickNote, [] => some .none
  | .process, [] => some (.buf .current)
  | .stop, [] => some .none
  | .mixBlock, [] => some (.buf .current)
  | _, _ => none

/-- A line with its channel number, `none` when it does not fit `CH`. -/
def asmCommand (op : Opcode) (ch : Nat) (words : List (List Char)) : Option Command :=
  match asmArgs (asmKeys op) words with
  | some xs => if ch < 256 then (asmRecord op xs).map fun r => ⟨commandWord op (BitVec.ofNat 8 ch), r⟩ else none
  | none => none

/-- The command of one line of R98's syntax. -/
def assemble (line : String) : Option Command :=
  match asmWords line.toList with
  | [] => none
  | m :: words =>
    match asmOpcode m with
    | none => none
    | some .mixBlock => asmCommand .mixBlock 0 words
    | some op =>
      match words with
      | [] => none
      | ch :: args =>
        match asmNat ch with
        | some ch => asmCommand op ch args
        | none => none

end Sys2Proof.Machine
end

