-- ==== Sys2Proof/Tests/Slice0.lean ====
section
/-! SUPPORT. The model's own tests. The expected values are the spec's: `spec/95_test_vectors.md` (V2.* and the programs) and the tables named
beside each test. The theorems `test_hyp_<Name>` show a state and operands that meet the hypotheses of the statement `<Name>`. -/

namespace Sys2Proof.Tests

set_option Elab.async false

open Sys2Proof.Machine

/-! Small states. -/

/-- A block with the given channels; blocks of `n` frames. -/
def pool (n sr : Nat) (chs : List Chan) : State :=
  { State.construct { Cfg.reset with n := n, sr := sr } ⟨[], 2 ^ 32⟩ [] with chs := chs }

/-- The same with a ROM of `size` bytes that begins with the given ones. -/
def poolRom (n sr size : Nat) (bytes : List U8) (chs : List Chan) : State :=
  { pool n sr chs with rom := Memory.loadBytes ⟨[], size⟩ 0 bytes }

/-- The 20 bytes of Program 1: a looping sample of 4 bytes. -/
def rom1 : List U8 := [0, 0, 0, 0x40, 0, 0x0C, 0xD1, 0, 1, 0, 0, 0, 4, 0, 0, 0, 0x40, 0xC0, 0x20, 0xE0]

/-- Operands of a note-start at key 60: owner 1, velocity and volume 127, duration 2, center. -/
def start60 (a d s r : U8) : StartArgs := ⟨1, ⟨60, 127, 2⟩, ⟨a, d, s, r⟩, 127, 0, 0⟩

/-- The same at key 69. -/
def start69 (a d s r : U8) : StartArgs := ⟨1, ⟨69, 127, 2⟩, ⟨a, d, s, r⟩, 127, 0, 0⟩

/-- A SQUARE channel in Playing at velocity 15 with release rate 2, half duty, one table step per frame at `SR = 3520`. -/
def squareCh : Chan :=
  { Chan.reset .square with
    state := .playing, owner := some 4, note := ⟨69, 127, 2, 0⟩, S := 15, R := 2, vel := 15, peak := 15, sus := 15
    duty := 2, freq := 3520 }

/-- A PCM8 channel in Playing at velocity 255 that plays the four samples of `rom1` at one a frame. -/
def pcmCh : Chan :=
  { Chan.reset .pcm8 with
    state := .playing, owner := some 1, note := ⟨60, 127, 2, 0⟩, A := 64, D := 128, S := 255, R := 128, vel := 255
    hdr := ⟨0, 0xD10C00, 1, 4⟩, base := 16, fixed := true, lvol := 126, rvol := 126, freq := 13379 }

/-- A PCM8 channel in synth mode, of the given type. -/
def synthCh (type : U8) : Chan :=
  { pcmCh with hdr := ⟨0x40000000, 0x2000000, 0, 0⟩, synth := true, sp := ⟨type, 0x20, 0x10, 0x40, 0⟩, freq := 32768 }

/-- The outcome of an instruction or a step, if it answers a next state. -/
def outcomeOf (o : Host.Outcome State Fault Refusal) : Option CmdOutcome :=
  match o with
  | .next t => some t.out.outcome
  | .fault _ => none
  | .refused _ => none

/-- What a test looks at in the next state; the reset state where there is none. -/
def after (o : Host.Outcome State Fault Refusal) : State :=
  match o with
  | .next t => t
  | .fault _ => State.construct Cfg.reset ⟨[], 0⟩ []
  | .refused _ => State.construct Cfg.reset ⟨[], 0⟩ []

/-- State and velocity of every channel. -/
def levels (s : State) : List (EnvState × Nat) := s.chs.map fun c => (c.state, c.vel.toNat)

/-- A next state, from its outcome. -/
theorem next_of {o : Host.Outcome State Fault Refusal} {x : CmdOutcome} (h : outcomeOf o = some x) :
    ∃ t, o = .next t ∧ t.out.outcome = x := by
  cases o with
  | next t => exact ⟨t, rfl, Option.some.inj h⟩
  | fault f => cases h
  | refused r => cases h

/-! Well-formedness: an ill-formed term for each check. -/

theorem test_wf_channel_outside_the_pool : (Instr.release 4).wf 4 4 = false := by decide

theorem test_wf_block_too_short : (Instr.process 0 (.supplied [0, 0])).wf 4 4 = false := by decide

theorem test_wf_mix_block_too_long : (Instr.mixBlock (.supplied [0, 0, 0])).wf 4 1 = false := by decide

theorem test_wf_process : (Instr.process 3 (.supplied [0, 0])).wf 4 1 = true := by decide

/-! Decoding (R81 to R86, L2.1): every constructor's word. -/

/-- The record of `start60 1 2 3 4`. -/
def rawStart : RawStart := ⟨1, ⟨60, 127, 2⟩, ⟨1, 2, 3, 4⟩, 127, 0, 0⟩

theorem test_decode_init_pcm8 : decode 1 4 ⟨0x10000000, .initPcm8 rawStart 0x20 0 1⟩ =
    .ok (.initPcm8 0 (start60 1 2 3 4) 0x20 false true) := by decide +kernel

theorem test_decode_init_square : decode 4 4 ⟨0x20300000, .initSquare rawStart 2⟩ =
    .ok (.initSquare 3 (start60 1 2 3 4) 2) := by decide +kernel

theorem test_decode_init_wave : decode 4 4 ⟨0x30300000, .initWave rawStart 0x20⟩ =
    .ok (.initWave 3 (start60 1 2 3 4) 0x20) := by decide +kernel

theorem test_decode_init_noise : decode 4 4 ⟨0x40300000, .initNoise rawStart 1⟩ =
    .ok (.initNoise 3 (start60 1 2 3 4) .rough) := by decide +kernel

theorem test_decode_set_volume : decode 4 4 ⟨0x50300000, .volPan 64 (-30)⟩ = .ok (.setVolume 3 64 (-30)) := by decide +kernel

theorem test_decode_set_pitch : decode 4 4 ⟨0x60300000, .pitch (-768)⟩ = .ok (.setPitch 3 (-768)) := by decide +kernel

theorem test_decode_release : decode 4 4 ⟨0x70300000, .none⟩ = .ok (.release 3) := by decide +kernel

theorem test_decode_tick_note : decode 4 4 ⟨0x80300000, .none⟩ = .ok (.tickNote 3) := by decide +kernel

theorem test_decode_process : decode 4 4 ⟨0x90300000, .buf .current⟩ = .ok (.process 3 .current) := by decide +kernel

theorem test_decode_stop : decode 4 4 ⟨0xA0300000, .none⟩ = .ok (.stop 3) := by decide +kernel

theorem test_decode_mix_block : decode 4 4 ⟨0xB0000000, .buf .current⟩ = .ok (.mixBlock .current) := by decide +kernel

theorem test_decode_highest_channel : decode 256 4 ⟨0x7FF00000, .none⟩ = .ok (.release 255) := by decide +kernel

/-- V2.1.7 to V2.1.12. -/
theorem test_decode_refuses_the_word :
    decode 4 4 ⟨0x00000000, .none⟩ = .error .reservedOp ∧
    decode 4 4 ⟨0xC0000000, .none⟩ = .error .reservedOp ∧
    decode 4 4 ⟨0xF0000000, .none⟩ = .error .reservedOp ∧
    decode 4 4 ⟨0x90000001, .buf .current⟩ = .error .rsvNonzero ∧
    decode 4 4 ⟨0x00000001, .none⟩ = .error .rsvNonzero ∧
    decode 4 4 ⟨0xB0100000, .buf .current⟩ = .error .rsvNonzero ∧
    decode 2 4 ⟨0x92000000, .buf .current⟩ = .error .chRange := by decide +kernel

/-- V2.1.13 to V2.1.16. -/
theorem test_decode_refuses_the_record :
    decode 2 4 ⟨0x90100000, .volPan 0 0⟩ = .error .operandShape ∧
    decode 1 4 ⟨0x20000000, .initSquare rawStart 4⟩ = .error .operandRange ∧
    decode 1 4 ⟨0x20000000, .initSquare { rawStart with note := ⟨256, 0, 0⟩ } 0⟩ = .error .operandRange ∧
    decode 1 4 ⟨0x20000000, .initSquare { rawStart with adsr := ⟨0x0F, 2, 3, 4⟩ } 2⟩ =
      .ok (.initSquare 0 (start60 0x0F 2 3 4) 2) ∧
    decode 1 4 ⟨0x60000000, .pitch (2 ^ 31)⟩ = .error .operandRange ∧
    decode 1 4 ⟨0x50000000, .volPan 0 (-129)⟩ = .error .operandRange := by decide +kernel

theorem test_table_words :
    decodeTableWord 32 0x90000000 = some (.process 0 .current) ∧
    decodeTableWord 32 0xAFF00000 = some (.stop 255) ∧
    decodeTableWord 32 0xB0000000 = some (.mixBlock .current) ∧
    decodeTableWord 32 0xC0000000 = none := by decide +kernel

theorem test_withFetchWord_runs : outcomeOf (step (State.reset.withFetchWord 32 0xA0100000)) = some .ok := by decide +kernel

/-- R98: a line of Program 2. -/
theorem test_assemble_init_square :
    assemble "INIT_SQUARE 0, owner=7, key=69, vel=127, dur=0, adsr=0/0/15/2, duty=2, vol=127, pan=-30, pitch=0 ; note" =
      some ⟨0x20000000, .initSquare ⟨7, ⟨69, 127, 0⟩, ⟨0, 0, 15, 2⟩, 127, -30, 0⟩ 2⟩ := by decide +kernel

/-- Lines outside R98's forms (log 22). -/
theorem test_assemble_refuses :
    assemble "INIT_SQUARE 0, owner=1, key=2, vel=3, dur=4, adsr=1/2/3, duty=4/2, vol=1, pan=0, pitch=0" = none ∧
    assemble "SET_VOLUME 0, pan=0, vol=1" = none ∧ assemble "PROCESS" = none := by decide +kernel

theorem test_assemble_process : assemble "PROCESS 0x3" = some ⟨0x90300000, .buf .current⟩ := by decide +kernel

/-! One step of each instruction. -/

/-- Program 1: `lvol = rvol = 126`, the sample's base, the header. -/
theorem test_init_pcm8 :
    (after (exec (.initPcm8 0 (start60 128 128 64 128) 0 false false) (poolRom 4 13379 0x20 rom1 [Chan.reset .pcm8]))).chs.map
      (fun c => (c.state, c.lvol, c.rvol, c.base, c.hdr)) =
      [(.initializing, 126, 126, 16, ⟨0x40000000, 0xD10C00, 1, 4⟩)] := by decide +kernel

/-- V2.4.1: the synthesis header, and its parameters (R93). -/
theorem test_init_pcm8_synth :
    (after (exec (.initPcm8 0 (start60 255 0 0 0) 0 true false) (poolRom 8 4096 0x20
      [0, 0, 0, 0x40, 0, 0, 0, 2, 0, 0, 0, 0, 0, 0, 0, 0, 0x80, 2, 3, 4, 5, 6] [Chan.reset .pcm8]))).chs.map
      (fun c => (c.synth, c.sp)) = [(true, ⟨2, 3, 4, 5, 6⟩)] := by decide +kernel

/-- Program 2: frequency, peak 15, sustain 15, hard left (pan -30). -/
theorem test_init_square :
    (after (exec (.initSquare 0 { start69 0 0 15 2 with pan := -30 } 2) (pool 8 3520 [Chan.reset .square]))).chs.map
      (fun c => (c.freq, c.peak, c.sus, c.panpot)) = [(3520, 15, 15, .left)] := by decide +kernel

/-- V2.1.16, R90: the rates are masked. -/
theorem test_init_square_masks :
    (after (exec (.initSquare 0 (start69 0x0F 9 0x1F 0xFA) 2) (pool 8 3520 [Chan.reset .square]))).chs.map
      (fun c => (c.A, c.D, c.S, c.R)) = [(7, 1, 15, 2)] := by decide +kernel

/-- V2.6.5: the ramp. -/
theorem test_init_wave :
    (after (exec (.initWave 0 (start69 0 0 15 1) 0) (poolRom 4 4096 0x40
      [0x01, 0x23, 0x45, 0x67, 0x89, 0xAB, 0xCD, 0xEF, 0x01, 0x23, 0x45, 0x67, 0x89, 0xAB, 0xCD, 0xEF] [Chan.reset .wave]))).chs.map
      (fun c => (c.wave.take 3, c.wave.getD 15 0, c.freq)) = [([-15 / 32, -13 / 32, -11 / 32], 15 / 32, 7040)] := by decide +kernel

/-- V2.6.10: 8 of the 16 bytes lie outside ROM; the attach remains. -/
theorem test_init_wave_rom_range :
    let t := after (exec (.initWave 0 (start69 0 0 15 1) 0x18) (poolRom 4 3520 0x20 [] [Chan.reset .wave]))
    t.out.outcome = .fault ⟨.romRange, .initWave, 0, some 0x20⟩ ∧ t.out.events = [.attach 1 0] ∧ t.faulted = true := by
  decide +kernel

/-- V2.6.2: key 60 gives 4096. -/
theorem test_init_noise :
    (after (exec (.initNoise 0 { start60 0 0 15 0 with pan := 30 } .rough) (pool 4 4096 [Chan.reset .noise]))).chs.map
      (fun c => (c.freq, c.npat, c.panpot)) = [(4096, .rough, .right)] := by decide +kernel

/-- V2.7.1: velocity 100, volume 100, pan 32. -/
theorem test_set_volume_pcm8 :
    (after (exec (.setVolume 0 100 32) (pool 4 4096 [{ pcmCh with note := ⟨60, 100, 0, 0⟩ }]))).chs.map
      (fun c => (c.lvol, c.rvol)) = [(39, 117)] := by decide +kernel

/-- V2.5.10: in Playing the velocity follows at once. -/
theorem test_set_volume_playing :
    (after (exec (.setVolume 0 64 0) (pool 8 3520 [squareCh]))).chs.map (fun c => (c.peak, c.sus, c.vel, c.panpot)) =
      [(7, 7, 7, .center)] := by decide +kernel

/-- V2.6.1: an octave up. -/
theorem test_set_pitch : (after (exec (.setPitch 0 768) (pool 8 3520 [squareCh]))).chs.map (·.freq) = [7040] := by
  decide +kernel

/-- R115, V2.5.6: staged in Playing. -/
theorem test_release_psg : (after (exec (.release 0) (pool 8 3520 [squareCh]))).chs.map (fun c => (c.state, c.next)) =
    [(.playing, .releasing)] := by decide +kernel

/-- R224, V2.5.8: a release rate of 0 stops at once. -/
theorem test_release_rate_zero : levels (after (exec (.release 0) (pool 8 3520 [{ squareCh with R := 0 }]))) = [(.dead, 0)] := by
  decide +kernel

/-- V2.2.8: the second of two ticks expires the note. -/
theorem test_tick_note_expires :
    let t := after (exec (.tickNote 0) (pool 8 3520 [{ squareCh with note := ⟨69, 127, 1, 0⟩ }]))
    levels t = [(.releasing, 15)] ∧ t.out.result = some false := by decide +kernel

theorem test_tick_note_counts : (after (exec (.tickNote 0) (pool 8 3520 [squareCh]))).out.result = some true := by decide +kernel

theorem test_stop : (after (exec (.stop 0) (pool 8 3520 [squareCh]))).out.events = [.detach 4 0] := by decide +kernel

/-- V2.6.3: half duty at one table step per frame; vel 15 of 32 on both sides. -/
theorem test_process_square :
    (after (exec (.process 0 (.supplied (zeroBlock 5))) (pool 5 3520 [squareCh]))).buf =
      [15/64, 15/64, 15/64, 15/64, 15/64, 15/64, 15/64, 15/64, -15/64, -15/64] := by decide +kernel

/-- Program 1's samples: a sample ends and stops the channel (R158), at gain `126 * 255 / 65536`. -/
theorem test_process_raw :
    let t := after (exec (.process 0 .current) (poolRom 5 4096 0x20 rom1 [pcmCh]))
    t.buf.take 4 = [16065/65536, 16065/65536, -16065/65536, -16065/65536] ∧ levels t = [(.dead, 255)] ∧
      t.buf.drop 8 = [0, 0] := by decide +kernel

/-- Program 4's last line in small: a dead channel adds nothing; the other is alone in the sum. -/
theorem test_mix_block :
    (after (exec (.mixBlock .current) { pool 1 3520 [Chan.reset .pcm8, squareCh] with buf := [7, 7] })).buf = [15/64, 15/64] := by
  decide +kernel

theorem test_quiescent : step { pool 1 1 [squareCh] with faulted := true } = .fault .quiescent := rfl

/-! Tables and recurrences. -/

/-- V2.2.2: `Rising:64 Rising:128 Rising:192 Decaying:255 Decaying:127 Decaying:63 Playing:32`. -/
theorem test_pcm8_envelope :
    (List.range 8).map (fun k => ((envChans Cfg.reset 0 k { pcmCh with state := .initializing, S := 32 }).state,
      (envChans Cfg.reset 0 k { pcmCh with state := .initializing, S := 32 }).vel.toNat)) =
      [(.initializing, 255), (.rising, 64), (.rising, 128), (.rising, 192), (.decaying, 255), (.decaying, 127),
        (.decaying, 63), (.playing, 32)] := by decide +kernel

/-- V2.5.3: A=0, D=2, S=8. -/
theorem test_psg_envelope :
    (List.range 5).map (fun k => (envChans Cfg.reset 0 (k + 1) { squareCh with state := .initializing, D := 2, S := 8, sus := 8 }).vel.toNat) =
      [14, 14, 13, 13, 12] := by decide +kernel

/-- R256: the entries of each duty sum to 0. -/
theorem test_square_tables : ∀ d : BitVec 2, (squareTable d).length = 8 ∧ (squareTable d).sum = 0 := by decide +kernel

/-- V2.6.6, R270: `rough` begins `0000001000001100` and has 64 ones. -/
theorem test_noise_rough :
    (noiseTable .rough).take 16 = [false, false, false, false, false, false, true, false, false, false, false, false, true, true,
      false, false] ∧ (noiseTable .rough).countP id = 64 ∧ (noiseTable .rough).length = 128 := by decide +kernel

/-- V2.4.3: the triangle at an eighth of a turn per frame. -/
theorem test_triangle :
    (after (exec (.process 0 .current) { pool 4 1 [{ synthCh 2 with vel := 255, lvol := 1, rvol := 0, freq := 8 }] with
      cfg := { Cfg.reset with sr := 1, pcm8Master := 65536 / 255 } })).buf = [-1/2, 0, 0, 0, 1/2, 0, 1, 0] := by decide +kernel

/-- V2.4.4: the saw's filter state at a quarter of a turn per frame. -/
theorem test_saw :
    (after (exec (.process 0 .current) { pool 6 1 [{ synthCh 1 with vel := 255, lvol := 1, rvol := 0, freq := 16 }] with
      cfg := { Cfg.reset with n := 6, sr := 1, pcm8Master := 65536 / 255 } })).chs.map (·.pos) = [BitVec.ofInt 32 (-16)] := by
  decide +kernel

/-- V2.4.6: `initialCycle = 0x80` without modulation gives `th = -1/2`. -/
theorem test_square_threshold : squareThreshold ⟨0, 0x80, 0, 0, 0⟩ 0 = -1 / 2 ∧ squareThreshold ⟨0, 0x40, 0, 0, 0⟩ 0 = 1 / 4 := by
  decide +kernel

/-! The hypotheses of the statements, met. -/

/-- Through, as a Bool. -/
def isDone : Run → Bool
  | .done _ => true
  | .raised _ _ => false

/-- The work of a run. -/
def workOf : Run → Work
  | .done w => w
  | .raised w _ => w

theorem done_of {r : Run} (h : isDone r = true) : r = .done (workOf r) := by
  cases r with
  | done w => rfl
  | raised w c => cases h

/-- A sample in ROM at 16, its header at 0. -/
def rawPool (n : Nat) (c : Chan) : State := poolRom n 4096 0x20 rom1 [c]

theorem test_hyp_DecodeOfEncodeIsTheInstruction :
    (Instr.initPcm8 3 (start60 1 2 3 4) 0xFFFFFFFF true true).wf 4 4 = true ∧ (Instr.mixBlock (.supplied [0, 0])).wf 4 1 = true := by
  decide

theorem test_hyp_EncodeOfDecodeIsTheCommand : decode 4 4 ⟨0x50300000, .volPan 255 (-128)⟩ = .ok (.setVolume 3 255 (-128)) := by
  decide +kernel

/-- One command for each clause, in order. -/
theorem test_hyp_RefusalsOfTheWordInOrder :
    fieldRsv 0x00000001 ≠ 0 ∧
    (fieldRsv 0xF0000000 = 0 ∧ fieldOp 0xF0000000 ∈ [0x0, 0xC, 0xD, 0xE, 0xF]) ∧
    (fieldRsv 0xB0100000 = 0 ∧ fieldOp 0xB0100000 = 0xB ∧ fieldCh 0xB0100000 ≠ 0) ∧
    (fieldRsv 0x90400000 = 0 ∧ fieldOp 0x90400000 = 0x9 ∧ 4 ≤ (fieldCh 0x90400000).toNat) ∧
    (fieldRsv 0x90300000 = 0 ∧ fieldOp 0x90300000 = 0x9 ∧ ¬ 4 ≤ (fieldCh 0x90300000).toNat) := by decide

/-- A pool with one command sent. -/
def sent (c : Command) : State := { pool 4 3520 [squareCh, pcmCh] with cmds := [c] }

theorem test_hyp_StepRunsTheDecodedInstruction :
    (sent ⟨0xA0100000, .none⟩).faulted = false ∧ (sent ⟨0xA0100000, .none⟩).cmds = [⟨0xA0100000, .none⟩] ∧
    decode 2 4 ⟨0xA0100000, .none⟩ = .ok (.stop 1) := by decide +kernel

theorem test_hyp_RefusedCommandOnlySetsTheMark :
    (sent ⟨0xA0200000, .none⟩).faulted = false ∧ (sent ⟨0xA0200000, .none⟩).cmds = [⟨0xA0200000, .none⟩] ∧
    decode 2 4 ⟨0xA0200000, .none⟩ = .error .chRange := by decide +kernel

theorem test_hyp_QuiescentBlockTakesNoCommand :
    ({ sent ⟨0, .none⟩ with faulted := true }).faulted = true ∧
    (pool 4 3520 [squareCh]).faulted = false ∧ (pool 4 3520 [squareCh]).cmds = [] := by decide

theorem test_hyp_MarksAreSticky :
    (∃ t, exec (.stop 0) { pool 4 3520 [squareCh] with faulted := true, refused := true } = .next t) ∧
    ∃ t, step { sent ⟨0xA0000000, .none⟩ with refused := true } = .next t := ⟨⟨_, rfl⟩, (next_of (x := .ok) (by decide +kernel)).imp fun _ h => h.1⟩

theorem test_hyp_FaultRecordIsFaithful :
    (∃ t, exec (.initWave 0 (start69 0 0 15 1) 0x18) (poolRom 4 3520 0x20 [] [Chan.reset .wave]) = .next t ∧
      t.out.outcome = .fault ⟨.romRange, .initWave, 0, some 0x20⟩) ∧
    (∃ t, exec (.initNoise 0 (start69 0 0 15 1) .fine) (pool 4 3520 [squareCh]) = .next t ∧
      t.out.outcome = .fault ⟨.kindMismatch, .initNoise, 0, none⟩) ∧
    ∃ t, exec (.stop 0) (pool 4 3520 [squareCh]) = .next t ∧ t.out.outcome = .ok :=
  ⟨next_of (by decide +kernel), next_of (by decide +kernel), next_of (by decide +kernel)⟩

theorem test_hyp_InitOfAnotherKindFaults :
    (pool 4 3520 [squareCh, pcmCh]).chs[(0 : U8).toNat]? = some squareCh ∧ squareCh.kind ≠ .pcm8 ∧ squareCh.kind ≠ .wave ∧
    squareCh.kind ≠ .noise ∧ (pool 4 3520 [squareCh, pcmCh]).chs[(1 : U8).toNat]? = some pcmCh ∧ pcmCh.kind ≠ .square := by
  decide +kernel

/-- A header that detects synthesis, and one whose length is the first that does not. -/
theorem test_hyp_InitPcm8Result :
    (rawPool 4 (Chan.reset .pcm8)).chs[(0 : U8).toNat]? = some (Chan.reset .pcm8) ∧ (Chan.reset .pcm8).kind = .pcm8 ∧
    readHeader (rawPool 4 (Chan.reset .pcm8)).rom (0 : U32).toNat = .ok ⟨0x40000000, 0xD10C00, 1, 4⟩ ∧
    readHeader (poolRom 4 4096 0x20 [0, 0, 0, 0x40] []).rom (0 : U32).toNat = .ok ⟨0x40000000, 0, 0, 0⟩ ∧
    readHeader (poolRom 4 4096 0x20 [0, 0, 0, 0x40, 0, 0, 0, 0, 0, 0, 0, 0, 1] []).rom (0 : U32).toNat = .ok ⟨0x40000000, 0, 0, 1⟩ := by
  decide +kernel

/-- The last offset whose header does not fit. -/
theorem test_hyp_InitPcm8HeaderFault :
    (rawPool 4 (Chan.reset .pcm8)).chs[(0 : U8).toNat]? = some (Chan.reset .pcm8) ∧ (Chan.reset .pcm8).kind = .pcm8 ∧
    (rawPool 4 (Chan.reset .pcm8)).rom.size < (0x11 : U32).toNat + 16 := by decide +kernel

theorem test_hyp_InitSquareResult :
    (pool 4 3520 [squareCh]).chs[(0 : U8).toNat]? = some squareCh ∧ squareCh.kind = .square := by decide +kernel

/-- The last offset whose 16 bytes fit. -/
theorem test_hyp_InitWaveResult :
    (rawPool 4 (Chan.reset .wave)).chs[(0 : U8).toNat]? = some (Chan.reset .wave) ∧ (Chan.reset .wave).kind = .wave ∧
    (0x10 : U32).toNat + 16 ≤ (rawPool 4 (Chan.reset .wave)).rom.size := by decide +kernel

/-- The first offset whose 16 bytes do not fit. -/
theorem test_hyp_InitWaveFaultKeepsTheAttach :
    (rawPool 4 (Chan.reset .wave)).chs[(0 : U8).toNat]? = some (Chan.reset .wave) ∧ (Chan.reset .wave).kind = .wave ∧
    (rawPool 4 (Chan.reset .wave)).rom.size < (0x11 : U32).toNat + 16 := by decide +kernel

theorem test_hyp_InitNoiseResult :
    (pool 4 3520 [Chan.reset .noise]).chs[(0 : U8).toNat]? = some (Chan.reset .noise) ∧ (Chan.reset .noise).kind = .noise := by
  decide +kernel

/-- Also for `SetPitchResult`, `ReleaseResult`, `TickNoteResult`, `StopResult` and `ProcessStepsTheEnvelopeOnce`'s first hypothesis. -/
theorem test_hyp_SetVolumeResult : (pool 4 3520 [squareCh, pcmCh]).chs[(1 : U8).toNat]? = some pcmCh := by decide +kernel

theorem test_hyp_SetPitchResult : (pool 4 3520 [squareCh, pcmCh]).chs[(0 : U8).toNat]? = some squareCh := by decide +kernel

theorem test_hyp_ReleaseResult : (pool 4 3520 [squareCh, pcmCh]).chs[(0 : U8).toNat]? = some squareCh := by decide +kernel

theorem test_hyp_TickNoteResult : (pool 4 3520 [squareCh, pcmCh]).chs[(1 : U8).toNat]? = some pcmCh := by decide +kernel

theorem test_hyp_StopResult : (pool 4 3520 [squareCh, pcmCh]).chs[(1 : U8).toNat]? = some pcmCh := by decide +kernel

/-- The largest factors of each clause. -/
theorem test_hyp_PeakAndSustainBounds :
    (127 : U8).toNat ≤ 127 ∧ (15 : U8).toNat ≤ 15 ∧ (peakOf 127 127).toNat ≤ 15 ∧ (peakOf 255 255).toNat = 63 := by decide

/-- A channel for each clause. -/
theorem test_hyp_GainsOfABlock :
    0 ≤ Cfg.reset.pcm8Master ∧ 0 < Cfg.reset.pcm8Master ∧ pcmCh.kind = .pcm8 ∧ squareCh.kind ≠ .pcm8 ∧
    ({ squareCh with vel := 63 }).vel.toNat ≤ 63 ∧ ({ squareCh with panpot := .left }).panpot = .left ∧
    ({ squareCh with panpot := .right }).panpot = .right ∧ squareCh.panpot = .center := by decide +kernel

theorem test_hyp_Exp2Law : (-769 : Int) ≤ -768 := by decide

/-- The lowest key and the highest one of an octave from 69, and from 60 by four keys. -/
theorem test_hyp_OctavesAreExact :
    (((⟨9, 0, 0, 0⟩ : Note).key.toNat : Int) = 69 + 12 * (-5)) ∧ (((⟨249, 0, 0, 0⟩ : Note).key.toNat : Int) = 69 + 12 * 15) ∧
    (((⟨0, 0, 0, 0⟩ : Note).key.toNat : Int) = 60 + 4 * (-15)) ∧ (⟨0, 0, 0, 0⟩ : Note).pitch = 0 := by decide

/-- A note of 3 ticks: the two before the last, and the last. -/
theorem test_hyp_NoteExpiresAtItsLastTick :
    (pool 4 3520 [{ squareCh with note := ⟨69, 127, 3, 0⟩ }]).chs[(0 : U8).toNat]? = some { squareCh with note := ⟨69, 127, 3, 0⟩ } ∧
    late { squareCh with note := ⟨69, 127, 3, 0⟩ } = false ∧ (3 : U32) ≠ 0 ∧ 1 ≤ 2 ∧ 2 < (3 : U32).toNat := by decide +kernel

/-- A channel in each of the six states. -/
theorem test_hyp_Pcm8EnvelopeTable :
    ∀ st ∈ [EnvState.initializing, .rising, .decaying, .playing, .releasing, .dying],
      ({ pcmCh with state := st }).kind = .pcm8 ∧ ({ pcmCh with state := st }).state = st := by decide

/-- The last step below 255 with `A = 127`; the smallest and the largest rate. -/
theorem test_hyp_Pcm8RiseTime :
    ({ pcmCh with state := .initializing, A := 127 }).kind = .pcm8 ∧ 1 ≤ 2 ∧ 2 * (127 : U8).toNat < 255 ∧
    1 ≤ (1 : U8).toNat ∧ 1 ≤ (255 : U8).toNat := by decide

theorem test_hyp_Pcm8FallsToItsLevel :
    ({ pcmCh with state := .decaying }).state = .decaying ∧ ({ pcmCh with state := .releasing }).state = .releasing ∧
    (envChan Cfg.reset 0 { pcmCh with state := .decaying, S := 32 }).state = .decaying ∧
    (envChan Cfg.reset 0 { pcmCh with state := .releasing }).state = .releasing := by decide +kernel

/-- A channel in each of the seven states. -/
theorem test_hyp_PsgEnvelopeTable :
    ∀ st ∈ [EnvState.initializing, .rising, .decaying, .playing, .releasing, .dying, .dead],
      ({ squareCh with state := st }).kind ≠ .pcm8 ∧ ({ squareCh with state := st }).state = st := by decide

/-- At the last velocity and the last frame of its hold. -/
theorem test_hyp_PsgRiseTime :
    let c := { squareCh with state := .initializing, A := 7 }
    c.kind ≠ .pcm8 ∧ c.state = .initializing ∧ 1 ≤ c.A.toNat ∧ c.A.toNat < 8 ∧ 2 ≤ c.peak.toNat ∧ c.peak.toNat ≤ 63 ∧
    (Cfg.reset.psgInitDropsStagedRelease = true ∨ c.next ≠ .releasing) ∧ 14 < c.peak.toNat ∧ 6 < c.A.toNat := by decide

/-- With the last frame before the stop. -/
theorem test_hyp_PsgReleaseTime :
    let c := { squareCh with state := .releasing, R := 7 }
    c.kind ≠ .pcm8 ∧ c.state = .releasing ∧ c.step = 0 ∧ c.next ≠ .dying ∧ 1 ≤ c.vel.toNat ∧ 1 ≤ c.R.toNat ∧ c.R.toNat < 8 ∧
    111 < (c.vel.toNat + 1) * c.R.toNat := by decide

/-- In Initializing, and in Decaying with the velocity at the sustain level. -/
theorem test_hyp_PsgAttackZeroSkipsRising :
    squareCh.kind ≠ .pcm8 ∧ squareCh.A = 0 ∧ squareCh.state ≠ .rising ∧ squareCh.state ≠ .initializing ∧
    ({ squareCh with state := .initializing }).state = .initializing ∧
    ({ squareCh with state := .decaying }).sus.toNat ≤ ({ squareCh with state := .decaying }).vel.toNat := by
  decide

/-- A channel for each of the three states, at the end of its hold. -/
theorem test_hyp_StagedReleaseIsHonoured :
    squareCh.kind ≠ .pcm8 ∧ ({ squareCh with next := .releasing }).next = .releasing ∧ squareCh.state = .playing ∧
    ({ squareCh with D := 2, step := 1 }).D.toNat ≤ (({ squareCh with D := 2, step := 1 }).step + 1).toNat ∧
    ({ squareCh with A := 7, step := 6 }).A.toNat ≤ (({ squareCh with A := 7, step := 6 }).step + 1).toNat := by decide

/-- A Dead channel, a PCM8 channel in Dying, and a PSG channel at its last boundary of release. -/
theorem test_hyp_ProcessOfADeadChannel :
    (pool 4 3520 [Chan.reset .wave]).chs[(0 : U8).toNat]? = some (Chan.reset .wave) ∧ (Chan.reset .wave).state = .dead ∧
    ({ pcmCh with state := .dying }).kind = .pcm8 ∧ ({ pcmCh with state := .dying }).state = .dying ∧
    (envChan Cfg.reset 0 { squareCh with state := .releasing, next := .dying, step := 1 }).state = .dead := by
  decide +kernel

theorem test_hyp_ProcessStepsTheEnvelopeOnce :
    (pool 4 3520 [squareCh]).chs[(0 : U8).toNat]? = some squareCh ∧
    ∃ t, exec (.process 0 .current) (pool 4 3520 [squareCh]) = .next t := ⟨by decide +kernel, _, rfl⟩

theorem test_hyp_PsgBlockResult :
    (pool 4 3520 [squareCh]).chs[(0 : U8).toNat]? = some squareCh ∧ squareCh.kind ≠ .pcm8 ∧ 1 ≤ (pool 4 3520 [squareCh]).cfg.n ∧
    (envChan (pool 4 3520 [squareCh]).cfg 0 squareCh).state ≠ .dead ∧
    phaseInc squareCh.freq (pool 4 3520 [squareCh]).cfg.sr < 2 ^ 48 := by decide +kernel

/-- The same channel at the pitch of key 72, two samples a frame at `SR = 13379` (V2.3.4). -/
def pitchCh : Chan := { pcmCh with fixed := false, freq := 26758 }

/-- Three of the four samples, and the looping sample for 8 frames at two samples a frame. -/
theorem test_hyp_RawBlockResult :
    ((rawPool 3 pcmCh).chs[(0 : U8).toNat]? = some pcmCh ∧ pcmCh.kind = .pcm8 ∧ pcmCh.synth = false ∧ pcmCh.compressed = false ∧
      (envChan (rawPool 3 pcmCh).cfg 0 pcmCh).state ≠ .dead ∧
      (∀ k < 4, 1 ≤ k → rawPos (2 ^ 32) pcmCh k < pcmCh.hdr.length.toNat) ∧
      ∀ k < 3, pcmCh.base + rawPos (2 ^ 32) pcmCh k < (rawPool 3 pcmCh).rom.size) ∧
    phaseInc pitchCh.freq (13379 : Nat) = 2 ^ 33 ∧
    ({ pitchCh with hdr := ⟨0x40000000, 0xD10C00, 1, 4⟩ }).hdr.loop = 0x40000000 ∧
    ∀ k < 8, 16 + rawPos (2 ^ 33) { pitchCh with hdr := ⟨0x40000000, 0xD10C00, 1, 4⟩ } k < 0x20 := by decide +kernel

/-- The four samples fill the block exactly; at two a frame they end after two frames. -/
theorem test_hyp_RawSampleEndStops :
    (rawPool 4 pcmCh).chs[(0 : U8).toNat]? = some pcmCh ∧ pcmCh.kind = .pcm8 ∧ pcmCh.synth = false ∧ pcmCh.compressed = false ∧
    pcmCh.hdr.loop ≠ 0x40000000 ∧ (envChan (rawPool 4 pcmCh).cfg 0 pcmCh).state ≠ .dead ∧ 4 ≤ (rawPool 4 pcmCh).cfg.n ∧
    (∀ k < 4, 1 ≤ k → rawPos (2 ^ 32) pcmCh k < pcmCh.hdr.length.toNat) ∧
    pcmCh.hdr.length.toNat ≤ rawPos (2 ^ 32) pcmCh 4 ∧ (∀ k < 4, pcmCh.base + rawPos (2 ^ 32) pcmCh k < (rawPool 4 pcmCh).rom.size) ∧
    rawPos (2 ^ 33) pitchCh 1 < pitchCh.hdr.length.toNat ∧ pitchCh.hdr.length.toNat ≤ rawPos (2 ^ 33) pitchCh 2 := by decide +kernel

/-- The looping one. -/
def loopCh : Chan := { pcmCh with hdr := ⟨0x40000000, 0xD10C00, 1, 4⟩ }

theorem test_hyp_LoopingSampleNeverStops :
    (rawPool 8 loopCh).chs[(0 : U8).toNat]? = some loopCh ∧ loopCh.kind = .pcm8 ∧ loopCh.synth = false ∧
    loopCh.compressed = false ∧ loopCh.hdr.loop = 0x40000000 ∧ (envChan (rawPool 8 loopCh).cfg 0 loopCh).state ≠ .dead ∧
    outcomeOf (exec (.process 0 .current) (rawPool 8 loopCh)) = some .ok := by decide +kernel

theorem test_hyp_LoopGoesToTheLoopOffset :
    ({ loopCh with pos := 3 }).hdr.loop = 0x40000000 ∧ ({ loopCh with pos := 3 }).pos.toNat + 1 = loopCh.hdr.length.toNat ∧
    loopCh.base + ({ loopCh with pos := 3 }).pos.toNat < (rawPool 4 loopCh).rom.size := by decide +kernel

/-- V2.3.6's decoded list. -/
def decCh : Chan := { pcmCh with compressed := true, dec := [64, -64, 32] }

/-- Two of the three samples, and all three in a block of three frames. -/
theorem test_hyp_CompressedSampleEndStops :
    (pool 3 4096 [decCh]).chs[(0 : U8).toNat]? = some decCh ∧ decCh.kind = .pcm8 ∧ decCh.synth = false ∧
    decCh.compressed = true ∧ (envChan (pool 3 4096 [decCh]).cfg 0 decCh).state ≠ .dead ∧ decCh.dec.length ≤ 2 ^ 32 ∧
    playPos (2 ^ 32) decCh 2 < decCh.dec.length ∧ 3 ≤ (pool 3 4096 [decCh]).cfg.n ∧
    (∀ k < 3, playPos (2 ^ 32) decCh k < decCh.dec.length) ∧ decCh.dec.length ≤ playPos (2 ^ 32) decCh 3 := by
  decide +kernel

/-- Each kind of channel at the smallest increment out of range. -/
theorem test_hyp_IncrementOutOfRangeFaults :
    (envChan Cfg.reset 0 { squareCh with freq := 0x10000 }).state ≠ .dead ∧
    2 ^ 48 ≤ phaseInc (0x10000 : Rat) (1 : Nat) ∧
    ((synthCh 2).kind = .pcm8 ∧ (synthCh 2).synth = true ∧ 2 ^ 32 ≤ phaseInc (64 : Rat) ((1 * 64 : Nat) : Rat)) ∧
    (pcmCh.kind = .pcm8 ∧ pcmCh.synth = false ∧ ({ pcmCh with fixed := false }).fixed = false) := by decide +kernel

/-- V2.3.7's sample of 8 bytes. -/
def longCh : Chan := { pcmCh with hdr := ⟨0, 0xD10C00, 0, 8⟩ }

/-- With nothing decoded, with type 3, and V2.3.7's sample of 8 in a ROM that ends after 4. -/
theorem test_hyp_EmptySampleAndUnknownTypeFault :
    (pool 4 4096 [{ decCh with dec := [] }]).chs[(0 : U8).toNat]? = some { decCh with dec := [] } ∧
    (envChan Cfg.reset 0 { decCh with dec := [] }).state ≠ .dead ∧ 1 ≤ Cfg.reset.n ∧
    pcm8Inc Cfg.reset { decCh with dec := [] } < 2 ^ 48 ∧
    (synthCh 3).synth = true ∧ 3 ≤ (synthCh 3).sp.type.toNat ∧ pcm8Inc Cfg.reset (synthCh 3) < 2 ^ 32 ∧
    longCh.synth = false ∧ longCh.compressed = false ∧ (∀ k < 5, 1 ≤ k → rawPos (2 ^ 32) longCh k < longCh.hdr.length.toNat) ∧
    (∀ k < 4, longCh.base + rawPos (2 ^ 32) longCh k < 0x14) ∧ 0x14 ≤ longCh.base + rawPos (2 ^ 32) longCh 4 := by decide +kernel

theorem test_hyp_TriangleBlockResult :
    (pool 4 4096 [synthCh 2]).chs[(0 : U8).toNat]? = some (synthCh 2) ∧ (synthCh 2).kind = .pcm8 ∧ (synthCh 2).synth = true ∧
    (synthCh 2).sp.type = 2 ∧ (envChan (pool 4 4096 [synthCh 2]).cfg 0 (synthCh 2)).state ≠ .dead ∧
    phaseInc (synthCh 2).freq (((pool 4 4096 [synthCh 2]).cfg.sr * 64 : Nat) : Rat) < 2 ^ 32 := by decide +kernel

theorem test_hyp_SynthSquareBlockResult :
    (pool 4 4096 [synthCh 0]).chs[(0 : U8).toNat]? = some (synthCh 0) ∧ (synthCh 0).kind = .pcm8 ∧ (synthCh 0).synth = true ∧
    (synthCh 0).sp.type = 0 ∧ (envChan (pool 4 4096 [synthCh 0]).cfg 0 (synthCh 0)).state ≠ .dead ∧
    phaseInc (synthCh 0).freq (((pool 4 4096 [synthCh 0]).cfg.sr * 64 : Nat) : Rat) < 2 ^ 32 := by decide +kernel

/-- A saw channel, and both ends of the range. -/
theorem test_hyp_SawStaysInRange :
    (pool 4 4096 [synthCh 1]).chs[(0 : U8).toNat]? = some (synthCh 1) ∧ (synthCh 1).kind = .pcm8 ∧ (synthCh 1).synth = true ∧
    (synthCh 1).sp.type = 1 ∧ (envChan (pool 4 4096 [synthCh 1]).cfg 0 (synthCh 1)).state ≠ .dead ∧
    phaseInc (synthCh 1).freq (((pool 4 4096 [synthCh 1]).cfg.sr * 64 : Nat) : Rat) < 2 ^ 32 ∧
    -254 ≤ ({ synthCh 1 with pos := BitVec.ofInt 32 (-254) }).pos.toInt ∧ ({ synthCh 1 with pos := 318 }).pos.toInt ≤ 318 := by
  decide +kernel

theorem test_hyp_WavetableIsCentred : (List.replicate 16 (0xF0 : U8)).length = 16 := by decide

/-- Two channels, both through on zeros. -/
theorem test_hyp_MixBlockIsTheSum :
    ∃ ws : List Work, ws.length = (pool 2 3520 [Chan.reset .pcm8, squareCh]).chs.length ∧
      ∀ i c w, (pool 2 3520 [Chan.reset .pcm8, squareCh]).chs[i]? = some c → ws[i]? = some w →
        ruleProcess (pool 2 3520 []).cfg (pool 2 3520 []).rom i (Work.start c (zeroBlock 2)) = .done w := by
  refine ⟨[workOf (ruleProcess (pool 2 3520 []).cfg (pool 2 3520 []).rom 0 (Work.start (Chan.reset .pcm8) (zeroBlock 2))),
    workOf (ruleProcess (pool 2 3520 []).cfg (pool 2 3520 []).rom 1 (Work.start squareCh (zeroBlock 2)))], rfl, ?_⟩
  intro i c w hc hw
  match i with
  | 0 => cases hc; cases hw; exact done_of (by decide +kernel)
  | 1 => cases hc; cases hw; exact done_of (by decide +kernel)
  | i + 2 => cases hw

theorem test_hyp_MixBlockOfPsgAndDeadChannelsCompletes :
    ∀ c ∈ (pool 2 3520 [Chan.reset .pcm8, squareCh]).chs,
      c.state = .dead ∨ c.kind ≠ .pcm8 ∧ phaseInc c.freq (pool 2 3520 []).cfg.sr < 2 ^ 48 := by decide +kernel

theorem test_hyp_MixBlockEndsAtTheFirstFault :
    ∃ t, exec (.mixBlock .current) (pool 2 4096 [squareCh, synthCh 3, squareCh]) = .next t ∧
      t.out.outcome = .fault ⟨.synthType, .mixBlock, 1, none⟩ := next_of (by decide +kernel)

theorem test_hyp_ProcessOrderDoesNotMatter :
    (0 : U8) ≠ 1 ∧ (∃ a, exec (.process 0 .current) (pool 2 3520 [squareCh, squareCh]) = .next a ∧ a.out.outcome = .ok) ∧
    ∃ a, exec (.process 1 .current) (pool 2 3520 [squareCh, squareCh]) = .next a ∧ a.out.outcome = .ok :=
  ⟨by decide, next_of (by decide +kernel), next_of (by decide +kernel)⟩

theorem test_hyp_OneChannelCommandsLeaveTheRest :
    (Instr.process 1 .current).channel? = some 1 ∧ (Instr.stop 1).buf? = none ∧
    ∃ t, exec (.stop 1) (pool 2 3520 [squareCh, squareCh]) = .next t := ⟨rfl, rfl, _, rfl⟩

theorem test_hyp_ConfigurationIsFixed : ∃ t, step (sent ⟨0xB0000000, .buf .current⟩) = .next t :=
  (next_of (x := .ok) (by decide +kernel)).imp fun _ h => h.1

/-- One step that stops a channel, and one that begins a note. -/
theorem test_hyp_EnvelopeOnlyMovesForward :
    (∃ t, step (sent ⟨0xA0000000, .none⟩) = .next t ∧ t.out.outcome = .ok) ∧
    (∃ t, step (sent ⟨0x20000000, .initSquare rawStart 2⟩) = .next t ∧ t.out.outcome = .ok) ∧
    (sent ⟨0xA0000000, .none⟩).chs[0]? = some squareCh := ⟨next_of (by decide +kernel), next_of (by decide +kernel), rfl⟩

theorem test_hyp_EventsTellTheOwner :
    (∃ t, step (sent ⟨0x20000000, .initSquare rawStart 2⟩) = .next t ∧ t.out.outcome = .ok) ∧
    (after (step (sent ⟨0x20000000, .initSquare rawStart 2⟩))).out.events = [.detach 4 0, .attach 1 0] :=
  ⟨next_of (by decide +kernel), by decide +kernel⟩

/-- The invariant of a channel in use. -/
theorem squareCh_ok : squareCh.Ok :=
  ⟨by decide, by decide, by decide, by decide +kernel,
    fun _ => ⟨by decide, by decide, by decide, by decide, by decide, by decide⟩⟩

theorem test_hyp_StepKeepsTheInvariant :
    ({ pool 4 3520 [squareCh] with cmds := [⟨0xB0000000, .buf .current⟩] }).Inv ∧
    ∃ t, step { pool 4 3520 [squareCh] with cmds := [⟨0xB0000000, .buf .current⟩] } = .next t :=
  ⟨⟨⟨by decide, by decide, by decide +kernel⟩, by decide, by decide, by decide +kernel, fun c hc => by
      rw [List.mem_singleton.mp hc]; exact squareCh_ok⟩,
    (next_of (x := .ok) (by decide +kernel)).imp fun _ h => h.1⟩

/-- The smallest and the largest pool. -/
theorem test_hyp_ConstructionMeetsTheInvariant :
    Cfg.reset.Ok ∧ (⟨[(0, 1)], 1⟩ : Memory).wf = true ∧ 1 ≤ [Kind.noise].length ∧ resetKinds.length ≤ 256 :=
  ⟨⟨by decide, by decide, by decide +kernel⟩, by decide, by decide, by decide +kernel⟩

end Sys2Proof.Tests
end

section
/-! PROOFS. `State.Inv` through a whole step: what a step can do (`step_cases`), what decode has made sure of, and the writes that end a
command. What a rule does to its channel is `ruleOf_ok`, what it does to its block `ruleOf_end`. -/

namespace Sys2Proof

/-! Decode lets only a block of `2N` elements through (R83, R84). -/

theorem readInitPcm8_buf? {ch : U8} {st : RawStart} {off fixed comp : Int} {i : Instr}
    (h : readInitPcm8 ch st off fixed comp = some i) : i.buf? = none := by
  unfold readInitPcm8 at h
  split at h <;> cases h
  rfl

theorem readInitSquare_buf? {ch : U8} {st : RawStart} {duty : Int} {i : Instr}
    (h : readInitSquare ch st duty = some i) : i.buf? = none := by
  unfold readInitSquare at h
  split at h <;> cases h
  rfl

theorem readInitWave_buf? {ch : U8} {st : RawStart} {off : Int} {i : Instr}
    (h : readInitWave ch st off = some i) : i.buf? = none := by
  unfold readInitWave at h
  split at h <;> cases h
  rfl

theorem readInitNoise_buf? {ch : U8} {st : RawStart} {npat : Int} {i : Instr}
    (h : readInitNoise ch st npat = some i) : i.buf? = none := by
  unfold readInitNoise at h
  split at h <;> cases h
  rfl

theorem readVolPan_buf? {ch : U8} {vol pan : Int} {i : Instr} (h : readVolPan ch vol pan = some i) : i.buf? = none := by
  unfold readVolPan at h
  split at h <;> cases h
  rfl

theorem bufWf_of_buf?_none {n : Nat} {i : Instr} (h : i.buf? = none) : i.bufWf n = true := by
  simp only [Instr.bufWf, h]

theorem readOperands_bufWf {n : Nat} {ch : U8} {op : Opcode} {r : Operands} {i : Instr}
    (h : readOperands n ch op r = .ok i) : i.bufWf n = true := by
  unfold readOperands at h
  split at h
  case h_1 => exact bufWf_of_buf?_none (readInitPcm8_buf? (orRange_eq.mp h))
  case h_2 => exact bufWf_of_buf?_none (readInitSquare_buf? (orRange_eq.mp h))
  case h_3 => exact bufWf_of_buf?_none (readInitWave_buf? (orRange_eq.mp h))
  case h_4 => exact bufWf_of_buf?_none (readInitNoise_buf? (orRange_eq.mp h))
  case h_5 => exact bufWf_of_buf?_none (readVolPan_buf? (orRange_eq.mp h))
  case h_6 =>
    obtain ⟨p, _, rfl⟩ := Option.map_eq_some_iff.mp (orRange_eq.mp h)
    rfl
  case h_7 => cases h; rfl
  case h_8 => cases h; rfl
  case h_9 b =>
    split at h <;> cases h
    assumption
  case h_10 => cases h; rfl
  case h_11 b =>
    split at h <;> cases h
    assumption
  case h_12 => cases h

/-- What decode answers, the readers of R83 have read. -/
theorem decode_readOperands {nch n : Nat} {c : Command} {i : Instr} (h : decode nch n c = .ok i) :
    ∃ op, readOperands n (fieldCh c.word) op c.operands = .ok i := by
  unfold decode at h
  split at h
  · cases h
  · split at h
    · cases h
    · split at h
      · cases h
      · exact ⟨_, h⟩
    · split at h
      · cases h
      · exact ⟨_, h⟩

theorem decode_bufWf {nch n : Nat} {c : Command} {i : Instr} (h : decode nch n c = .ok i) : i.bufWf n = true := by
  obtain ⟨op, hr⟩ := decode_readOperands h
  exact readOperands_bufWf hr

end Sys2Proof

namespace Sys2Proof.Machine

/-! A step. -/

/-- Everything a step to a next state can be: the first command refused by decode, or decoded and executed (R110). -/
theorem step_cases {s t : State} (h : step s = .next t) :
    ∃ c rest, s.cmds = c :: rest ∧ s.faulted = false ∧
      ((∃ reason, decode s.chs.length s.cfg.n c = .error reason ∧ t = refuseCommand { s with cmds := rest } reason) ∨
      ∃ i, decode s.chs.length s.cfg.n c = .ok i ∧ exec i { s with cmds := rest } = .next t) := by
  unfold step at h
  split at h
  · cases h
  · rename_i hf
    cases hs : s.cmds with
    | nil => simp only [fetchCommand, hs] at h; cases h
    | cons c rest =>
      refine ⟨c, rest, rfl, Bool.eq_false_iff.mpr hf, ?_⟩
      simp only [fetchCommand, hs, decodeFor] at h
      cases hd : decode s.chs.length s.cfg.n c with
      | error reason => rw [hd] at h; cases h; exact .inl ⟨reason, rfl, rfl⟩
      | ok i => rw [hd] at h; exact .inr ⟨i, rfl, h⟩

/-- The block a decoded command works on has the length of the block it finds (R64). -/
theorem blockOf_length {s : State} {i : Instr} (hb : s.buf.length = 2 * s.cfg.n) (hw : i.bufWf s.cfg.n = true) :
    (blockOf s i).length = 2 * s.cfg.n := by
  unfold blockOf
  cases hi : i.buf? with
  | none => exact hb
  | some b =>
    simp only [Instr.bufWf, hi] at hw
    cases b with
    | current => exact hb
    | supplied xs => exact beq_iff_eq.mp hw

/-! The writes of a step: none touches the parameters or ROM (R24, R61). -/

theorem State.Inv.withCmds {s : State} (h : s.Inv) (cmds : List Command) : ({ s with cmds := cmds } : State).Inv :=
  ⟨h.cfg, h.pool, h.rom, h.buf, h.chans⟩

theorem State.Inv.refuseCommand {s : State} (h : s.Inv) (reason : RefuseReason) : (Machine.refuseCommand s reason).Inv :=
  ⟨h.cfg, h.pool, h.rom, h.buf, h.chans⟩

theorem State.Inv.raiseFault {s : State} (h : s.Inv) (record : FaultRecord) : (Machine.raiseFault s record).Inv :=
  ⟨h.cfg, h.pool, h.rom, h.buf, h.chans⟩

theorem State.Inv.commit {s : State} (h : s.Inv) (ch : Nat) {w : Work} (hc : w.chan.Ok)
    (hb : w.buf.length = 2 * s.cfg.n) : (s.commit ch w).Inv where
  cfg := h.cfg
  pool := by simpa using h.pool
  rom := h.rom
  buf := hb
  chans c hm := by
    rcases List.mem_or_eq_of_mem_set hm with hm | rfl
    · exact h.chans c hm
    · exact hc

theorem State.Inv.commitMix {s : State} (h : s.Inv) {m : Mix} (hl : m.chs.length = s.chs.length)
    (hb : m.buf.length = 2 * s.cfg.n) (hc : ∀ c ∈ m.chs, c.Ok) : (s.commitMix m).Inv :=
  ⟨h.cfg, hl ▸ h.pool, h.rom, hb, hc⟩

/-! The ends of a command. -/

/-- A rule that leaves its channel as it should be, and a block of the length it was given, may end through or by a fault. -/
theorem State.Inv.finish {s : State} (h : s.Inv) (op : Opcode) (ch : Nat) {w : Work} {r : Run}
    (hb : w.buf.length = 2 * s.cfg.n) (hr : RuleEnd ch s.rom w r) (hc : r.chan.Ok) : (Machine.finish s op ch r).Inv := by
  cases r with
  | done w' => exact h.commit ch hc (hr.length.trans hb)
  | raised w' cause => exact (h.commit ch hc (hr.1.length.trans hb)).raiseFault _

theorem State.Inv.finishMix {s : State} {m : Mix} (h : (s.commitMix m).Inv) : (Machine.finishMix s m).Inv := by
  unfold Machine.finishMix
  split
  · exact h
  · exact h.raiseFault _

/-- `PROCESS` on one channel after another keeps every channel as it should be, also where a fault ends it (R297, R328). -/
theorem mixChannels_ok (cfg : Cfg) (rom : Memory) (i : Nat) {chs : List Chan} (buf : List Rat) (ev : List Event)
    (h : ∀ c ∈ chs, c.Ok) : ∀ c ∈ (mixChannels cfg rom i chs buf ev).chs, c.Ok := by
  obtain ⟨hl, -, hch⟩ := mixChannels_chan cfg rom i chs buf ev
  intro c' hm
  obtain ⟨j, hj⟩ := List.mem_iff_getElem?.mp hm
  have hlt : j < chs.length := hl ▸ (List.getElem?_eq_some_iff.mp hj).1
  have hOk : chs[j].Ok := h _ (List.getElem_mem hlt)
  have hproc (b : List Rat) : (ruleProcess cfg rom (i + j) (Work.start chs[j] b)).chan.Ok := ruleProcess_ok cfg rom _ hOk
  rcases hch j chs[j] (List.getElem?_eq_getElem hlt) with e | ⟨b, w, hr, e⟩ | ⟨b, w, cause, hr, e⟩ <;>
    obtain rfl := Option.some.inj (hj.symm.trans e)
  · exact hOk
  · have := hproc b; rwa [hr] at this
  · have := hproc b; rwa [hr] at this

/-! A command. -/

theorem execMixBlock_keeps_inv {s t : State} (h : s.Inv) {b : BufArg} (he : execMixBlock b s = .next t) : t.Inv := by
  cases he
  obtain ⟨hl, hb, -⟩ := mixChannels_chan s.cfg s.rom 0 s.chs (zeroBlock s.cfg.n) []
  exact (h.commitMix hl (hb.trans List.length_replicate) (mixChannels_ok s.cfg s.rom 0 _ _ h.chans)).finishMix

theorem onChannel_keeps_inv {s t : State} (h : s.Inv) {i : Instr} {ch : U8} (hw : i.bufWf s.cfg.n = true)
    (he : onChannel i.opcode ch (blockOf s i) s (ruleOf s i) = .next t) : t.Inv := by
  cases hc : s.chs[ch.toNat]? with
  | none => rw [onChannel_none hc] at he; cases he; exact h.refuseCommand _
  | some c =>
    rw [onChannel_some hc] at he
    cases he
    have hOk : c.Ok := h.chans c (List.mem_of_getElem? hc)
    exact h.finish _ _ (w := Work.start c (blockOf s i)) (blockOf_length h.buf hw) (ruleOf_end s i _ _) (ruleOf_ok s i _ hOk)

/-- `MIX_BLOCK` is the one command without a channel (R81). -/
theorem channel?_eq_none {i : Instr} (h : i.channel? = none) : ∃ b, i = .mixBlock b :=
  match i, h with
  | .mixBlock b, _ => ⟨b, rfl⟩

theorem exec_keeps_inv {s t : State} (h : s.Inv) {i : Instr} (hw : i.bufWf s.cfg.n = true) (he : exec i s = .next t) :
    t.Inv := by
  cases hch : i.channel? with
  | none =>
    obtain ⟨b, rfl⟩ := channel?_eq_none hch
    exact execMixBlock_keeps_inv (b := b) h he
  | some ch =>
    rw [exec_eq hch] at he
    exact onChannel_keeps_inv h hw he

/-- Settles O58: the command leaves the stream, then decode refuses it or its meaning keeps the invariant. -/
theorem stepKeepsTheInvariant : Obligations.StepKeepsTheInvariant := by
  intro s t h hst
  obtain ⟨c, rest, -, -, ⟨reason, -, rfl⟩ | ⟨i, hd, he⟩⟩ := step_cases hst
  · exact (h.withCmds rest).refuseCommand reason
  · exact exec_keeps_inv (h.withCmds rest) (decode_bufWf hd) he

end Sys2Proof.Machine
end

section
/-! PROOFS. The frame of a step: what a step does with the command it takes (R21, R110), and what no command touches: the parameters, ROM,
the kinds of the channels, and, for a one-channel command, the queue, the other channels and the block it does not name. -/

namespace Sys2Proof.Machine

/-! One step. -/

theorem fetchCommand_eq_none {s : State} (h : s.cmds = []) : fetchCommand s = none := by
  simp only [fetchCommand, h]

theorem fetchCommand_eq_some {s : State} {c : Command} {rest : List Command} (h : s.cmds = c :: rest) :
    fetchCommand s = some (c, { s with cmds := rest }) := by
  simp only [fetchCommand, h]

/-- A faulted block does not step (R110, R320). -/
theorem step_of_faulted {s : State} (h : s.faulted = true) : step s = .fault .quiescent := if_pos h

/-- A live block without a command has nothing to run (R21, log 1). -/
theorem step_of_nil {s : State} (hf : s.faulted = false) (h : s.cmds = []) : step s = .refused .noCommand := by
  unfold step
  rw [if_neg (by simp [hf]), fetchCommand_eq_none h]

/-- A command that decodes is executed (R110). -/
theorem step_of_decode {s : State} {c : Command} {rest : List Command} {i : Instr} (hf : s.faulted = false)
    (h : s.cmds = c :: rest) (hd : decode s.chs.length s.cfg.n c = .ok i) : step s = exec i { s with cmds := rest } := by
  have hd' : decodeFor { s with cmds := rest } c = .ok i := hd
  unfold step
  simp only [if_neg (show ¬ s.faulted = true by simp [hf]), fetchCommand_eq_some h, hd']

/-- Settles O5. -/
theorem stepRunsTheDecodedInstruction : Obligations.StepRunsTheDecodedInstruction := by
  intro s c rest i hf hc hd
  exact step_of_decode hf hc hd

/-- Settles O7. -/
theorem quiescentBlockTakesNoCommand : Obligations.QuiescentBlockTakesNoCommand := by
  intro s
  exact ⟨step_of_faulted, step_of_nil⟩

/-! The ends of a command, field by field. -/

/-- The block a rule leaves. -/
def Run.buf : Run → List Rat
  | .done w => w.buf
  | .raised w _ => w.buf

@[simp] theorem Run.buf_done (w : Work) : (Run.done w).buf = w.buf := rfl
@[simp] theorem Run.buf_raised (w : Work) (cause : FaultCause) : (Run.raised w cause).buf = w.buf := rfl

section
variable (s : State) (op : Opcode) (ch : Nat) (r : Run) (m : Mix)

@[simp] theorem finish_cfg : (finish s op ch r).cfg = s.cfg := by cases r <;> rfl
@[simp] theorem finish_rom : (finish s op ch r).rom = s.rom := by cases r <;> rfl
@[simp] theorem finish_cmds : (finish s op ch r).cmds = s.cmds := by cases r <;> rfl
@[simp] theorem finish_chs : (finish s op ch r).chs = s.chs.set ch r.chan := by cases r <;> rfl
@[simp] theorem finish_buf : (finish s op ch r).buf = r.buf := by cases r <;> rfl

@[simp] theorem finishMix_cfg : (finishMix s m).cfg = s.cfg := by unfold finishMix; split <;> rfl
@[simp] theorem finishMix_rom : (finishMix s m).rom = s.rom := by unfold finishMix; split <;> rfl
@[simp] theorem finishMix_chs : (finishMix s m).chs = m.chs := by unfold finishMix; split <;> rfl

end

/-- Everything a one-channel command can come to: refused for want of the channel, or its rule run on the channel and ended. -/
theorem exec_channel_cases {i : Instr} {ch : U8} {s t : State} (hi : i.channel? = some ch) (h : exec i s = .next t) :
    t = refuseCommand s .chRange ∨
    ∃ c, s.chs[ch.toNat]? = some c ∧
      t = finish s i.opcode ch.toNat (ruleOf s i ch.toNat (Work.start c (blockOf s i))) := by
  rw [exec_eq hi] at h
  cases hc : s.chs[ch.toNat]? with
  | none => rw [onChannel_none hc] at h; cases h; exact .inl rfl
  | some c => rw [onChannel_some hc] at h; cases h; exact .inr ⟨c, rfl, rfl⟩

/-! The kinds (R24). -/

theorem RuleEnd.kind {i : Nat} {rom : Memory} {w : Work} {r : Run} (h : RuleEnd i rom w r) :
    r.chan.kind = w.chan.kind := by
  cases r with
  | done w' => exact Moves.kind h
  | raised w' cause => exact Moves.kind h.1

/-- A channel replaced by one of its own kind. -/
theorem map_kind_set {chs : List Chan} {i : Nat} {c c' : Chan} (h : chs[i]? = some c) (hk : c'.kind = c.kind) :
    (chs.set i c').map (·.kind) = chs.map (·.kind) := by
  rw [List.map_set, hk, ← List.map_set, set_self h]

/-- `MIX_BLOCK` runs `PROCESS` on one channel after another, and each keeps its kind, also the one whose fault ends it. -/
theorem mixChannels_kind (cfg : Cfg) (rom : Memory) (i : Nat) (chs : List Chan) (buf : List Rat) (ev : List Event) :
    (mixChannels cfg rom i chs buf ev).chs.map (·.kind) = chs.map (·.kind) := by
  induction chs generalizing i buf ev with
  | nil => rfl
  | cons c rest ih =>
    have hk := (ruleProcess_end cfg rom i (Work.start c buf)).kind
    cases hr : ruleProcess cfg rom i (Work.start c buf) with
    | done w =>
      rw [hr] at hk
      rw [mixChannels_done hr, List.map_cons, List.map_cons, ih]
      exact congrArg (· :: _) hk
    | raised w cause =>
      rw [hr] at hk
      rw [mixChannels_raised hr, List.map_cons, List.map_cons]
      exact congrArg (· :: _) hk

theorem exec_configuration {i : Instr} {s t : State} (h : exec i s = .next t) :
    t.cfg = s.cfg ∧ t.rom = s.rom ∧ t.chs.map (·.kind) = s.chs.map (·.kind) := by
  cases hi : i.channel? with
  | none =>
    obtain ⟨b, rfl⟩ := channel?_eq_none hi
    cases h
    exact ⟨finishMix_cfg .., finishMix_rom .., by rw [finishMix_chs, mixChannels_kind]⟩
  | some ch =>
    rcases exec_channel_cases hi h with rfl | ⟨c, hc, rfl⟩
    · exact ⟨rfl, rfl, rfl⟩
    · have hk := (ruleOf_end s i ch.toNat (Work.start c (blockOf s i))).kind
      exact ⟨finish_cfg .., finish_rom .., by rw [finish_chs, map_kind_set hc hk]⟩

/-- Settles O55: taking the command from the stream changes none of the three, nor does refusing or executing it. -/
theorem configurationIsFixed : Obligations.ConfigurationIsFixed := by
  intro s t hst
  obtain ⟨c, rest, -, -, ⟨reason, -, rfl⟩ | ⟨i, -, he⟩⟩ := step_cases hst
  · exact ⟨rfl, rfl, rfl⟩
  · exact exec_configuration (s := { s with cmds := rest }) he

/-! The block (R64): only `PROCESS` and `MIX_BLOCK` write it. -/

theorem kindCheck_buf {kind : Kind} {w : Work} {rest : Run} (h : rest.buf = w.buf) : (kindCheck kind w rest).buf = w.buf := by
  rcases kindCheck_cases kind w rest with ⟨-, e⟩ | ⟨-, e⟩
  · rw [e, h]
  · rw [e, Run.buf_raised]

theorem Run.andThen_buf {b : List Rat} {r : Run} {f : Work → Run} (hr : r.buf = b) (hf : ∀ w, w.buf = b → (f w).buf = b) :
    (r.andThen f).buf = b := by
  cases r with
  | done w => exact hf w hr
  | raised w cause => exact hr

theorem pcm8Decode_buf (rom : Memory) (w : Work) : (pcm8Decode rom w).buf = w.buf := by
  unfold pcm8Decode
  split
  · split <;> rfl
  · rfl

theorem pcm8Detect_buf (cfg : Cfg) (rom : Memory) (w : Work) : (pcm8Detect cfg rom w).buf = w.buf := by
  unfold pcm8Detect
  dsimp only
  split
  · split <;> rfl
  · rfl

theorem ruleInitPcm8_buf (cfg : Cfg) (rom : Memory) (st : StartArgs) (off : U32) (fixed comp : Bool) (i : Nat) (w : Work) :
    (ruleInitPcm8 cfg rom st off fixed comp i w).buf = w.buf := by
  apply kindCheck_buf
  split
  · rfl
  · have detect : ∀ w', w'.buf = w.buf →
        ((pcm8Detect cfg rom w').andThen fun w => .done (initEpilogue st w)).buf = w.buf :=
      fun w' h => Run.andThen_buf ((pcm8Detect_buf cfg rom w').trans h) fun _ h => h
    exact Run.andThen_buf (pcm8Decode_buf rom _) detect

theorem ruleInitWave_buf (cfg : Cfg) (rom : Memory) (st : StartArgs) (off : U32) (i : Nat) (w : Work) :
    (ruleInitWave cfg rom st off i w).buf = w.buf := by
  apply kindCheck_buf
  split <;> rfl

theorem psgRelease_buf (i : Nat) (w : Work) : (psgRelease i w).buf = w.buf := by
  unfold psgRelease
  split
  · rfl
  · split <;> rfl

theorem ruleRelease_buf (i : Nat) (w : Work) : (ruleRelease i w).buf = w.buf := by
  cases h : late w.chan with
  | true => rw [ruleRelease_late h, Run.buf_done]
  | false =>
    by_cases hk : w.chan.kind = .pcm8
    · rw [ruleRelease_pcm8 h hk]; rfl
    · rw [ruleRelease_psg h hk, Run.buf_done, psgRelease_buf]

theorem expire_buf (i : Nat) (w : Work) : (expire i w).buf = w.buf := by
  unfold expire
  split
  · rfl
  · unfold psgExpire
    split <;> rfl

theorem ruleTickNote_buf (i : Nat) (w : Work) : (ruleTickNote i w).buf = w.buf := by
  cases h : late w.chan with
  | true => rw [ruleTickNote_late h, Run.buf_done, answer_buf]
  | false =>
    by_cases h0 : w.chan.note.duration = 0
    · rw [ruleTickNote_endless h h0, Run.buf_done, answer_buf]
    · by_cases h1 : w.chan.note.duration = 1
      · rw [ruleTickNote_ends h h1, Run.buf_done, answer_buf, expire_buf, onChan_buf]
      · rw [ruleTickNote_counts h h0 h1, Run.buf_done, answer_buf, onChan_buf]

/-- The rule of a command without a `buf` operand leaves the block it is given. -/
theorem ruleOf_buf (s : State) {i : Instr} (h : i.buf? = none) (ch : Nat) (w : Work) : (ruleOf s i ch w).buf = w.buf := by
  cases i with
  | initPcm8 c st off fixed comp => exact ruleInitPcm8_buf s.cfg s.rom st off fixed comp ch w
  | initSquare c st duty => exact kindCheck_buf rfl
  | initWave c st off => exact ruleInitWave_buf s.cfg s.rom st off ch w
  | initNoise c st npat => exact kindCheck_buf rfl
  | setVolume c vol pan => rfl
  | setPitch c pitch => rfl
  | release c => exact ruleRelease_buf ch w
  | tickNote c => exact ruleTickNote_buf ch w
  | stop c => rfl
  | process c b => cases h
  | mixBlock b => cases h

theorem blockOf_of_buf?_none {s : State} {i : Instr} (h : i.buf? = none) : blockOf s i = s.buf := by
  simp only [blockOf, h]

/-- Settles O54: a refusal writes the mark and the output, and the end of a rule writes no channel but its own. -/
theorem oneChannelCommandsLeaveTheRest : Obligations.OneChannelCommandsLeaveTheRest := by
  intro i ch s t hi h
  rcases exec_channel_cases hi h with rfl | ⟨c, -, rfl⟩
  · exact ⟨rfl, rfl, rfl, rfl, fun _ => rfl, fun _ _ => rfl, fun _ => rfl⟩
  · refine ⟨finish_cfg .., finish_rom .., finish_cmds .., ?length, fun a => ?byte, fun j hj => ?other, fun hb => ?block⟩
    case length => rw [finish_chs, List.length_set]
    case byte => rw [finish_rom]
    case other => rw [finish_chs, List.getElem?_set_ne hj.symm]
    case block => rw [finish_buf, ruleOf_buf s hb, start_buf, blockOf_of_buf?_none hb]

end Sys2Proof.Machine
end

section
/-! PROOFS. Two `PROCESS` on one block (R73): what each adds to the block, and how it leaves its own channel, does not depend on the other. -/

namespace Sys2Proof.Machine

/-- A `PROCESS` that is through on one block adds the same to every block, and is through on it with nothing else different (R64, R73). -/
theorem ruleProcess_done_adds {cfg : Cfg} {rom : Memory} {i : Nat} {c : Chan} {buf : List Rat} {w : Work}
    (h : ruleProcess cfg rom i (Work.start c buf) = .done w) :
    ∃ d, w.buf = addAll d buf ∧
      ∀ buf', ruleProcess cfg rom i (Work.start c buf') = .done (w.withBuf (addAll d buf')) := by
  obtain ⟨d, r0, e⟩ := ruleProcess_block cfg rom i c
  rw [e] at h
  cases r0 with
  | done w0 => cases h; exact ⟨d, rfl, e⟩
  | raised w0 cause => cases h

/-- `PROCESS` is its rule within the frame of a one-channel command (R110, R119). -/
theorem exec_process (ch : U8) (b : BufArg) (s : State) :
    exec (.process ch b) s = onChannel .process ch (bufOf b s) s (ruleProcess s.cfg s.rom) := exec_eq rfl s

/-- `PROCESS` of a channel whose rule is through writes back what the rule leaves (R119). -/
theorem exec_process_of_done {s : State} {ch : U8} {b : BufArg} {c : Chan} {w : Work} (hc : s.chs[ch.toNat]? = some c)
    (hr : ruleProcess s.cfg s.rom ch.toNat (Work.start c (bufOf b s)) = .done w) :
    exec (.process ch b) s = .next (s.commit ch.toNat w) := by
  rw [exec_process, onChannel_some hc, hr]
  rfl

/-- A `PROCESS` that answers ok has a channel of the pool, and its rule is through (R119, R320, R321). -/
theorem exec_process_ok {s t : State} {ch : U8} {b : BufArg} (h : exec (.process ch b) s = .next t)
    (ho : t.out.outcome = .ok) :
    ∃ c w, s.chs[ch.toNat]? = some c ∧ ruleProcess s.cfg s.rom ch.toNat (Work.start c (bufOf b s)) = .done w ∧
      t = s.commit ch.toNat w := by
  rw [exec_process] at h
  rcases onChannel_cases h with ⟨-, rfl⟩ | ⟨c, hc, ⟨w, hr, ht⟩ | ⟨w, cause, -, rfl⟩⟩
  · cases ho
  · exact ⟨c, w, hc, hr, ht⟩
  · cases ho

/-- Settles O53: each command finds its own channel as it was before the other, and what the two add to the block commutes. -/
theorem processOrderDoesNotMatter : Obligations.ProcessOrderDoesNotMatter := by
  intro s c1 c2 a a' hne _ _ h1 ok1 h2 ok2
  obtain ⟨x1, w1, hc1, hr1, rfl⟩ := exec_process_ok h1 ok1
  obtain ⟨x2, w2, hc2, hr2, rfl⟩ := exec_process_ok h2 ok2
  obtain ⟨d1, hb1, adds1⟩ := ruleProcess_done_adds hr1
  obtain ⟨d2, hb2, adds2⟩ := ruleProcess_done_adds hr2
  have hn : c1.toNat ≠ c2.toNat := fun h => hne (BitVec.eq_of_toNat_eq h)
  have chan2 : (s.commit c1.toNat w1).chs[c2.toNat]? = some x2 := by rw [commit_chs, List.getElem?_set_ne hn, hc2]
  have chan1 : (s.commit c2.toNat w2).chs[c1.toNat]? = some x1 := by rw [commit_chs, List.getElem?_set_ne hn.symm, hc1]
  refine ⟨_, _, exec_process_of_done chan2 (adds2 _), exec_process_of_done chan1 (adds1 _), rfl, rfl, ?block, ?channels⟩
  case block =>
    calc addAll d2 w1.buf
      _ = addAll d2 (addAll d1 s.buf) := congrArg (addAll d2) hb1
      _ = addAll d1 (addAll d2 s.buf) := addAll_comm d2 d1 s.buf
      _ = addAll d1 w2.buf := congrArg (addAll d1) hb2.symm
  case channels => exact List.set_comm w1.chan w2.chan hn

end Sys2Proof.Machine
end

section
/-! PROOFS. The encoding of commands (R80 to R86). Decode is read in two halves: its tests of the word, each with the answer it gives, and its
readers of the operand record, each the inverse of the record an instruction is spelled with. Together they say what decode accepts:
exactly the encodings of the well-formed instructions (`decode_ok_iff`). -/

namespace Sys2Proof

/-! The tests of the word, in the order of R84. -/

/-- The test of `CH` for one opcode (R84): `MIX_BLOCK` has 0 there, every other command a channel of the pool. -/
def Opcode.ChFits (nch : Nat) (op : Opcode) (ch : U8) : Prop :=
  if op = .mixBlock then ch = 0 else ch.toNat < nch

theorem Opcode.chFits_mixBlock {nch : Nat} {ch : U8} : Opcode.mixBlock.ChFits nch ch ↔ ch = 0 := by
  rw [ChFits, if_pos rfl]

theorem Opcode.chFits_of_ne {nch : Nat} {op : Opcode} {ch : U8} (hop : op ≠ .mixBlock) : op.ChFits nch ch ↔ ch.toNat < nch := by
  rw [ChFits, if_neg hop]

theorem Opcode.code_eq_mixBlock_iff (op : Opcode) : op.code = 0xB ↔ op = .mixBlock := by
  constructor
  case mp =>
    intro h
    have hread := opcodeOf_code op
    rw [h] at hread
    exact (Option.some.inj hread).symm
  case mpr => rintro rfl; rfl

section
variable {nch n : Nat} {c : Command}

theorem decode_of_rsv (hr : fieldRsv c.word ≠ 0) : decode nch n c = .error .rsvNonzero := if_pos hr

theorem decode_of_reservedOp (hr : fieldRsv c.word = 0) (hop : opcodeOf (fieldOp c.word) = none) :
    decode nch n c = .error .reservedOp := by
  rw [decode, if_neg (not_not.mpr hr), hop]

theorem decode_of_mixBlock_channel (hr : fieldRsv c.word = 0) (hop : opcodeOf (fieldOp c.word) = some .mixBlock)
    (hch : fieldCh c.word ≠ 0) : decode nch n c = .error .rsvNonzero := by
  rw [decode, if_neg (not_not.mpr hr), hop]
  exact if_pos hch

theorem decode_of_chRange {op : Opcode} (hr : fieldRsv c.word = 0) (hop : opcodeOf (fieldOp c.word) = some op)
    (hne : op ≠ .mixBlock) (hch : nch ≤ (fieldCh c.word).toNat) : decode nch n c = .error .chRange := by
  rw [decode, if_neg (not_not.mpr hr), hop]
  cases op
  case mixBlock => exact absurd rfl hne
  all_goals exact if_pos hch

/-- A command whose word passes every test is answered by the readers of its record. -/
theorem decode_of_chFits {op : Opcode} (hr : fieldRsv c.word = 0) (hop : opcodeOf (fieldOp c.word) = some op)
    (hch : op.ChFits nch (fieldCh c.word)) : decode nch n c = readOperands n (fieldCh c.word) op c.operands := by
  rw [decode, if_neg (not_not.mpr hr), hop]
  cases op
  case mixBlock => exact if_neg (not_not.mpr (Opcode.chFits_mixBlock.mp hch))
  all_goals exact if_neg (Nat.not_le.mpr hch)

/-- What decode accepts has passed every test of the word. -/
theorem decode_ok_word {i : Instr} (h : decode nch n c = .ok i) :
    ∃ op, fieldRsv c.word = 0 ∧ opcodeOf (fieldOp c.word) = some op ∧ op.ChFits nch (fieldCh c.word) := by
  by_cases hr : fieldRsv c.word = 0
  case neg => rw [decode_of_rsv hr] at h; cases h
  cases hop : opcodeOf (fieldOp c.word) with
  | none => rw [decode_of_reservedOp hr hop] at h; cases h
  | some op =>
    refine ⟨op, hr, rfl, ?_⟩
    by_cases hm : op = .mixBlock
    · subst hm
      by_contra hch
      rw [decode_of_mixBlock_channel hr hop (mt Opcode.chFits_mixBlock.mpr hch)] at h
      cases h
    · by_contra hch
      rw [decode_of_chRange hr hop hm (Nat.not_lt.mp (mt (Opcode.chFits_of_ne hm).mpr hch))] at h
      cases h

end

/-! The readers of the record (R83). -/

/-- `i` is the instruction with opcode `op`, the channel `ch` (where its opcode has one) and the record `r`. -/
structure Instr.SpelledBy (i : Instr) (op : Opcode) (ch : U8) (r : Operands) : Prop where
  opcode : i.opcode = op
  channel : i.channel? = if op = .mixBlock then none else some ch
  operands : i.operands = r

theorem readInitPcm8_spelledBy {ch : U8} {st : RawStart} {off fixed comp : Int} {i : Instr}
    (h : readInitPcm8 ch st off fixed comp = some i) : i.SpelledBy .initPcm8 ch (.initPcm8 st off fixed comp) := by
  unfold readInitPcm8 at h
  split at h <;> cases h
  rename_i hst hoff hfixed hcomp
  exact ⟨rfl, rfl, by rw [Instr.operands, readStart_eq hst, readU_eq hoff, readFlag_eq hfixed, readFlag_eq hcomp]⟩

theorem readInitSquare_spelledBy {ch : U8} {st : RawStart} {duty : Int} {i : Instr}
    (h : readInitSquare ch st duty = some i) : i.SpelledBy .initSquare ch (.initSquare st duty) := by
  unfold readInitSquare at h
  split at h <;> cases h
  rename_i hst hduty
  exact ⟨rfl, rfl, by rw [Instr.operands, readStart_eq hst, readU_eq hduty]⟩

theorem readInitWave_spelledBy {ch : U8} {st : RawStart} {off : Int} {i : Instr}
    (h : readInitWave ch st off = some i) : i.SpelledBy .initWave ch (.initWave st off) := by
  unfold readInitWave at h
  split at h <;> cases h
  rename_i hst hoff
  exact ⟨rfl, rfl, by rw [Instr.operands, readStart_eq hst, readU_eq hoff]⟩

theorem readInitNoise_spelledBy {ch : U8} {st : RawStart} {npat : Int} {i : Instr}
    (h : readInitNoise ch st npat = some i) : i.SpelledBy .initNoise ch (.initNoise st npat) := by
  unfold readInitNoise at h
  split at h <;> cases h
  rename_i hst hnpat
  exact ⟨rfl, rfl, by rw [Instr.operands, readStart_eq hst, readNpat_eq hnpat]⟩

theorem readVolPan_spelledBy {ch : U8} {vol pan : Int} {i : Instr}
    (h : readVolPan ch vol pan = some i) : i.SpelledBy .setVolume ch (.volPan vol pan) := by
  unfold readVolPan at h
  split at h <;> cases h
  rename_i hvol hpan
  exact ⟨rfl, rfl, by rw [Instr.operands, readU_eq hvol, readI_eq (by decide) hpan]⟩

theorem readPitch_spelledBy {ch : U8} {p : Int} {i : Instr}
    (h : (readI 32 p).map (Instr.setPitch ch) = some i) : i.SpelledBy .setPitch ch (.pitch p) := by
  obtain ⟨v, hv, rfl⟩ := Option.map_eq_some_iff.mp h
  exact ⟨rfl, rfl, by rw [Instr.operands, readI_eq (by decide) hv]⟩

/-- The readers invent nothing: what they answer spells the record they read. -/
theorem readOperands_spelledBy {n : Nat} {ch : U8} {op : Opcode} {r : Operands} {i : Instr}
    (h : readOperands n ch op r = .ok i) : i.SpelledBy op ch r := by
  unfold readOperands at h
  split at h
  case h_1 => exact readInitPcm8_spelledBy (orRange_eq.mp h)
  case h_2 => exact readInitSquare_spelledBy (orRange_eq.mp h)
  case h_3 => exact readInitWave_spelledBy (orRange_eq.mp h)
  case h_4 => exact readInitNoise_spelledBy (orRange_eq.mp h)
  case h_5 => exact readVolPan_spelledBy (orRange_eq.mp h)
  case h_6 => exact readPitch_spelledBy (orRange_eq.mp h)
  case h_7 | h_8 | h_10 => cases h; exact ⟨rfl, rfl, rfl⟩
  case h_9 | h_11 =>
    split at h <;> cases h
    exact ⟨rfl, rfl, rfl⟩
  case h_12 => cases h

@[simp] theorem readInitPcm8_raw (ch : U8) (st : StartArgs) (off : U32) (fixed comp : Bool) :
    readInitPcm8 ch st.raw off.toNat (rawFlag fixed) (rawFlag comp) = some (.initPcm8 ch st off fixed comp) := by
  simp only [readInitPcm8, readStart_raw, readU_toNat, readFlag_rawFlag]

@[simp] theorem readInitSquare_raw (ch : U8) (st : StartArgs) (duty : BitVec 2) :
    readInitSquare ch st.raw duty.toNat = some (.initSquare ch st duty) := by
  simp only [readInitSquare, readStart_raw, readU_toNat]

@[simp] theorem readInitWave_raw (ch : U8) (st : StartArgs) (off : U32) :
    readInitWave ch st.raw off.toNat = some (.initWave ch st off) := by
  simp only [readInitWave, readStart_raw, readU_toNat]

@[simp] theorem readInitNoise_raw (ch : U8) (st : StartArgs) (npat : NoisePat) :
    readInitNoise ch st.raw npat.raw = some (.initNoise ch st npat) := by
  simp only [readInitNoise, readStart_raw, readNpat_raw]

@[simp] theorem readVolPan_raw (ch vol : U8) (pan : I8) :
    readVolPan ch vol.toNat pan.toInt = some (.setVolume ch vol pan) := by
  simp only [readVolPan, readU_toNat, readI_toInt]

/-- The readers lose nothing: the record of an instruction reads as that instruction. -/
theorem readOperands_operands {n : Nat} {i : Instr} (hb : i.bufWf n = true) :
    readOperands n (i.channel?.getD 0) i.opcode i.operands = .ok i := by
  cases i with
  | initPcm8 | initSquare | initWave | initNoise | setVolume | setPitch =>
    simp only [Instr.opcode, Instr.channel?, Instr.operands, Option.getD_some, readOperands, orRange_eq, readInitPcm8_raw,
      readInitSquare_raw, readInitWave_raw, readInitNoise_raw, readVolPan_raw, readI_toInt, Option.map_some]
  | process ch b => exact if_pos hb
  | mixBlock b => exact if_pos hb
  | release ch | tickNote ch | stop ch => rfl

/-- The two refusals the readers know: a record of another shape, and a value outside its width (R84). -/
theorem readOperands_error {n : Nat} {ch : U8} {op : Opcode} {r : Operands} {e : RefuseReason}
    (h : readOperands n ch op r = .error e) : e = .operandShape ∨ e = .operandRange := by
  unfold readOperands at h
  split at h
  case h_1 | h_2 | h_3 | h_4 | h_5 | h_6 => exact .inr (orRange_error h)
  case h_7 | h_8 | h_10 => cases h
  case h_9 | h_11 =>
    split at h <;> cases h
    exact .inr rfl
  case h_12 => cases h; exact .inl rfl

/-! The round trip. -/

/-- The test of `CH` in decode is the one of `Instr.wf`. -/
theorem Instr.chWf_iff {nch : Nat} {i : Instr} : i.chWf nch = true ↔ i.opcode.ChFits nch (i.channel?.getD 0) := by
  cases i with
  | mixBlock b => exact iff_of_true rfl (Opcode.chFits_mixBlock.mpr rfl)
  | _ => exact decide_eq_true_iff

theorem Instr.wf_iff {nch n : Nat} {i : Instr} : i.wf nch n = true ↔ i.chWf nch = true ∧ i.bufWf n = true :=
  Bool.and_eq_true_iff

/-- The `CH` field that passes its test is the one encode writes: the channel of the instruction, or 0 (R81). -/
theorem Instr.SpelledBy.channel_getD {nch : Nat} {i : Instr} {op : Opcode} {ch : U8} {r : Operands} (h : i.SpelledBy op ch r)
    (hch : op.ChFits nch ch) : i.channel?.getD 0 = ch := by
  rw [h.channel]
  split
  case isTrue hm => subst hm; exact (Opcode.chFits_mixBlock.mp hch).symm
  case isFalse => rfl

theorem decode_encode {nch n : Nat} {i : Instr} (h : i.wf nch n = true) : decode nch n (encode i) = .ok i := by
  obtain ⟨hch, hb⟩ := Instr.wf_iff.mp h
  obtain ⟨hop, hcf, hr⟩ := Laws.WordFields.fields i.opcode (i.channel?.getD 0)
  calc decode nch n (encode i)
    _ = readOperands n (fieldCh (encode i).word) i.opcode i.operands :=
      decode_of_chFits hr ((congrArg opcodeOf hop).trans (opcodeOf_code _)) (hcf.symm ▸ Instr.chWf_iff.mp hch)
    _ = readOperands n (i.channel?.getD 0) i.opcode i.operands := congrArg (readOperands n · i.opcode i.operands) hcf
    _ = .ok i := readOperands_operands hb

/-- Decode accepts exactly the encodings of the well-formed instructions. -/
theorem decode_ok_iff {nch n : Nat} {c : Command} {i : Instr} :
    decode nch n c = .ok i ↔ encode i = c ∧ i.wf nch n = true := by
  constructor
  case mp =>
    intro h
    obtain ⟨op, hr, hop, hch⟩ := decode_ok_word h
    have hs : i.SpelledBy op (fieldCh c.word) c.operands := readOperands_spelledBy (decode_of_chFits hr hop hch ▸ h)
    have hget := hs.channel_getD hch
    have hword : commandWord i.opcode (i.channel?.getD 0) = c.word := by
      rw [hs.opcode, hget, commandWord_fields (opcodeOf_eq hop) hr]
    have hwf : i.chWf nch = true := Instr.chWf_iff.mpr (by rw [hs.opcode, hget]; exact hch)
    exact ⟨by rw [encode, hword, hs.operands], Instr.wf_iff.mpr ⟨hwf, decode_bufWf h⟩⟩
  case mpr =>
    rintro ⟨rfl, hwf⟩
    exact decode_encode hwf

/-- Settles O1: the tests of the word pass on the fields encode wrote, and the readers undo the record. -/
theorem decodeOfEncodeIsTheInstruction : Obligations.DecodeOfEncodeIsTheInstruction := by
  intro nch n i h
  exact decode_encode h

/-- Settles O2: the tests fix the word's three fields, and the readers fix the record. -/
theorem encodeOfDecodeIsTheCommand : Obligations.EncodeOfDecodeIsTheCommand := by
  intro nch n c i h
  exact decode_ok_iff.mp h

/-- Settles O3, test by test; a word that passes them all leaves only the refusals of the record. -/
theorem refusalsOfTheWordInOrder : Obligations.RefusalsOfTheWordInOrder := by
  intro nch n c
  split
  case isTrue hr => exact decode_of_rsv hr
  case isFalse hr =>
  have hr := not_not.mp hr
  split
  case isTrue hop => exact decode_of_reservedOp hr ((opcodeOf_none_iff _).mpr hop)
  case isFalse hop =>
  obtain ⟨op, hop⟩ := Option.ne_none_iff_exists'.mp (mt (opcodeOf_none_iff _).mp hop)
  have hmix : fieldOp c.word = 0xB ↔ op = .mixBlock := by rw [opcodeOf_eq hop, Opcode.code_eq_mixBlock_iff]
  simp only [hmix, ne_eq]
  split
  case isTrue hm =>
    obtain ⟨rfl, hch⟩ := hm
    exact decode_of_mixBlock_channel hr hop hch
  case isFalse hm =>
  split
  case isTrue hc => exact decode_of_chRange hr hop hc.1 hc.2
  case isFalse hc =>
  have hch : op.ChFits nch (fieldCh c.word) := by
    unfold Opcode.ChFits
    split
    case isTrue h => exact not_not.mp fun hne => hm ⟨h, hne⟩
    case isFalse h => exact Nat.not_le.mp fun hle => hc ⟨h, hle⟩
  intro e he
  exact readOperands_error (decode_of_chFits hr hop hch ▸ he)

/-- Settles O4: the first four are encodings of well-formed instructions, the last three each fail one test of the word. -/
theorem wordsOfTheTableDecode : Obligations.WordsOfTheTableDecode :=
  ⟨decode_ok_iff.mpr ⟨rfl, rfl⟩, decode_ok_iff.mpr ⟨rfl, rfl⟩, decode_ok_iff.mpr ⟨rfl, rfl⟩, decode_ok_iff.mpr ⟨rfl, rfl⟩,
    decode_of_reservedOp rfl rfl, decode_of_rsv (by decide),
    decode_of_chRange (op := .process) rfl rfl (by decide) (by decide)⟩

end Sys2Proof
end

section
/-! PROOFS. What a step does to the envelope and to the ownership of a channel (R128, R129): every rule moves its channel (`Moves`), and
`MIX_BLOCK` moves one channel after another. -/

namespace Sys2Proof.Machine

/-! The ends of a one-channel command. -/

/-- The work a rule leaves, through or faulted (R320). -/
def Run.work : Run → Work
  | .done w => w
  | .raised w _ => w

@[simp] theorem Run.work_done (w : Work) : (Run.done w).work = w := rfl
@[simp] theorem Run.work_raised (w : Work) (cause : FaultCause) : (Run.raised w cause).work = w := rfl

theorem Run.chan_eq_work (r : Run) : r.chan = r.work.chan := by cases r <;> rfl

@[simp] theorem finish_events (s : State) (op : Opcode) (ch : Nat) (r : Run) :
    (finish s op ch r).out.events = r.work.events := by cases r <;> rfl

@[simp] theorem finishMix_events (s : State) (m : Mix) : (finishMix s m).out.events = m.events := by
  unfold finishMix
  split <;> rfl

theorem RuleEnd.moves {i : Nat} {rom : Memory} {w : Work} {r : Run} (h : RuleEnd i rom w r) : Moves i w r.work := by
  cases r with
  | done w' => exact h
  | raised w' cause => exact h.1

/-! The envelope (R128). -/

/-- The envelope of a channel has gone forward in the same note, or a new note has begun. -/
def Chan.Forward (c c' : Chan) : Prop :=
  stateCode c.state ≤ stateCode c'.state ∧ c'.gen = c.gen ∨ c'.state = .initializing ∧ c'.gen = c.gen + 1

theorem Chan.Forward.refl (c : Chan) : c.Forward c := .inl ⟨le_rfl, rfl⟩

theorem mixChannels_forward {cfg : Cfg} {rom : Memory} {i : Nat} {chs : List Chan} {buf : List Rat} {ev : List Event} {j : Nat}
    {c c' : Chan} (hc : chs[j]? = some c) (hc' : (mixChannels cfg rom i chs buf ev).chs[j]? = some c') : c.Forward c' := by
  have hproc (b : List Rat) : c.Forward (ruleProcess cfg rom (i + j) (Work.start c b)).work.chan :=
    (ruleProcess_end cfg rom (i + j) (Work.start c b)).moves.forward
  rcases (mixChannels_chan cfg rom i chs buf ev).2.2 j c hc with e | ⟨b, w, hr, e⟩ | ⟨b, w, cause, hr, e⟩ <;>
    obtain rfl := Option.some.inj (hc'.symm.trans e)
  · exact .refl c'
  · have := hproc b; rwa [hr] at this
  · have := hproc b; rwa [hr] at this

/-- A channel written to, or another one as it was. -/
theorem getElem?_set_cases {chs : List Chan} {i j : Nat} {x c c' : Chan} (hc : chs[j]? = some c)
    (hc' : (chs.set i x)[j]? = some c') : j = i ∧ c' = x ∨ j ≠ i ∧ c' = c := by
  by_cases hj : j = i
  · subst hj
    rw [List.getElem?_set_self (List.getElem?_eq_some_iff.mp hc).1] at hc'
    exact .inl ⟨rfl, (Option.some.inj hc').symm⟩
  · rw [List.getElem?_set_ne (Ne.symm hj), hc] at hc'
    exact .inr ⟨hj, (Option.some.inj hc').symm⟩

theorem exec_forward {i : Instr} {s t : State} (h : exec i s = .next t) {j : Nat} {c c' : Chan} (hc : s.chs[j]? = some c)
    (hc' : t.chs[j]? = some c') : c.Forward c' := by
  cases hi : i.channel? with
  | none =>
    obtain ⟨b, rfl⟩ := channel?_eq_none hi
    cases h
    rw [finishMix_chs] at hc'
    exact mixChannels_forward hc hc'
  | some ch =>
    rcases exec_channel_cases hi h with rfl | ⟨x, hx, rfl⟩
    · obtain rfl := Option.some.inj (hc.symm.trans hc')
      exact .refl c
    · rw [finish_chs] at hc'
      rcases getElem?_set_cases hc hc' with ⟨rfl, rfl⟩ | ⟨-, rfl⟩
      · obtain rfl := Option.some.inj (hc.symm.trans hx)
        rw [Run.chan_eq_work]
        exact (ruleOf_end s i ch.toNat (Work.start c (blockOf s i))).moves.forward
      · exact .refl c'

/-- Settles O56: a refusal leaves the channels, a rule moves its own channel forward or starts a note on it, and `MIX_BLOCK` moves each. -/
theorem envelopeOnlyMovesForward : Obligations.EnvelopeOnlyMovesForward := by
  intro s t hst j c c' hc hc'
  obtain ⟨cmd, rest, -, -, ⟨reason, -, rfl⟩ | ⟨i, -, he⟩⟩ := step_cases hst
  · obtain rfl := Option.some.inj (hc.symm.trans hc')
    exact Chan.Forward.refl c
  · exact exec_forward (s := { s with cmds := rest }) he hc hc'

/-! The events (R129). -/

/-- The events of a rule from its start are the path from its channel's owner before it to the one after it. -/
theorem Moves.ownerPath {i : Nat} {c : Chan} {buf : List Rat} {w : Work} (h : Moves i (Work.start c buf) w) :
    OwnerPath i w.events c.owner w.chan.owner := by
  obtain ⟨ev, hev, hpath⟩ := h.owner
  rw [hev]
  exact hpath

/-- The events `ev` lead each channel of the list `chs`, numbered from `i` on, to its owner in `chs'`, and say nothing of a channel before them. -/
structure OwnerPaths (i : Nat) (ev : List Event) (chs chs' : List Chan) : Prop where
  own : ∀ {j : Nat} {c c' : Chan}, chs[j]? = some c → chs'[j]? = some c' →
    ∀ rest, ownerAfter (i + j) (ev ++ rest) c.owner = ownerAfter (i + j) rest c'.owner
  before : ∀ k < i, ∀ rest cur, ownerAfter k (ev ++ rest) cur = ownerAfter k rest cur

/-- No event, no channel changed. -/
theorem OwnerPaths.refl (i : Nat) (chs : List Chan) : OwnerPaths i [] chs chs where
  own hc hc' rest := by
    obtain rfl := Option.some.inj (hc.symm.trans hc')
    rfl
  before _ _ _ _ := rfl

/-- The path of the first channel, then those of the others. -/
theorem OwnerPaths.cons {i : Nat} {ev ev' : List Event} {c c' : Chan} {chs chs' : List Chan}
    (h : OwnerPath i ev c.owner c'.owner) (hs : OwnerPaths (i + 1) ev' chs chs') :
    OwnerPaths i (ev ++ ev') (c :: chs) (c' :: chs') where
  own {j} x x' hx hx' rest := by
    rw [List.append_assoc]
    cases j with
    | zero =>
      obtain rfl := Option.some.inj hx
      obtain rfl := Option.some.inj hx'
      rw [Nat.add_zero, h.own, hs.before i (Nat.lt_succ_self i)]
    | succ j =>
      have hown := hs.own (j := j) hx hx' rest
      rw [show i + 1 + j = i + (j + 1) by omega] at hown
      rw [h.other (i + (j + 1)) (by omega), hown]
  before k hk rest cur := by
    rw [List.append_assoc, h.other k (by omega), hs.before k (by omega)]

theorem mixChannels_ownerPaths (cfg : Cfg) (rom : Memory) (i : Nat) (chs : List Chan) (buf : List Rat) (ev : List Event) :
    ∃ ev', (mixChannels cfg rom i chs buf ev).events = ev ++ ev' ∧
      OwnerPaths i ev' chs (mixChannels cfg rom i chs buf ev).chs := by
  induction chs generalizing i buf ev with
  | nil => exact ⟨[], (List.append_nil ev).symm, .refl i []⟩
  | cons c chs ih =>
    have hpath := (ruleProcess_end cfg rom i (Work.start c buf)).moves.ownerPath
    cases hr : ruleProcess cfg rom i (Work.start c buf) with
    | done w =>
      rw [hr] at hpath
      obtain ⟨ev', hev, hpaths⟩ := ih (i + 1) w.buf (ev ++ w.events)
      rw [mixChannels_done hr]
      exact ⟨w.events ++ ev', hev.trans (List.append_assoc _ _ _), .cons hpath hpaths⟩
    | raised w cause =>
      rw [hr] at hpath
      rw [mixChannels_raised hr]
      exact ⟨w.events, rfl, List.append_nil w.events ▸ OwnerPaths.cons hpath (.refl (i + 1) chs)⟩

theorem exec_events {i : Instr} {s t : State} (h : exec i s = .next t) {j : Nat} {c c' : Chan} (hc : s.chs[j]? = some c)
    (hc' : t.chs[j]? = some c') : ownerAfter j t.out.events c.owner = some c'.owner := by
  cases hi : i.channel? with
  | none =>
    obtain ⟨b, rfl⟩ := channel?_eq_none hi
    cases h
    obtain ⟨ev, hev, hpaths⟩ := mixChannels_ownerPaths s.cfg s.rom 0 s.chs (zeroBlock s.cfg.n) []
    rw [finishMix_chs] at hc'
    have hown := hpaths.own hc hc' []
    rw [Nat.zero_add, List.append_nil] at hown
    rw [finishMix_events, hev]
    exact hown
  | some ch =>
    rcases exec_channel_cases hi h with rfl | ⟨x, hx, rfl⟩
    · obtain rfl := Option.some.inj (hc.symm.trans hc')
      rfl
    · have hpath := (ruleOf_end s i ch.toNat (Work.start x (blockOf s i))).moves.ownerPath
      rw [finish_chs] at hc'
      rw [finish_events, ← List.append_nil (Run.work _).events]
      rcases getElem?_set_cases hc hc' with ⟨rfl, rfl⟩ | ⟨hj, rfl⟩
      · obtain rfl := Option.some.inj (hc.symm.trans hx)
        rw [Run.chan_eq_work]
        exact hpath.own []
      · exact hpath.other j hj [] c'.owner

/-- Settles O57: a refusal emits nothing, a rule emits the path of its own channel's owner, and `MIX_BLOCK` those of its channels in turn. -/
theorem eventsTellTheOwner : Obligations.EventsTellTheOwner := by
  intro s t hst j c c' hc hc'
  obtain ⟨cmd, rest, -, -, ⟨reason, -, rfl⟩ | ⟨i, -, he⟩⟩ := step_cases hst
  · obtain rfl := Option.some.inj (hc.symm.trans hc')
    rfl
  · exact exec_events (s := { s with cmds := rest }) he hc hc'

end Sys2Proof.Machine
end

section
/-! PROOFS. The law of `EXP2` (R121): within one octave it climbs from the power of two below to the one above, so it climbs over all. -/

namespace Sys2Proof.Machine

theorem pow2_mono {j k : Int} (h : j ≤ k) : pow2 j ≤ pow2 k := by
  rw [pow2_eq_zpow, pow2_eq_zpow]
  exact zpow_le_zpow_right₀ one_le_two h

/-- `EXP2` lies between the powers of two of its octave. -/
theorem exp2_octave (e : Int) : pow2 (e / 768) ≤ exp2 e ∧ exp2 e ≤ pow2 (e / 768 + 1) :=
  ⟨exp2Within_ge _ _, exp2Within_le _ _⟩

theorem exp2_mul (k : Int) : exp2 (768 * k) = (2 : Rat) ^ k := by
  unfold exp2
  rw [Int.mul_ediv_cancel_left k (by decide), Int.mul_emod_right, Int.toNat_zero, exp2Within_zero, pow2_eq_zpow]

/-- In one octave by the climb inside it, across octaves by the power of two between them. -/
theorem exp2_mono {a b : Int} (h : a ≤ b) : exp2 a ≤ exp2 b := by
  rcases (show a / 768 ≤ b / 768 by omega).eq_or_lt with hk | hk
  · unfold exp2
    rw [hk]
    exact exp2Within_mono _ (by omega)
  · calc exp2 a
      _ ≤ pow2 (a / 768 + 1) := (exp2_octave a).2
      _ ≤ pow2 (b / 768) := pow2_mono hk
      _ ≤ exp2 b := (exp2_octave b).1

/-- Settles O21. -/
theorem exp2Law : Obligations.Exp2Law :=
  ⟨exp2_pos, exp2_mul, fun _ _ => exp2_mono⟩

end Sys2Proof.Machine
end

section
/-! PROOFS. The lifecycle commands case by case (R111 to R118, R125, R126): each is its rule on the channel, written back. -/

namespace Sys2Proof.Machine

section
variable {s : State} {i : Instr} {ch : U8} {c : Chan} {w : Work} {cause : FaultCause}

/-- A command whose rule is through writes back what the rule leaves (R110). -/
theorem exec_of_done (hi : i.channel? = some ch) (hc : s.chs[ch.toNat]? = some c)
    (hr : ruleOf s i ch.toNat (Work.start c (blockOf s i)) = .done w) : exec i s = .next (s.commit ch.toNat w) := by
  rw [exec_eq hi, onChannel_some hc, hr]
  rfl

/-- A command whose rule faults writes back what the rule leaves, and raises the fault over it (R320). -/
theorem exec_of_raised (hi : i.channel? = some ch) (hc : s.chs[ch.toNat]? = some c)
    (hr : ruleOf s i ch.toNat (Work.start c (blockOf s i)) = .raised w cause) :
    exec i s = .next (raiseFault (s.commit ch.toNat w) ⟨cause.reason, i.opcode, ch.toNat, cause.addr⟩) := by
  rw [exec_eq hi, onChannel_some hc, hr]
  rfl

/-- A command that leaves its channel as it was writes the block and the output alone. -/
theorem commit_unchanged (hc : s.chs[ch.toNat]? = some c) (hw : w.chan = c) :
    s.commit ch.toNat w = { s with buf := w.buf, out := ⟨.ok, w.events, w.result⟩ } := by
  rw [State.commit, hw, set_self hc]

end

/-! An INIT of another kind (R112). -/

theorem kindCheck_mismatch {kind : Kind} {w : Work} (rest : Run) (h : w.chan.kind ≠ kind) :
    kindCheck kind w rest = .raised w ⟨.kindMismatch, none⟩ := if_neg h

/-- A rule that raises `KIND_MISMATCH` with nothing done leaves only the mark and the record. -/
theorem exec_of_kindMismatch {s : State} {i : Instr} {ch : U8} {c : Chan} (hi : i.channel? = some ch) (hb : i.buf? = none)
    (hc : s.chs[ch.toNat]? = some c)
    (hr : ∀ w : Work, w.chan = c → ruleOf s i ch.toNat w = .raised w ⟨.kindMismatch, none⟩) :
    exec i s = .next { s with faulted := true, out := ⟨.fault ⟨.kindMismatch, i.opcode, ch.toNat, none⟩, [], none⟩ } := by
  rw [exec_of_raised hi hc (hr _ rfl), commit_unchanged hc rfl, start_buf, blockOf_of_buf?_none hb]
  rfl

/-- Settles O10: the kind check is the first action of each of the four rules. -/
theorem initOfAnotherKindFaults : Obligations.InitOfAnotherKindFaults := by
  intro i kind ch c s hi hc hk
  rcases hi with ⟨⟨st, off, fixed, comp, rfl⟩, rfl⟩ | ⟨⟨st, duty, rfl⟩, rfl⟩ | ⟨⟨st, off, rfl⟩, rfl⟩ | ⟨⟨st, npat, rfl⟩, rfl⟩
  all_goals
    refine exec_of_kindMismatch rfl rfl hc ?_
    rintro w rfl
    exact kindCheck_mismatch _ hk

/-! Volume and pitch (R125, R126). -/

theorem setVolume_late {vol : U8} {pan : I8} {c : Chan} (h : late c = true) : setVolume vol pan c = c := if_pos h

theorem setVolume_pcm8 {vol : U8} {pan : I8} {c : Chan} (h : late c = false) (hk : c.kind = .pcm8) :
    setVolume vol pan c = pcm8SetVolume vol pan c := by
  rw [setVolume, if_neg (by simp [h]), if_pos hk]

theorem setVolume_psg {vol : U8} {pan : I8} {c : Chan} (h : late c = false) (hk : c.kind ≠ .pcm8) :
    setVolume vol pan c = psgSetVolume vol pan c := by
  rw [setVolume, if_neg (by simp [h]), if_neg hk]

/-- The sustain level on exact integers (R212, R213): the peak fits its register. -/
theorem susOf_peakOf (velocity vol s : U8) :
    susOf (peakOf velocity vol) s = BitVec.ofNat 8 ((velocity.toNat * vol.toNat / 2 ^ 10 * s.toNat + 15) / 16) := by
  rw [susOf, peakOf_toNat]
  rfl

/-- Settles O17: frozen, the pan law of PCM8, or the levels of the PSG kinds. -/
theorem setVolumeResult : Obligations.SetVolumeResult := by
  intro s ch vol pan c hc
  rw [exec_of_done (w := (Work.start c s.buf).onChan (setVolume vol pan)) rfl hc rfl, State.commit, onChan_chan, start_chan]
  split
  case isTrue hl => rw [setVolume_late ((late_iff c).mpr hl)]; rfl
  case isFalse hl =>
    split
    case isTrue hk => rw [setVolume_pcm8 (late_eq_false.mpr hl) hk]; rfl
    case isFalse hk =>
      rw [setVolume_psg (late_eq_false.mpr hl) hk, ← susOf_peakOf]
      rfl

theorem freqOf_withPitch (pitch : I32) (c : Chan) :
    freqOf (withPitch pitch c) = match c.kind with
      | .pcm8 => ((c.hdr.rate.toNat / 2 ^ 10 : Nat) : Rat) * exp2 (64 * ((c.note.key.toNat : Int) - 60) + pitch.toInt)
      | .square => 3520 * exp2 (64 * ((c.note.key.toNat : Int) - 69) + pitch.toInt)
      | .wave => 7040 * exp2 (64 * ((c.note.key.toNat : Int) - 69) + pitch.toInt)
      | .noise => min (max (4096 * exp2 (3 * (64 * ((c.note.key.toNat : Int) - 60) + pitch.toInt))) 8) 0x80000 := by
  obtain ⟨kind⟩ := c
  cases kind <;> rfl

/-- Settles O20: the rule looks at the kind alone, and at no state. -/
theorem setPitchResult : Obligations.SetPitchResult := by
  intro s ch pitch c hc
  rw [exec_of_done (w := (Work.start c s.buf).onChan (setPitch pitch)) rfl hc rfl, State.commit, onChan_chan, start_chan,
    setPitch, freqOf_withPitch]
  rfl

/-! `RELEASE` and `STOP` (R115, R118). -/

section
variable {i : Nat} {w : Work}

theorem psgRelease_of_rate_zero (h : w.chan.R = 0) : psgRelease i w = (w.onChan fun c => { c with vel := 0 }).stop i := if_pos h

theorem psgRelease_of_vel_zero (hR : w.chan.R ≠ 0) (h : w.chan.vel = 0) : psgRelease i w = w.stop i := by
  rw [psgRelease, if_neg hR, if_pos h]

theorem psgRelease_stages (hR : w.chan.R ≠ 0) (h : w.chan.vel ≠ 0) :
    psgRelease i w = w.onChan fun c => { c with next := .releasing } := by
  rw [psgRelease, if_neg hR, if_neg h]

end

/-- Settles O23, case by case of R115 and R224. -/
theorem releaseResult : Obligations.ReleaseResult := by
  intro s ch c hc
  have through {w : Work} (h : ruleRelease ch.toNat (Work.start c s.buf) = .done w) :
      exec (.release ch) s = .next (s.commit ch.toNat w) := exec_of_done rfl hc h
  split
  case isTrue hl => rw [through (ruleRelease_late ((late_iff c).mpr hl)), commit_unchanged hc rfl]; rfl
  case isFalse hl =>
  have hl := late_eq_false.mpr hl
  split
  case isTrue hk => rw [through (ruleRelease_pcm8 hl hk)]; rfl
  case isFalse hk =>
  rw [through (ruleRelease_psg hl hk)]
  split
  case isTrue hR => rw [psgRelease_of_rate_zero hR]; rfl
  case isFalse hR =>
  split
  case isTrue hv => rw [psgRelease_of_vel_zero hR hv]; rfl
  case isFalse hv => rw [psgRelease_stages hR hv]; rfl

/-- Settles O26. -/
theorem stopResult : Obligations.StopResult := by
  intro s ch c hc
  rw [exec_of_done (w := (Work.start c s.buf).stop ch.toNat) rfl hc rfl]
  cases ho : c.owner <;> simp [State.commit, detachEvents, ho]

/-! `TICK_NOTE` (R116, R117, R225). -/

section
variable {i : Nat} {w : Work}

/-- An expiry into Releasing (R117, R225). -/
theorem expire_releases (h : w.chan.kind = .pcm8 ∨ w.chan.vel ≠ 0 ∧ w.chan.R ≠ 0) :
    expire i w = w.onChan fun c => { c with state := .releasing } := by
  rw [expire]
  split
  case isTrue => rfl
  case isFalse hk =>
    obtain ⟨hv, hR⟩ := h.resolve_left hk
    exact if_neg (not_or.mpr ⟨hv, hR⟩)

/-- An expiry that stops the channel (R225). -/
theorem expire_stops (h : ¬ (w.chan.kind = .pcm8 ∨ w.chan.vel ≠ 0 ∧ w.chan.R ≠ 0)) :
    expire i w = (w.onChan fun c => { c with vel := if c.R = 0 then 0 else c.vel }).stop i := by
  obtain ⟨hk, hz⟩ := not_or.mp h
  rw [expire, if_neg hk, psgExpire, if_pos (or_iff_not_and_not.mpr hz)]
  by_cases hR : w.chan.R = 0
  · simp only [Work.onChan, if_pos hR]
  · simp only [Work.onChan, if_neg hR]

/-- Either way the channel is Releasing or later, with its note as it was. -/
theorem expire_late (i : Nat) (w : Work) : late (expire i w).chan = true ∧ (expire i w).chan.note = w.chan.note := by
  by_cases h : w.chan.kind = .pcm8 ∨ w.chan.vel ≠ 0 ∧ w.chan.R ≠ 0
  · rw [expire_releases h]; exact ⟨rfl, rfl⟩
  · rw [expire_stops h]; exact ⟨rfl, rfl⟩

end

section
variable {s : State} {ch : U8} {c : Chan} {w : Work}

theorem exec_tickNote_of_done (hc : s.chs[ch.toNat]? = some c) (h : ruleTickNote ch.toNat (Work.start c s.buf) = .done w) :
    exec (.tickNote ch) s = .next (s.commit ch.toNat w) := exec_of_done rfl hc h

theorem exec_tickNote_late (hc : s.chs[ch.toNat]? = some c) (hl : late c = true) :
    exec (.tickNote ch) s = .next { s with out := ⟨.ok, [], some false⟩ } := by
  rw [exec_tickNote_of_done hc (ruleTickNote_late hl), commit_unchanged hc rfl]
  rfl

theorem exec_tickNote_endless (hc : s.chs[ch.toNat]? = some c) (hl : late c = false) (h0 : c.note.duration = 0) :
    exec (.tickNote ch) s = .next { s with out := ⟨.ok, [], some true⟩ } := by
  rw [exec_tickNote_of_done hc (ruleTickNote_endless hl h0), commit_unchanged hc rfl]
  rfl

theorem exec_tickNote_counts (hc : s.chs[ch.toNat]? = some c) (hl : late c = false) (h0 : c.note.duration ≠ 0)
    (h1 : c.note.duration ≠ 1) :
    exec (.tickNote ch) s = .next
      { s with chs := s.chs.set ch.toNat (withDuration (c.note.duration - 1) c), out := ⟨.ok, [], some true⟩ } :=
  exec_tickNote_of_done hc (ruleTickNote_counts hl h0 h1)

theorem exec_tickNote_ends (hc : s.chs[ch.toNat]? = some c) (hl : late c = false) (h1 : c.note.duration = 1) :
    exec (.tickNote ch) s = .next
      (s.commit ch.toNat ((expire ch.toNat (Work.start (withDuration 0 c) s.buf)).answer false)) :=
  exec_tickNote_of_done hc (ruleTickNote_ends hl h1)

end

/-- Settles O24, case by case of R116 and the expiries of R117 and R225. -/
theorem tickNoteResult : Obligations.TickNoteResult := by
  intro s ch c hc
  split
  case isTrue hl => exact exec_tickNote_late hc ((late_iff c).mpr hl)
  case isFalse hl =>
  have hl := late_eq_false.mpr hl
  split
  case isTrue h0 => exact exec_tickNote_endless hc hl h0
  case isFalse h0 =>
  split
  case isTrue h1 => exact exec_tickNote_counts hc hl h0 h1
  case isFalse h1 =>
  rw [exec_tickNote_ends hc hl (not_not.mp h1)]
  split
  case isTrue h => rw [expire_releases (w := Work.start (withDuration 0 c) s.buf) h]; rfl
  case isFalse h => rw [expire_stops (w := Work.start (withDuration 0 c) s.buf) h]; rfl

/-! A note over its ticks (R116). -/

theorem runInstrs_of_exec {i : Instr} {is : List Instr} {s t : State} (h : exec i s = .next t) :
    runInstrs (i :: is) s = runInstrs is t := by
  rw [runInstrs, h]

/-- A duration counted down from more than 1 is that much shorter and not yet 0. -/
theorem duration_toNat_sub_one {d : U32} (h : 1 < d.toNat) : (d - 1).toNat = d.toNat - 1 ∧ d ≠ 0 ∧ d ≠ 1 := by
  refine ⟨by bv_omega, ?_, ?_⟩ <;> rintro rfl <;> simp at h

/-- The channel after the first of several ticks: the next tick finds it, a tick shorter. -/
theorem exec_tickNote_first {s : State} {ch : U8} {c : Chan} (hc : s.chs[ch.toNat]? = some c) (hl : late c = false)
    (hd : 1 < c.note.duration.toNat) :
    ∃ s1, exec (.tickNote ch) s = .next s1 ∧
      s1 = { s with chs := s.chs.set ch.toNat (withDuration (c.note.duration - 1) c), out := ⟨.ok, [], some true⟩ } ∧
      s1.chs[ch.toNat]? = some (withDuration (c.note.duration - 1) c) := by
  obtain ⟨-, h0, h1⟩ := duration_toNat_sub_one hd
  exact ⟨_, exec_tickNote_counts hc hl h0 h1, rfl, List.getElem?_set_self (List.getElem?_eq_some_iff.mp hc).1⟩

/-- `k + 1` ticks of a longer note leave it `k + 1` shorter. -/
theorem runInstrs_tickNote_counts {ch : U8} (k : Nat) {s : State} {c : Chan} (hc : s.chs[ch.toNat]? = some c)
    (hl : late c = false) (hk : k + 1 < c.note.duration.toNat) :
    runInstrs (List.replicate (k + 1) (.tickNote ch)) s = .next
      { s with
        chs := s.chs.set ch.toNat (withDuration (BitVec.ofNat 32 (c.note.duration.toNat - (k + 1))) c)
        out := ⟨.ok, [], some true⟩ } := by
  induction k generalizing s c with
  | zero =>
    obtain ⟨hsub, h0, h1⟩ := duration_toNat_sub_one (d := c.note.duration) (by omega)
    rw [← hsub, BitVec.ofNat_toNat, BitVec.setWidth_eq]
    exact runInstrs_of_exec (exec_tickNote_counts hc hl h0 h1)
  | succ k ih =>
    have hd : 1 < c.note.duration.toNat := by omega
    obtain ⟨hsub, -, -⟩ := duration_toNat_sub_one hd
    obtain ⟨s1, hs1, e1, hc1⟩ := exec_tickNote_first hc hl hd
    have hk1 : k + 1 < (c.note.duration - 1).toNat := by omega
    rw [List.replicate_succ, runInstrs_of_exec hs1, ih hc1 hl hk1, e1]
    simp only [withDuration, List.set_set, hsub, show c.note.duration.toNat - 1 - (k + 1) = c.note.duration.toNat - (k + 1 + 1) by omega]

/-- As many ticks as a note has left end it. -/
theorem runInstrs_tickNote_ends {ch : U8} (d : Nat) {s : State} {c : Chan} (hc : s.chs[ch.toNat]? = some c)
    (hl : late c = false) (hd : c.note.duration.toNat = d + 1) :
    ∃ t c', runInstrs (List.replicate (d + 1) (.tickNote ch)) s = .next t ∧
      t.chs = s.chs.set ch.toNat c' ∧ late c' = true ∧ c'.note.duration = 0 ∧ t.out.result = some false := by
  induction d generalizing s c with
  | zero =>
    have h1 : c.note.duration = 1 := BitVec.eq_of_toNat_eq hd
    obtain ⟨hlate, hnote⟩ := expire_late ch.toNat (Work.start (withDuration 0 c) s.buf)
    exact ⟨_, _, runInstrs_of_exec (exec_tickNote_ends hc hl h1), rfl, hlate, congrArg Note.duration hnote, rfl⟩
  | succ d ih =>
    have hd1 : 1 < c.note.duration.toNat := by omega
    obtain ⟨hsub, -, -⟩ := duration_toNat_sub_one hd1
    obtain ⟨s1, hs1, e1, hc1⟩ := exec_tickNote_first hc hl hd1
    obtain ⟨t, c', hrun, hchs, hend⟩ := ih hc1 hl (hsub.trans (by omega))
    refine ⟨t, c', ?_, ?_, hend⟩
    · rw [List.replicate_succ, runInstrs_of_exec hs1, hrun]
    · rw [hchs, e1, List.set_set]

/-- Settles O25, by induction on the ticks. -/
theorem noteExpiresAtItsLastTick : Obligations.NoteExpiresAtItsLastTick := by
  intro s ch c hc hl h0
  have hpos : c.note.duration.toNat ≠ 0 := fun h => h0 (BitVec.eq_of_toNat_eq h)
  constructor
  case left =>
    intro k hk hlt
    obtain ⟨k, rfl⟩ := Nat.exists_eq_add_of_le' hk
    exact runInstrs_tickNote_counts k hc hl hlt
  case right =>
    obtain ⟨d, hd⟩ := Nat.exists_eq_succ_of_ne_zero hpos
    rw [hd]
    exact runInstrs_tickNote_ends d hc hl hd

end Sys2Proof.Machine
end

section
/-! PROOFS. The envelope step inside `PROCESS` (R119): taken once, before anything else, and all there is of a channel it finds or makes `Dead`
or of an increment out of range. -/

namespace Sys2Proof.Machine

/-- An envelope step writes the envelope registers and, where it stops the channel, the owner. -/
theorem envChan_registers (cfg : Cfg) (i : Nat) (c : Chan) :
    { envChan cfg i c with state := c.state, owner := c.owner, vel := c.vel, step := c.step, next := c.next } = c := by
  unfold envChan
  cases envStep_end cfg i (Work.start c []) with
  | goes st v k nx eq dead mono => rw [eq]; rfl
  | stops v k nx eq => rw [eq]; rfl

/-- The channel after the envelope step of a `PROCESS`, whatever its block. -/
theorem envStep_chan (cfg : Cfg) (i : Nat) (c : Chan) (buf : List Rat) :
    (envStep cfg i (Work.start c buf)).chan = envChan cfg i c :=
  calc (envStep cfg i (Work.start c buf)).chan
    _ = ((envStep cfg i (Work.start c [])).withBuf buf).chan := congrArg Work.chan (envStep_withBuf cfg i (Work.start c []) buf)
    _ = envChan cfg i c := rfl

/-- An envelope step that stops a channel detaches its owner (R118). -/
theorem envStep_stops {cfg : Cfg} {i : Nat} {c : Chan} (buf : List Rat) (hc : c.state ≠ .dead)
    (he : (envChan cfg i c).state = .dead) :
    envStep cfg i (Work.start c buf) = ⟨envChan cfg i c, buf, detachEvents i c.owner, none⟩ := by
  have hch := envStep_chan cfg i c buf
  rw [← hch] at he ⊢
  cases envStep_end cfg i (Work.start c buf) with
  | goes st v k nx eq dead mono => rw [eq] at he; exact absurd (dead.mp he) hc
  | stops v k nx eq => rw [eq]; rfl

/-- A `Dead` channel has no envelope step (R127). -/
theorem envStep_dead {cfg : Cfg} {i : Nat} {w : Work} (h : w.chan.state = .dead) : envStep cfg i w = w := by
  unfold envStep
  split
  · rw [pcm8EnvStep, h]
  · rw [psgEnvStep, h]

/-- The last envelope step of a PCM8 channel (R151). -/
theorem envChan_dying {cfg : Cfg} {i : Nat} {c : Chan} (hk : c.kind = .pcm8) (hd : c.state = .dying) :
    envChan cfg i c = { c with state := .dead, owner := none } := by
  rw [envChan, envStep, if_pos (show (Work.start c []).chan.kind = .pcm8 from hk), pcm8EnvStep,
    show (Work.start c []).chan.state = .dying from hd]
  rfl

/-- After the envelope step a `Dead` channel is done with (R119). -/
theorem afterEnv_dead {cfg : Cfg} {rom : Memory} {i : Nat} {w : Work} (h : w.chan.state = .dead) :
    afterEnv cfg rom i w = .done w := if_pos h

section
variable {s : State} {ch : U8} {b : BufArg} {c : Chan}

theorem exec_process_dead (hc : s.chs[ch.toNat]? = some c) (hd : c.state = .dead) :
    exec (.process ch b) s = .next { s with buf := bufOf b s, out := ⟨.ok, [], none⟩ } := by
  have hr : ruleProcess s.cfg s.rom ch.toNat (Work.start c (bufOf b s)) = .done (Work.start c (bufOf b s)) := by
    rw [ruleProcess, envStep_dead (w := Work.start c (bufOf b s)) hd, afterEnv_dead (w := Work.start c (bufOf b s)) hd]
  rw [exec_process_of_done hc hr, commit_unchanged hc rfl]
  rfl

theorem exec_process_stopped (hc : s.chs[ch.toNat]? = some c) (hd : c.state ≠ .dead)
    (he : (envChan s.cfg ch.toNat c).state = .dead) :
    exec (.process ch b) s = .next
      { s with
        chs := s.chs.set ch.toNat (envChan s.cfg ch.toNat c)
        buf := bufOf b s
        out := ⟨.ok, detachEvents ch.toNat c.owner, none⟩ } := by
  have hr : ruleProcess s.cfg s.rom ch.toNat (Work.start c (bufOf b s)) =
      .done ⟨envChan s.cfg ch.toNat c, bufOf b s, detachEvents ch.toNat c.owner, none⟩ := by
    rw [ruleProcess, envStep_stops (bufOf b s) hd he]
    exact afterEnv_dead he
  exact exec_process_of_done hc hr

end

/-- Settles O35; a PCM8 channel in Dying is one that its envelope step stops. -/
theorem processOfADeadChannel : Obligations.ProcessOfADeadChannel := by
  intro s ch b c hc
  refine ⟨exec_process_dead hc, exec_process_stopped hc, fun hk hd => ?_⟩
  have he := envChan_dying (cfg := s.cfg) (i := ch.toNat) hk hd
  rw [exec_process_stopped hc (by rw [hd]; decide) (by rw [he]), he]

/-! One step (R119, R160). -/

/-- The generator leaves the envelope registers, but that it may stop the channel (R160). -/
theorem GenEnd.envelope {ch : Nat} {rom : Memory} {w : Work} {r : Run} (h : GenEnd ch rom w r) :
    ∃ c', SamePlay w.chan c' ∧ (r.work.chan = c' ∨ r.work.chan = { c' with state := .dead, owner := none }) := by
  rcases h with ⟨w', rfl, h⟩ | ⟨w', cause, rfl, -, hsame, -⟩
  · rcases h.chan with ⟨hsame, -⟩ | ⟨c', hsame, hstop, -⟩
    · exact ⟨w'.chan, hsame, .inl rfl⟩
    · exact ⟨c', hsame, .inr hstop⟩
  · exact ⟨w'.chan, hsame, .inl rfl⟩

/-- Settles O36: the envelope step writes its registers, the generator the play position and, at most, a stop. -/
theorem processStepsTheEnvelopeOnce : Obligations.ProcessStepsTheEnvelopeOnce := by
  intro s t ch b c hc ht
  rw [exec_process, onChannel_some hc] at ht
  cases ht
  have hend := afterEnv_end s.cfg s.rom ch.toNat (envStep s.cfg ch.toNat (Work.start c (bufOf b s)))
  obtain ⟨p, hp, hchan⟩ := hend.envelope
  rw [envStep_chan] at hp
  have hregs := envChan_registers s.cfg ch.toNat c
  refine ⟨_, (finish_chs ..).trans (by rw [Run.chan_eq_work, ruleProcess]), ?_⟩
  rcases hchan with hchan | hchan <;> rw [hchan, hp]
  · exact ⟨.inl rfl, rfl, rfl, rfl, congrArg (fun x : Chan => { x with pos := c.pos, frac := c.frac }) hregs⟩
  · exact ⟨.inr rfl, rfl, rfl, rfl, congrArg (fun x : Chan => { x with pos := c.pos, frac := c.frac }) hregs⟩

/-! An increment out of range (R123, R183). -/

theorem incTooBig_iff {inc : Nat} : incTooBig inc = true ↔ 2 ^ 48 ≤ inc := decide_eq_true_iff

/-- The generator of a PSG kind is an oscillator over its table (R257, R264, R272). -/
theorem generate_psg {cfg : Cfg} {rom : Memory} {i : Nat} {gL gR : Rat} {w : Work} (h : w.chan.kind ≠ .pcm8) :
    generate cfg rom i gL gR w = tableGenerate cfg i gL gR (tableLen w.chan) (tableSample w.chan) w := by
  unfold generate tableLen tableSample
  cases hk : w.chan.kind with
  | pcm8 => exact absurd hk h
  | square => rfl
  | wave => rfl
  | noise => rfl

theorem tableGenerate_incRange {cfg : Cfg} {i : Nat} {gL gR : Rat} {len : Nat} {sample : Nat → Rat} {w : Work}
    (h : 2 ^ 48 ≤ phaseInc w.chan.freq cfg.sr) : tableGenerate cfg i gL gR len sample w = .raised w ⟨.incRange, none⟩ :=
  if_pos (incTooBig_iff.mpr h)

theorem pcm8Generate_incRange {cfg : Cfg} {rom : Memory} {i : Nat} {gL gR : Rat} {w : Work}
    (h : 2 ^ 48 ≤ pcm8Inc cfg w.chan) : pcm8Generate cfg rom i gL gR w = .raised w ⟨.incRange, none⟩ :=
  if_pos (incTooBig_iff.mpr h)

/-- In synth mode the bound is lower: the test of R183 comes after that of R123. -/
theorem pcm8Generate_synth_incRange {cfg : Cfg} {rom : Memory} {i : Nat} {gL gR : Rat} {w : Work} (hs : w.chan.synth = true)
    (h : 2 ^ 32 ≤ pcm8Inc cfg w.chan) : pcm8Generate cfg rom i gL gR w = .raised w ⟨.incRange, none⟩ := by
  by_cases hbig : 2 ^ 48 ≤ pcm8Inc cfg w.chan
  · exact pcm8Generate_incRange hbig
  · simp only [pcm8Generate, incTooBig_eq_false (Nat.not_le.mp hbig), hs, Bool.false_eq_true, if_false, if_true]
    exact if_pos h

/-- The increment of synth mode (R183). -/
theorem pcm8Inc_of_synth {cfg : Cfg} {c : Chan} (h : c.synth = true) :
    pcm8Inc cfg c = phaseInc c.freq ((cfg.sr * 64 : Nat) : Rat) := if_pos h

/-- The increment of a player (R155). -/
theorem pcm8Inc_of_player {cfg : Cfg} {c : Chan} (h : c.synth = false) :
    pcm8Inc cfg c = if c.fixed = true then 2 ^ 32 else phaseInc c.freq cfg.sr := by
  rw [pcm8Inc, if_neg (by simp [h])]

/-- Settles O43: the test is the first action of every generator, on an increment that the envelope step has not changed. -/
theorem incrementOutOfRangeFaults : Obligations.IncrementOutOfRangeFaults := by
  intro s ch b c hc he hi
  have same := envChan_same s.cfg ch.toNat c
  have hinc := pcm8Inc_same (cfg := s.cfg) same
  rw [execProcess_alive hc he]
  suffices hr : ∀ gL gR, generate s.cfg s.rom ch.toNat gL gR (Work.start (envChan s.cfg ch.toNat c) (bufOf b s)) =
      .raised (Work.start (envChan s.cfg ch.toNat c) (bufOf b s)) ⟨.incRange, none⟩ by rw [hr]; rfl
  intro gL gR
  rcases hi with ⟨hk, hi⟩ | ⟨hk, hs, hi⟩ | ⟨hk, hs, hf, hi⟩
  · rw [generate_psg (by rw [start_chan, same.kind]; exact hk)]
    exact tableGenerate_incRange (by rw [start_chan, same.freq]; exact hi)
  · rw [generate_pcm8 (by rw [start_chan, same.kind]; exact hk)]
    exact pcm8Generate_synth_incRange (same.synth.trans hs) (by rw [start_chan, hinc, pcm8Inc_of_synth hs]; exact hi)
  · rw [generate_pcm8 (by rw [start_chan, same.kind]; exact hk)]
    refine pcm8Generate_incRange ?_
    rw [start_chan, hinc, pcm8Inc_of_player hs, if_neg (by simp [hf])]
    exact hi

end Sys2Proof.Machine
end

section
/-! PROOFS. Blocks of the table oscillators and of the PCM8 players (R155 to R160, R257, R264, R272): the channel frame by frame, as the
channel after the envelope step with its play position moved. -/

namespace Sys2Proof.Machine

/-- The channel `e` with the position `p` and the fraction of `c` after `k` frames. -/
def playedTo (inc : Nat) (c e : Chan) (p : BitVec 32) (k : Nat) : Chan := { e with pos := p, frac := fracAfter inc c k }

@[simp] theorem playedTo_pos (inc : Nat) (c e : Chan) (p : BitVec 32) (k : Nat) : (playedTo inc c e p k).pos = p := rfl
@[simp] theorem playedTo_frac (inc : Nat) (c e : Chan) (p : BitVec 32) (k : Nat) :
    (playedTo inc c e p k).frac = fracAfter inc c k := rfl

/-- Before the first frame the channel is that of the envelope step. -/
theorem playedTo_zero {inc : Nat} {c e : Chan} (same : EnvSame c e) : playedTo inc c e c.pos 0 = e := by
  rw [playedTo, fracAfter_zero, ← same.pos, ← same.frac]

/-! The oscillators (R124, R257). -/

/-- The index of a frame is the exact position modulo the table. -/
theorem phaseIndex_eq (len inc : Nat) (c : Chan) (k : Nat) : phaseIndex len inc c k = playPos inc c k % len := by
  have hsum : phasePos len c + k * inc = c.frac.toNat + k * inc + 2 ^ Config.F * (c.pos.toNat % len) := by
    rw [phasePos]; ring
  rw [phaseIndex, hsum, Nat.add_mul_div_left _ _ (by positivity), playPos, Nat.add_mod_mod, Nat.add_comm]

theorem phaseIndex_zero (len inc : Nat) (c : Chan) : phaseIndex len inc c 0 = c.pos.toNat % len := by
  rw [phaseIndex_eq, playPos_zero]

/-- The index of one more frame (R257). -/
theorem phaseIndex_succ (len inc : Nat) (c : Chan) (k : Nat) :
    phaseIndex len inc c (k + 1) = (phaseIndex len inc c k + advDelta (fracAfter inc c k) inc) % len := by
  rw [phaseIndex_eq, phaseIndex_eq, playPos_succ, Nat.mod_add_mod]

/-- One frame of an oscillator, from a position that stands for the index of its frame. -/
theorem tableTick_playedTo {len : Nat} {sample : Nat → Rat} {inc : Nat} {c e : Chan} {p : BitVec 32} {k : Nat}
    (hp : p.toNat % len = phaseIndex len inc c k) :
    tableTick len sample inc (playedTo inc c e p k) =
      .go (playedTo inc c e (BitVec.ofNat 32 (phaseIndex len inc c (k + 1))) (k + 1)) (sample (phaseIndex len inc c k)) := by
  rw [phaseIndex_succ, ← hp]
  simp only [tableTick, playedTo_pos, playedTo_frac, advFrac_fracAfter]
  rfl

/-- The position register before frame `k`: as it was found, then always a table index. -/
def tablePos (len inc : Nat) (c : Chan) : Nat → BitVec 32
  | 0 => c.pos
  | k + 1 => BitVec.ofNat 32 (phaseIndex len inc c (k + 1))

theorem tablePos_mod {len : Nat} (h0 : 0 < len) (h32 : len ≤ 2 ^ 32) (inc : Nat) (c : Chan) (k : Nat) :
    (tablePos len inc c k).toNat % len = phaseIndex len inc c k := by
  cases k with
  | zero => exact (phaseIndex_zero len inc c).symm
  | succ k =>
    have hlt : phaseIndex len inc c (k + 1) < len := Nat.mod_lt _ h0
    rw [tablePos, BitVec.toNat_ofNat, Nat.mod_eq_of_lt (hlt.trans_le h32), Nat.mod_eq_of_lt hlt]

/-- Every table has entries, and no more than the position register can index (R257, R264, R272). -/
theorem tableLen_range (c : Chan) : 0 < tableLen c ∧ tableLen c ≤ 2 ^ 32 := by
  unfold tableLen
  cases c.kind with
  | noise => cases c.npat <;> decide
  | pcm8 | square | wave => dsimp only; decide

theorem tableLen_same {c e : Chan} (h : EnvSame c e) : tableLen e = tableLen c := by
  obtain ⟨-, -, hnpat⟩ := h.table
  rw [tableLen, tableLen, h.kind, hnpat]

theorem tableSample_same {c e : Chan} (h : EnvSame c e) : tableSample e = tableSample c := by
  obtain ⟨hduty, hwave, hnpat⟩ := h.table
  funext k
  simp only [tableSample, squareSample, waveSample, noiseSample, h.kind, hduty, hwave, hnpat]

/-- An oscillator's increment in range: the frames of the block (R123, R257). -/
theorem tableGenerate_frames {cfg : Cfg} {i : Nat} {gL gR : Rat} {len : Nat} {sample : Nat → Rat} {w : Work}
    (h : phaseInc w.chan.freq cfg.sr < 2 ^ 48) :
    tableGenerate cfg i gL gR len sample w =
      frames i gL gR (tableTick len sample (phaseInc w.chan.freq cfg.sr)) cfg.n 0 w :=
  if_neg (by simp [incTooBig_eq_false h])

/-- `PROCESS` of a PSG channel that its envelope step leaves alive, with an increment in range. -/
theorem execProcess_table {s : State} {ch : U8} {b : BufArg} {c : Chan} (hc : s.chs[ch.toNat]? = some c)
    (hd : (envChan s.cfg ch.toNat c).state ≠ .dead) (hk : c.kind ≠ .pcm8) (hi : phaseInc c.freq s.cfg.sr < 2 ^ 48) :
    exec (.process ch b) s = .next (finish s .process ch.toNat
      (frames ch.toNat (gainL s.cfg (envChan s.cfg ch.toNat c)) (gainR s.cfg (envChan s.cfg ch.toNat c))
        (tableTick (tableLen c) (tableSample c) (phaseInc c.freq s.cfg.sr)) s.cfg.n 0
        (Work.start (envChan s.cfg ch.toNat c) (bufOf b s)))) := by
  have same := envChan_same s.cfg ch.toNat c
  rw [execProcess_alive hc hd, generate_psg (by rw [start_chan, same.kind]; exact hk),
    tableGenerate_frames (by rw [start_chan, same.freq]; exact hi), start_chan, same.freq, tableLen_same same, tableSample_same same]

/-- Settles O37: frame `k` finds the phase after `k` increments; a block of one frame or more leaves a table index in the position. -/
theorem psgBlockResult : Obligations.PsgBlockResult := by
  intro s ch b c hc hk hn hd hi e inc
  obtain ⟨hlen, h32⟩ := tableLen_range c
  have hblock := frames_block (ch := ch.toNat) (gL := gainL s.cfg e) (gR := gainR s.cfg e)
    (tick := tableTick (tableLen c) (tableSample c) inc) (fun k => playedTo inc c e (tablePos (tableLen c) inc c k) k)
    (fun k => tableSample c (phaseIndex (tableLen c) inc c k)) (bufOf b s) s.cfg.n
    fun k _ => tableTick_playedTo (tablePos_mod hlen h32 inc c k)
  rw [show playedTo inc c e (tablePos (tableLen c) inc c 0) 0 = e from playedTo_zero (envChan_same s.cfg ch.toNat c)] at hblock
  rw [execProcess_table hc hd hk hi, hblock]
  obtain ⟨n, hn⟩ := Nat.exists_eq_succ_of_ne_zero (Nat.one_le_iff_ne_zero.mp hn)
  rw [hn]
  rfl

/-! The raw player (R156, R158). -/

section
variable {rom : Memory} {inc : Nat} {c e : Chan}

/-- The raw channel before frame `k`. -/
def rawChan (inc : Nat) (c e : Chan) (k : Nat) : Chan := playedTo inc c e (BitVec.ofNat 32 (rawPos inc c k)) k

theorem rawChan_zero (same : EnvSame c e) : rawChan inc c e 0 = e := by
  rw [rawChan, rawPos_zero, BitVec.ofNat_toNat, BitVec.setWidth_eq, playedTo_zero same]

theorem rawChan_pos_toNat {k : Nat} (h : rawPos inc c k < 2 ^ 32) : (rawChan inc c e k).pos.toNat = rawPos inc c k := by
  rw [rawChan, playedTo_pos, BitVec.toNat_ofNat, Nat.mod_eq_of_lt h]

/-- A frame that does not stop the channel keeps the position in its register: it is below the length, or the loop offset. -/
theorem rawPos_lt {n : Nat} (h : c.hdr.loop = 0x40000000 ∨ ∀ k, 1 ≤ k → k ≤ n → rawPos inc c k < c.hdr.length.toNat) {k : Nat}
    (hk : k ≤ n) : rawPos inc c k < 2 ^ 32 := by
  cases k with
  | zero => exact c.pos.isLt
  | succ k =>
    have hlength : rawPos inc c (k + 1) < c.hdr.length.toNat → rawPos inc c (k + 1) < 2 ^ 32 :=
      fun hlt => hlt.trans c.hdr.length.isLt
    rcases h with hloop | h
    · rw [rawPos_succ] at hlength ⊢
      split
      case isTrue => exact c.hdr.loopOffset.isLt
      case isFalse hp =>
        rw [if_neg hp] at hlength
        exact hlength (Nat.not_le.mp fun hle => hp ⟨hloop, hle⟩)
    · exact hlength (h (k + 1) (by omega) hk)

/-- One frame of the raw player that does not stop it (R156, R158). -/
theorem rawTick_rawChan (same : EnvSame c e) {k : Nat} (hp : rawPos inc c k < 2 ^ 32) (hrom : c.base + rawPos inc c k < rom.size)
    (h : c.hdr.loop = 0x40000000 ∨ rawPos inc c (k + 1) < c.hdr.length.toNat) :
    rawTick rom inc (rawChan inc c e k) = .go (rawChan inc c e (k + 1)) (pcmSample (rom.byte (c.base + rawPos inc c k))) := by
  have hpos := rawChan_pos_toNat (e := e) hp
  have hbase : (rawChan inc c e k).base = c.base := same.base
  have hhdr : (rawChan inc c e k).hdr = c.hdr := same.hdr
  have hfrac : (rawChan inc c e k).frac = fracAfter inc c k := rfl
  have hread : (rawChan inc c e k).base + (rawChan inc c e k).pos.toNat < rom.size := by rwa [hpos, hbase]
  by_cases hle : c.hdr.length.toNat ≤ rawPos inc c k + advDelta (fracAfter inc c k) inc
  case pos =>
    have hloop : c.hdr.loop = 0x40000000 := by
      refine h.elim id fun hlt => ?_
      by_contra hne
      rw [rawPos_succ, if_neg fun hn => hne hn.1] at hlt
      omega
    rw [rawTick_loop hread (by rwa [hpos, hhdr, hfrac]) (by rwa [hhdr]), hpos, hfrac, advFrac_fracAfter,
      rawChan, rawChan, rawPos_succ, if_pos ⟨hloop, hle⟩, BitVec.ofNat_toNat, BitVec.setWidth_eq, ← same.base, ← same.hdr]
    rfl
  case neg =>
    rw [rawTick_go hread (by rw [hpos, hhdr, hfrac]; omega), hpos, hfrac, advFrac_fracAfter, rawChan, rawChan, rawPos_succ,
      if_neg fun hn => hle hn.2, ← same.base]
    rfl

/-- The frame of a sample without a loop that reaches its end (R158). -/
theorem rawTick_rawChan_last (same : EnvSame c e) {k : Nat} (hp : rawPos inc c k < 2 ^ 32)
    (hrom : c.base + rawPos inc c k < rom.size) (hloop : c.hdr.loop ≠ 0x40000000)
    (hle : c.hdr.length.toNat ≤ rawPos inc c (k + 1)) :
    rawTick rom inc (rawChan inc c e k) = .last (playedTo inc c e (storePos (rawPos inc c (k + 1))) (k + 1))
      (pcmSample (rom.byte (c.base + rawPos inc c k))) := by
  have hpos := rawChan_pos_toNat (e := e) hp
  have hbase : (rawChan inc c e k).base = c.base := same.base
  have hhdr : (rawChan inc c e k).hdr = c.hdr := same.hdr
  have hfrac : (rawChan inc c e k).frac = fracAfter inc c k := rfl
  rw [rawPos_succ, if_neg fun hn => hloop hn.1] at hle ⊢
  rw [rawTick_last (by rwa [hpos, hbase]) (by rwa [hpos, hhdr, hfrac]) (by rwa [hhdr]), hpos, hfrac, advFrac_fracAfter,
    ← same.base]
  rfl

end

/-- Settles O38: every frame goes on, to the next position of the raw player. -/
theorem rawBlockResult : Obligations.RawBlockResult := by
  intro s ch b c hc hk hs hco hd e inc hi hgo hrom
  have same := envChan_same s.cfg ch.toNat c
  have hinc : pcm8Inc s.cfg c = inc := pcm8Inc_of_player hs
  have hblock := frames_block (ch := ch.toNat) (gL := gainL s.cfg e) (gR := gainR s.cfg e) (tick := rawTick s.rom inc)
    (rawChan inc c e) (fun k => pcmSample (s.rom.byte (c.base + rawPos inc c k))) (bufOf b s) s.cfg.n
    fun k hk => rawTick_rawChan same (rawPos_lt hgo hk.le) (hrom k hk) (hgo.imp_right fun h => h (k + 1) (by omega) hk)
  rw [rawChan_zero same] at hblock
  rw [execProcess_raw hc hd hk hs hco (hinc ▸ hi), hinc, hblock]
  rfl

/-- Settles O39: the frames before the last go on, and the last one stops the channel. -/
theorem rawSampleEndStops : Obligations.RawSampleEndStops := by
  intro s ch b c m hc hk hs hco hloop hd e inc hi hm1 hmn hgo hend hrom
  obtain ⟨m, rfl⟩ := Nat.exists_eq_add_of_le' hm1
  have same := envChan_same s.cfg ch.toNat c
  have hinc : pcm8Inc s.cfg c = inc := pcm8Inc_of_player hs
  have hpos {k : Nat} (hk : k ≤ m) : rawPos inc c k < 2 ^ 32 :=
    rawPos_lt (.inr fun k h1 h2 => hgo k h1 (Nat.lt_succ_of_le h2)) hk
  have hblock := frames_stop (ch := ch.toNat) (gL := gainL s.cfg e) (gR := gainR s.cfg e) (tick := rawTick s.rom inc)
    (rawChan inc c e) (fun k => pcmSample (s.rom.byte (c.base + rawPos inc c k))) (bufOf b s) s.cfg.n m _ hmn
    (fun k hk => rawTick_rawChan same (hpos hk.le) (hrom k (by omega)) (.inr (hgo (k + 1) (by omega) (by omega))))
    (rawTick_rawChan_last same (hpos le_rfl) (hrom m (by omega)) hloop hend)
  rw [rawChan_zero same] at hblock
  refine ⟨storePos (rawPos inc c (m + 1)), storePos_of_lt, ?_⟩
  rw [execProcess_raw hc hd hk hs hco (hinc ▸ hi), hinc, hblock, ← envChan_owner hd]
  rfl

/-! The compressed player (R159). -/

/-- The position never falls (R124). -/
theorem playPos_mono (inc : Nat) (c : Chan) {j k : Nat} (h : j ≤ k) : playPos inc c j ≤ playPos inc c k := by
  refine monotone_nat_of_le_succ (fun k => ?_) h
  rw [playPos_succ]
  exact Nat.le_add_right _ _

section
variable {inc : Nat} {c e : Chan}

/-- The compressed channel before frame `k`. -/
def decChan (inc : Nat) (c e : Chan) (k : Nat) : Chan := playedTo inc c e (BitVec.ofNat 32 (playPos inc c k)) k

theorem decChan_zero (same : EnvSame c e) : decChan inc c e 0 = e := by
  rw [decChan, playPos_zero, BitVec.ofNat_toNat, BitVec.setWidth_eq, playedTo_zero same]

/-- One frame of the compressed player: the last one where it reaches the list's end (R159). -/
theorem decTick_decChan (same : EnvSame c e) {k : Nat} (hlen : c.dec.length ≤ 2 ^ 32) (hread : playPos inc c k < c.dec.length) :
    decTick inc (decChan inc c e k) =
      if c.dec.length ≤ playPos inc c (k + 1) then
        .last (playedTo inc c e (storePos (playPos inc c (k + 1))) (k + 1)) (pcmSample (c.dec.getD (playPos inc c k) 0))
      else
        .go (playedTo inc c e (storePos (playPos inc c (k + 1))) (k + 1)) (pcmSample (c.dec.getD (playPos inc c k) 0)) := by
  have hpos : (decChan inc c e k).pos.toNat = playPos inc c k := by
    rw [decChan, playedTo_pos, BitVec.toNat_ofNat, Nat.mod_eq_of_lt (hread.trans_le hlen)]
  have hdec : (decChan inc c e k).dec = c.dec := same.dec
  have hfrac : (decChan inc c e k).frac = fracAfter inc c k := rfl
  rw [decTick_read (by rwa [hpos, hdec]), hpos, hfrac, advFrac_fracAfter, ← playPos_succ, ← same.dec]
  rfl

theorem decTick_decChan_go (same : EnvSame c e) {k : Nat} (hlen : c.dec.length ≤ 2 ^ 32)
    (hnext : playPos inc c (k + 1) < c.dec.length) :
    decTick inc (decChan inc c e k) = .go (decChan inc c e (k + 1)) (pcmSample (c.dec.getD (playPos inc c k) 0)) := by
  rw [decTick_decChan same hlen ((playPos_mono inc c (Nat.le_succ k)).trans_lt hnext), if_neg (Nat.not_le.mpr hnext),
    storePos_of_lt (hnext.trans_le hlen), decChan]

theorem decTick_decChan_last (same : EnvSame c e) {k : Nat} (hlen : c.dec.length ≤ 2 ^ 32)
    (hread : playPos inc c k < c.dec.length) (hend : c.dec.length ≤ playPos inc c (k + 1)) :
    decTick inc (decChan inc c e k) =
      .last (playedTo inc c e (storePos (playPos inc c (k + 1))) (k + 1)) (pcmSample (c.dec.getD (playPos inc c k) 0)) := by
  rw [decTick_decChan same hlen hread, if_pos hend]

end

/-- Settles O42: where the list goes beyond the block every frame goes on, and else the frame that reaches its end stops the channel. -/
theorem compressedSampleEndStops : Obligations.CompressedSampleEndStops := by
  intro s ch b c hc hk hs hco hd hlen e inc hi
  have same := envChan_same s.cfg ch.toNat c
  have hinc : pcm8Inc s.cfg c = inc := pcm8Inc_of_player hs
  rw [execProcess_dec hc hd hk hs hco (hinc ▸ hi), hinc]
  constructor
  case left =>
    intro hn
    have hblock := frames_block (ch := ch.toNat) (gL := gainL s.cfg e) (gR := gainR s.cfg e) (tick := decTick inc)
      (decChan inc c e) (fun k => pcmSample (c.dec.getD (playPos inc c k) 0)) (bufOf b s) s.cfg.n
      fun k hk => decTick_decChan_go same hlen ((playPos_mono inc c hk).trans_lt hn)
    rw [decChan_zero same] at hblock
    rw [hblock]
    rfl
  case right =>
    intro m hm1 hmn hgo hend
    obtain ⟨m, rfl⟩ := Nat.exists_eq_add_of_le' hm1
    have hblock := frames_stop (ch := ch.toNat) (gL := gainL s.cfg e) (gR := gainR s.cfg e) (tick := decTick inc)
      (decChan inc c e) (fun k => pcmSample (c.dec.getD (playPos inc c k) 0)) (bufOf b s) s.cfg.n m _ hmn
      (fun k hk => decTick_decChan_go same hlen (hgo (k + 1) (by omega)))
      (decTick_decChan_last same hlen (hgo m (by omega)) hend)
    rw [decChan_zero same] at hblock
    refine ⟨storePos (playPos inc c (m + 1)), storePos_of_lt, ?_⟩
    rw [hblock, ← envChan_owner hd]
    rfl

end Sys2Proof.Machine
end

section
/-! PROOFS. The PCM8 envelope (R146 to R152, R161 to R163): each state's step once, then the rise and the fall as runs of such steps. -/

namespace Sys2Proof.Machine

/-! One step, state by state. -/

section
variable {cfg : Cfg} {i : Nat} {c : Chan}

theorem envChan_pcm8 (hk : c.kind = .pcm8) : envChan cfg i c = (pcm8EnvStep i (Work.start c [])).chan :=
  congrArg Work.chan (if_pos hk)

theorem envChan_initializing (hk : c.kind = .pcm8) (hs : c.state = .initializing) :
    envChan cfg i c = { c with vel := c.A, state := .rising } := by
  rw [envChan_pcm8 hk, pcm8EnvStep, start_chan, hs]
  rfl

theorem envChan_rising (hk : c.kind = .pcm8) (hs : c.state = .rising) : envChan cfg i c = pcm8Rising c := by
  rw [envChan_pcm8 hk, pcm8EnvStep, start_chan, hs]
  rfl

theorem envChan_decaying (hk : c.kind = .pcm8) (hs : c.state = .decaying) : envChan cfg i c = pcm8Decaying c := by
  rw [envChan_pcm8 hk, pcm8EnvStep, start_chan, hs]
  rfl

theorem envChan_playing (hk : c.kind = .pcm8) (hs : c.state = .playing) : envChan cfg i c = c := by
  rw [envChan_pcm8 hk, pcm8EnvStep, start_chan, hs]
  rfl

theorem envChan_releasing (hk : c.kind = .pcm8) (hs : c.state = .releasing) : envChan cfg i c = pcm8Releasing c := by
  rw [envChan_pcm8 hk, pcm8EnvStep, start_chan, hs]
  rfl

end

/-- The rise on the register's own addition: below 255 it does not wrap (R147). -/
theorem pcm8Rising_eq (c : Chan) :
    pcm8Rising c = if 255 ≤ c.vel.toNat + c.A.toNat then { c with state := .decaying, vel := 255 } else { c with vel := c.vel + c.A } := by
  have hadd : BitVec.ofNat 8 (c.vel.toNat + c.A.toNat) = c.vel + c.A := by
    rw [BitVec.ofNat_add, BitVec.ofNat_toNat, BitVec.ofNat_toNat, BitVec.setWidth_eq, BitVec.setWidth_eq]
  rw [← hadd]
  rfl

/-- Settles O27, state by state. -/
theorem pcm8EnvelopeTable : Obligations.Pcm8EnvelopeTable := by
  intro cfg i c hk
  refine ⟨envChan_initializing hk, fun hs => ?_, envChan_decaying hk, envChan_playing hk, envChan_releasing hk, envChan_dying hk⟩
  rw [envChan_rising hk hs, pcm8Rising_eq]

/-! Runs of steps. -/

theorem envChans_eq_iterate (cfg : Cfg) (i k : Nat) (c : Chan) : envChans cfg i k c = (envChan cfg i)^[k] c := by
  induction k generalizing c with
  | zero => rfl
  | succ k ih => exact ih (envChan cfg i c)

/-- The last of several steps. -/
theorem envChans_succ (cfg : Cfg) (i k : Nat) (c : Chan) : envChans cfg i (k + 1) c = envChan cfg i (envChans cfg i k c) := by
  rw [envChans_eq_iterate, envChans_eq_iterate, Function.iterate_succ_apply']

/-! The rise (R161, R162). -/

section
variable {cfg : Cfg} {i : Nat} {c : Chan}

/-- One step of the rise, from a velocity that the register holds (R147). -/
theorem envChan_rises (hk : c.kind = .pcm8) {n : Nat} (hn : n < 255) :
    envChan cfg i { c with state := .rising, vel := BitVec.ofNat 8 n } =
      if 255 ≤ n + c.A.toNat then { c with state := .decaying, vel := 255 }
      else { c with state := .rising, vel := BitVec.ofNat 8 (n + c.A.toNat) } := by
  have hvel : (BitVec.ofNat 8 n).toNat = n := by rw [BitVec.toNat_ofNat]; omega
  rw [envChan_rising (by exact hk) rfl, pcm8Rising]
  simp only [hvel]

/-- Below 255 the rise is linear in the steps. -/
theorem envChans_rises (hk : c.kind = .pcm8) (hs : c.state = .initializing) {k : Nat} (h1 : 1 ≤ k) (h : k * c.A.toNat < 255) :
    envChans cfg i k c = { c with state := .rising, vel := BitVec.ofNat 8 (k * c.A.toNat) } := by
  induction k, h1 using Nat.le_induction with
  | base =>
    rw [Nat.one_mul, BitVec.ofNat_toNat, BitVec.setWidth_eq]
    exact envChan_initializing hk hs
  | succ k _ ih =>
    rw [Nat.succ_mul] at h ⊢
    have hbefore : k * c.A.toNat < 255 := by omega
    rw [envChans_succ, ih hbefore, envChan_rises hk hbefore, if_neg (Nat.not_le.mpr h)]

/-- The first step past the linear rise, if it is not the first of all, ends it. -/
theorem envChans_peaks (hk : c.kind = .pcm8) (hs : c.state = .initializing) {k : Nat} (h1 : 1 ≤ k) (h : k * c.A.toNat < 255)
    (hend : 255 ≤ (k + 1) * c.A.toNat) : envChans cfg i (k + 1) c = { c with state := .decaying, vel := 255 } := by
  rw [Nat.succ_mul] at hend
  rw [envChans_succ, envChans_rises hk hs h1 h, envChan_rises hk h, if_pos hend]

/-- With the largest attack rate the first step is at 255 already, and the second ends the rise. -/
theorem envChans_peaks_at_once (hk : c.kind = .pcm8) (hs : c.state = .initializing) (hA : c.A = 255) :
    (envChans cfg i 1 c).vel = 255 ∧ envChans cfg i 2 c = { c with state := .decaying, vel := 255 } := by
  have h1 : envChans cfg i 1 c = { c with vel := c.A, state := .rising } := envChan_initializing hk hs
  refine ⟨by rw [h1, hA], ?_⟩
  rw [envChans_succ, h1, envChan_rising (by exact hk) rfl, pcm8Rising]
  simp only [hA]
  rfl

end

/-- What `ceil(255 / a)` is: one more than a number of steps that stay below 255. -/
theorem ceil_255_div {a : Nat} (ha : 1 ≤ a) :
    ∃ k, (254 + a) / a = k + 1 ∧ k * a < 255 ∧ 255 ≤ (k + 1) * a := by
  have hdiv : (254 + a) / a = 254 / a + 1 := Nat.add_div_right 254 ha
  have hlow : 254 / a * a ≤ 254 := Nat.div_mul_le_self 254 a
  have hhigh : 254 < (254 / a + 1) * a := by rw [Nat.mul_comm]; exact Nat.lt_mul_div_succ 254 ha
  exact ⟨254 / a, hdiv, by omega, hhigh⟩

/-- Settles O28: the linear rise, its end in a later step, and the attack rate 255, whose first step is at 255 before the rise ends. -/
theorem pcm8RiseTime : Obligations.Pcm8RiseTime := by
  intro cfg i c hk hs
  refine ⟨fun k => envChans_rises hk hs, fun hA => ?_⟩
  obtain ⟨k, hceil, hbelow, hend⟩ := ceil_255_div hA
  rw [hceil]
  rcases Nat.eq_zero_or_pos k with rfl | hpos
  · have hAmax : c.A = 255 := BitVec.eq_of_toNat_eq (show c.A.toNat = 255 by have := c.A.isLt; omega)
    exact envChans_peaks_at_once hk hs hAmax
  · have hpeak := envChans_peaks (cfg := cfg) (i := i) hk hs hpos hbelow hend
    rw [Nat.max_eq_right (by omega), hpeak]
    exact ⟨rfl, rfl⟩

/-! The fall (R163). -/

/-- Steps that go to `goal` or to a lower velocity reach `goal` within one step more than the velocity. -/
theorem envChans_falls {cfg : Cfg} {i : Nat} {c goal : Chan}
    (hstep : ∀ v, envChan cfg i { c with vel := v } = goal ∨
      ∃ v' : U8, v'.toNat < v.toNat ∧ envChan cfg i { c with vel := v } = { c with vel := v' }) (v : U8) :
    ∃ k, 1 ≤ k ∧ k ≤ v.toNat + 1 ∧ envChans cfg i k { c with vel := v } = goal := by
  induction hn : v.toNat using Nat.strong_induction_on generalizing v with
  | _ n ih =>
    subst hn
    rcases hstep v with hgoal | ⟨v', hlt, hv'⟩
    · exact ⟨1, le_rfl, by omega, hgoal⟩
    · obtain ⟨k, hk1, hk2, hk⟩ := ih v'.toNat hlt v' rfl
      exact ⟨k + 1, by omega, by omega, by rw [envChans, hv', hk]⟩

/-- So the fall of a state: lower in each step that stays in it, and to its end in time. -/
theorem envChan_falls {cfg : Cfg} {i : Nat} {c goal : Chan} {st : EnvState} (hgoal : goal.state ≠ st)
    (hstep : ∀ v, envChan cfg i { c with vel := v } = goal ∨
      ∃ v' : U8, v'.toNat < v.toNat ∧ envChan cfg i { c with vel := v } = { c with vel := v' }) :
    ((envChan cfg i c).state = st → (envChan cfg i c).vel.toNat < c.vel.toNat) ∧
      ∃ k, 1 ≤ k ∧ k ≤ c.vel.toNat + 1 ∧ envChans cfg i k c = goal := by
  refine ⟨fun hstay => ?_, envChans_falls hstep c.vel⟩
  rcases hstep c.vel with hend | ⟨v, hlt, hlower⟩
  · exact absurd (congrArg Chan.state hend ▸ hstay) hgoal
  · exact (congrArg (fun e : Chan => e.vel.toNat) hlower).trans_lt hlt

/-- A velocity times a rate over 256 is no higher, and lower unless it is 0 (R148, R150). -/
theorem scaled_lt {v r : U8} (h : v.toNat * r.toNat / 2 ^ 8 ≠ 0) :
    (BitVec.ofNat 8 (v.toNat * r.toNat / 2 ^ 8)).toNat < v.toNat := by
  have hv : 0 < v.toNat := Nat.pos_of_ne_zero fun h0 => h (by rw [h0, Nat.zero_mul, Nat.zero_div])
  have hlt : v.toNat * r.toNat / 2 ^ 8 < v.toNat := Nat.div_lt_of_lt_mul (by rw [Nat.mul_comm]; exact Nat.mul_lt_mul_of_pos_right r.isLt hv)
  rwa [BitVec.toNat_ofNat, Nat.mod_eq_of_lt (hlt.trans v.isLt)]

/-- A decay step ends in Playing at the sustain level, or goes on lower (R148). -/
theorem pcm8Decaying_falls (c : Chan) :
    pcm8Decaying c = { c with state := .playing, vel := c.S } ∨
      ∃ v : U8, v.toNat < c.vel.toNat ∧ pcm8Decaying c = { c with vel := v } := by
  by_cases h : c.vel.toNat * c.D.toNat / 2 ^ 8 ≤ c.S.toNat
  · exact .inl (if_pos h)
  · exact .inr ⟨_, scaled_lt (by omega), if_neg h⟩

/-- A release step ends in Dying at 0, or goes on lower (R150). -/
theorem pcm8Releasing_falls (c : Chan) :
    pcm8Releasing c = { c with state := .dying, vel := 0 } ∨
      ∃ v : U8, v.toNat < c.vel.toNat ∧ pcm8Releasing c = { c with vel := v } := by
  by_cases h : c.vel.toNat * c.R.toNat / 2 ^ 8 = 0
  · exact .inl (if_pos h)
  · exact .inr ⟨_, scaled_lt h, if_neg h⟩

/-- Settles O29: in either state a step ends the fall or goes on lower, and a velocity cannot fall for ever. -/
theorem pcm8FallsToItsLevel : Obligations.Pcm8FallsToItsLevel := by
  intro cfg i c hk
  refine ⟨fun hs => envChan_falls nofun fun v => ?_, fun hs => envChan_falls nofun fun v => ?_⟩
  case refine_1 =>
    rw [envChan_decaying (by exact hk) (by exact hs)]
    exact pcm8Decaying_falls { c with vel := v }
  case refine_2 =>
    rw [envChan_releasing (by exact hk) (by exact hs)]
    exact pcm8Releasing_falls { c with vel := v }

end Sys2Proof.Machine
end

section
/-! PROOFS. The PCM8 players at the ends of a sample (R156 to R160, R164, R185): the loop, which never stops a channel, and the faults of a
frame; and the range of a sample (R299). -/

namespace Sys2Proof.Machine

/-! The loop (R158, R164). -/

/-- Settles O41: at one sample per frame the overrun is by the last sample, and the fraction stays. -/
theorem loopGoesToTheLoopOffset : Obligations.LoopGoesToTheLoopOffset := by
  intro rom c hloop hlast hrom
  have hend : c.hdr.length.toNat ≤ c.pos.toNat + advDelta c.frac (2 ^ Config.F) := by rw [advDelta_one, hlast]
  rw [rawTick_loop hrom hend hloop, advFrac_one]
  rfl

/-- No frame is the last of a looping sample. -/
theorem rawTick_ne_last {rom : Memory} {inc : Nat} {c c' : Chan} {x : Rat} (hloop : c.hdr.loop = 0x40000000) :
    rawTick rom inc c ≠ .last c' x := by
  rcases Nat.lt_or_ge (c.base + c.pos.toNat) rom.size with hrom | hrom
  · rcases Nat.lt_or_ge (c.pos.toNat + advDelta c.frac inc) c.hdr.length.toNat with hgo | hend
    · rw [rawTick_go hrom hgo]; nofun
    · rw [rawTick_loop hrom hend hloop]; nofun
  · rw [rawTick_fault hrom]; nofun

/-- A block of a looping sample moves the play position alone, through or at a fault. -/
theorem frames_rawTick_samePlay {rom : Memory} {inc ch : Nat} {gL gR : Rat} {w : Work} (hloop : w.chan.hdr.loop = 0x40000000)
    (k f : Nat) : SamePlay w.chan (frames ch gL gR (rawTick rom inc) k f w).work.chan := by
  have hgo : ∀ c c' x, SamePlay w.chan c → rawTick rom inc c = .go c' x → SamePlay w.chan c' := fun c c' x hc ht =>
    hc.trans (by have := rawTick_same rom inc c; rwa [ht] at this)
  have hlast : ∀ c c' x, SamePlay w.chan c → rawTick rom inc c = .last c' x → False := fun c c' x hc ht =>
    rawTick_ne_last (by rw [hc]; exact hloop) ht
  rcases frames_cases (ch := ch) (gL := gL) (gR := gR) hgo hlast k f w (.refl _) with ⟨w', hr, hend⟩ | ⟨w', cause, hr, hsame, -⟩
  · rw [hr]
    rcases hend.chan with ⟨hsame, -⟩ | ⟨c, hfalse, -⟩
    · exact hsame
    · exact hfalse.elim
  · rw [hr]
    exact hsame

/-- So does the whole generator, whose other outcome is an increment out of range. -/
theorem pcm8Generate_loop_samePlay {cfg : Cfg} {rom : Memory} {ch : Nat} {gL gR : Rat} {w : Work} (hs : w.chan.synth = false)
    (hco : w.chan.compressed = false) (hloop : w.chan.hdr.loop = 0x40000000) :
    SamePlay w.chan (pcm8Generate cfg rom ch gL gR w).work.chan := by
  rcases Nat.lt_or_ge (pcm8Inc cfg w.chan) (2 ^ 48) with hi | hi
  · rw [pcm8Generate_raw hs hco hi]
    exact frames_rawTick_samePlay hloop cfg.n 0
  · rw [pcm8Generate_incRange hi]
    exact .refl _

/-- Settles O40: after the envelope step the generator moves the play position alone, whether it is through or faults. -/
theorem loopingSampleNeverStops : Obligations.LoopingSampleNeverStops := by
  intro s t ch b c hc hk hs hco hloop hd ht
  have same := envChan_same s.cfg ch.toNat c
  rw [execProcess_alive hc hd, generate_pcm8 (by rw [start_chan, same.kind]; exact hk)] at ht
  cases ht
  refine ⟨_, (finish_chs ..).trans (by rw [Run.chan_eq_work]), ?_⟩
  have hplay := pcm8Generate_loop_samePlay (cfg := s.cfg) (rom := s.rom) (ch := ch.toNat)
    (gL := gainL s.cfg (envChan s.cfg ch.toNat c)) (gR := gainR s.cfg (envChan s.cfg ch.toNat c))
    (w := Work.start (envChan s.cfg ch.toNat c) (bufOf b s))
    (same.synth.trans hs) (same.compressed.trans hco) (by rw [start_chan, same.hdr]; exact hloop)
  rw [hplay]
  exact ⟨rfl, rfl⟩

/-! The faults of a frame (R156, R159, R185). -/

/-- A compressed frame of an empty list (R159). -/
theorem decTick_of_nil {inc : Nat} {c : Chan} (h : c.dec = []) : decTick inc c = .fault ⟨.decRange, none⟩ := by
  rw [decTick, h]
  rfl

/-- A block of at least one frame whose first frame faults writes no frame (R328). -/
theorem frames_fault_first {ch n : Nat} {gL gR : Rat} {tick : Chan → FrameOut} {c : Chan} {buf : List Rat} {cause : FaultCause}
    (hn : 1 ≤ n) (h : tick c = .fault cause) :
    frames ch gL gR tick n 0 (Work.start c buf) = .raised (Work.start c buf) cause := by
  have hblock := frames_fault (ch := ch) (gL := gL) (gR := gR) (fun _ => c) (fun _ => 0) buf n 0 cause hn nofun h
  rwa [addFrames_zero] at hblock

/-- A synthesis type that has no generator (R185). -/
theorem synthGenerate_unknown {n ch : Nat} {gL gR : Rat} {inc : Nat} {w : Work} (hi : inc < 2 ^ 32)
    (ht : 3 ≤ w.chan.sp.type.toNat) : synthGenerate n ch gL gR inc w = .raised w ⟨.synthType, none⟩ := by
  rw [synthGenerate, if_neg (Nat.not_le.mpr hi)]
  split
  case h_4 => rfl
  all_goals omega

/-- Settles O44: the first frame of an empty list faults, an unknown type faults before any frame, and a raw channel plays up to the frame whose
byte lies outside ROM. -/
theorem emptySampleAndUnknownTypeFault : Obligations.EmptySampleAndUnknownTypeFault := by
  intro s ch b c hc hk hd hn
  have same := envChan_same s.cfg ch.toNat c
  refine ⟨fun hs hco hdec hi => ?dec, fun hs ht hi => ?synth, ?raw⟩
  case dec =>
    rw [execProcess_dec hc hd hk hs hco hi, frames_fault_first hn (decTick_of_nil (same.dec.trans hdec))]
    rfl
  case synth =>
    rw [execProcess_synth hc hd hk hs hi, synthGenerate_unknown hi (by rw [start_chan, same.sp]; exact ht)]
    rfl
  case raw =>
    intro m hm hs hco e inc hi hgo hrom hout
    have hinc : pcm8Inc s.cfg c = inc := pcm8Inc_of_player hs
    have hpos {k : Nat} (hk : k ≤ m) : rawPos inc c k < 2 ^ 32 := rawPos_lt hgo hk
    have haddr : (rawChan inc c e m).base + (rawChan inc c e m).pos.toNat = c.base + rawPos inc c m := by
      rw [rawChan_pos_toNat (hpos le_rfl), show (rawChan inc c e m).base = c.base from same.base]
    have hfault : rawTick s.rom inc (rawChan inc c e m) = .fault ⟨.romRange, some (c.base + rawPos inc c m)⟩ := by
      rw [rawTick_fault (by rw [haddr]; exact hout), haddr]
    have hblock := frames_fault (ch := ch.toNat) (gL := gainL s.cfg e) (gR := gainR s.cfg e)
      (rawChan inc c e) (fun k => pcmSample (s.rom.byte (c.base + rawPos inc c k))) (bufOf b s) s.cfg.n m _ hm
      (fun k hk => rawTick_rawChan same (hpos hk.le) (hrom k hk) (hgo.imp_right fun h => h (k + 1) (by omega) hk)) hfault
    rw [rawChan_zero same] at hblock
    rw [execProcess_raw hc hd hk hs hco (hinc ▸ hi), hinc, hblock]
    rfl

/-! The range of a sample (R157, R187, R189, R299). -/

theorem pcmSample_range (b : I8) : -1 ≤ pcmSample b ∧ pcmSample b < 1 := by
  have hlow : (-128 : Rat) ≤ (b.toInt : Rat) := by exact_mod_cast b.le_toInt
  have hhigh : (b.toInt : Rat) < 128 := by exact_mod_cast b.toInt_lt
  unfold pcmSample
  constructor <;> linarith

/-- The triangle rises to its peak in the first half of the phase and falls in the second. -/
theorem triangleAt_range {p : Rat} (h0 : 0 ≤ p) (h1 : p < 1) : -1 ≤ triangleAt p ∧ triangleAt p ≤ 1 := by
  unfold triangleAt
  split <;> constructor <;> linarith

/-- An `i32` over `2^32`. -/
theorem wrap32_div_range (v : Int) :
    -1 / 2 ≤ (wrap32 v : Rat) / ((2 ^ 32 : Nat) : Rat) ∧ (wrap32 v : Rat) / ((2 ^ 32 : Nat) : Rat) < 1 / 2 := by
  obtain ⟨hlow, hhigh⟩ := wrap32_range v
  have hlow : (-2 ^ 31 : Rat) ≤ (wrap32 v : Rat) := by exact_mod_cast hlow
  have hhigh : (wrap32 v : Rat) < 2 ^ 31 := by exact_mod_cast hhigh
  norm_num at hlow hhigh ⊢
  constructor <;> linarith

theorem squareThreshold_range (sp : SynthParams) (phase : Int) :
    -1 / 2 ≤ squareThreshold sp phase ∧ squareThreshold sp phase < 1 / 2 := wrap32_div_range _

/-- A pulse is `1 - th` only at a phase below `th`, so for `th` above 0 alone. -/
theorem squarePulse_range {th p : Rat} (h0 : 0 ≤ p) (hlow : -1 / 2 ≤ th) (hhigh : th < 1 / 2) :
    -1 ≤ squarePulse th p ∧ squarePulse th p ≤ 1 := by
  unfold squarePulse
  split <;> constructor <;> linarith

/-- Settles O48. -/
theorem sampleBounds : Obligations.SampleBounds := by
  refine ⟨pcmSample_range, fun frac => ?_, fun sp phase frac => ?_⟩
  · obtain ⟨h0, h1⟩ := phaseOf_range frac
    exact triangleAt_range h0 h1
  · obtain ⟨hlow, hhigh⟩ := squareThreshold_range sp phase
    exact squarePulse_range (phaseOf_range frac).1 hlow hhigh

end Sys2Proof.Machine
end

section
/-! PROOFS. `INIT_PCM8` of a PCM8 channel (R140): the parts of its rule, each by what its read answers, and their ends in order. -/

namespace Sys2Proof.Machine

/-- `SYNTH_DETECT` as one decision (R180). -/
theorem synthDetect_eq (cfg : Cfg) (h : Header) :
    synthDetect cfg h =
      decide (cfg.synthDetectEnable = true ∧ h.loop = 0x40000000 ∧ h.loopOffset = 0 ∧ h.length = 0) := by
  change (cfg.synthDetectEnable && decide (h.loop = 0x40000000) && decide (h.loopOffset = 0) && decide (h.length = 0)) = _
  rw [Bool.eq_iff_iff]
  simp only [Bool.and_eq_true, decide_eq_true_eq, and_assoc]

section
variable {cfg : Cfg} {rom : Memory} {st : StartArgs} {off : U32} {fixed comp : Bool} {i : Nat} {w : Work}

/-! The parts of the rule. -/

theorem kindCheck_match {kind : Kind} (rest : Run) (h : w.chan.kind = kind) : kindCheck kind w rest = rest := if_pos h

/-! The decode part reads the codec's samples, or none (R140, R143). -/

theorem pcm8Decode_error {a : Nat}
    (h : (if w.chan.compressed = true then decomp rom w.chan.base w.chan.hdr.length.toNat else .ok []) = .error a) :
    pcm8Decode rom w = .raised w ⟨.romRange, some a⟩ := by
  rw [pcm8Decode]
  split at h
  case isTrue hc => rw [if_pos hc, h]
  case isFalse => cases h

theorem pcm8Decode_ok {xs : List I8}
    (h : (if w.chan.compressed = true then decomp rom w.chan.base w.chan.hdr.length.toNat else .ok []) = .ok xs) :
    pcm8Decode rom w = .done (w.onChan fun c => { c with dec := xs }) := by
  rw [pcm8Decode]
  split at h
  case isTrue hc => rw [if_pos hc, h]
  case isFalse hc => rw [if_neg hc]; cases h; rfl

/-! The detection part reads the parameters of a detected header, or keeps them (R140, R181). -/

theorem pcm8Detect_error {a : Nat}
    (h : (if synthDetect cfg w.chan.hdr = true then readSynthParams rom w.chan.base else .ok w.chan.sp) = .error a) :
    pcm8Detect cfg rom w = .raised (w.onChan fun c => { c with synth := true }) ⟨.romRange, some a⟩ := by
  split at h
  case isTrue hd =>
    simp only [pcm8Detect, Work.onChan, hd, if_true, h]
  case isFalse => cases h

theorem pcm8Detect_ok {sp : SynthParams}
    (h : (if synthDetect cfg w.chan.hdr = true then readSynthParams rom w.chan.base else .ok w.chan.sp) = .ok sp) :
    pcm8Detect cfg rom w = .done (w.onChan fun c => { c with synth := synthDetect cfg c.hdr, sp := sp }) := by
  split at h
  case isTrue hd => simp only [pcm8Detect, Work.onChan, hd, if_true, h]
  case isFalse hd =>
    cases h
    simp only [pcm8Detect, Work.onChan, hd, if_false, Bool.false_eq_true]

/-- The epilogue of a note begun on a PCM8 channel (R113, R145, R290). -/
theorem initEpilogue_pcm8 (hs : w.chan.state = .initializing) (hk : w.chan.kind = .pcm8) :
    initEpilogue st w = w.onChan fun c => { c with
      note := { c.note with pitch := st.pitch }
      lvol := panTerm c.note.velocity st.vol (Params.panCenter - st.pan.toInt)
      rvol := panTerm c.note.velocity st.vol (st.pan.toInt + Params.panCenter)
      freq := ((c.hdr.rate.toNat / 2 ^ 10 : Nat) : Rat) * exp2 (64 * ((c.note.key.toNat : Int) - 60) + st.pitch.toInt) } := by
  have hl : late w.chan = false := late_eq_false.mpr (by simp [hs])
  simp only [initEpilogue, Work.onChan, setVolume_pcm8 hl hk, setPitch, freqOf_withPitch, pcm8SetVolume, hk]
  rfl

/-! Their order (R140, R328). -/

theorem ruleInitPcm8_header_error {a : Nat} (hk : w.chan.kind = .pcm8) (hr : readHeader rom off.toNat = .error a) :
    ruleInitPcm8 cfg rom st off fixed comp i w = .raised w ⟨.romRange, some a⟩ := by
  rw [ruleInitPcm8, kindCheck_match _ hk, hr]

section
variable {h : Header} {w' : Work} {cause : FaultCause}

theorem ruleInitPcm8_header_ok (hk : w.chan.kind = .pcm8) (hr : readHeader rom off.toNat = .ok h) :
    ruleInitPcm8 cfg rom st off fixed comp i w =
      (pcm8Decode rom (pcm8Prologue i st off fixed comp h w)).andThen fun w =>
        (pcm8Detect cfg rom w).andThen fun w => .done (initEpilogue st w) := by
  rw [ruleInitPcm8, kindCheck_match _ hk, hr]

theorem ruleInitPcm8_decode_raised (hk : w.chan.kind = .pcm8) (hr : readHeader rom off.toNat = .ok h)
    (hdec : pcm8Decode rom (pcm8Prologue i st off fixed comp h w) = .raised w' cause) :
    ruleInitPcm8 cfg rom st off fixed comp i w = .raised w' cause := by
  rw [ruleInitPcm8_header_ok hk hr, hdec]
  rfl

theorem ruleInitPcm8_detect_raised {w1 : Work} (hk : w.chan.kind = .pcm8) (hr : readHeader rom off.toNat = .ok h)
    (hdec : pcm8Decode rom (pcm8Prologue i st off fixed comp h w) = .done w1) (hdet : pcm8Detect cfg rom w1 = .raised w' cause) :
    ruleInitPcm8 cfg rom st off fixed comp i w = .raised w' cause := by
  rw [ruleInitPcm8_header_ok hk hr, hdec, Run.andThen, hdet]
  rfl

theorem ruleInitPcm8_done {w1 : Work} (hk : w.chan.kind = .pcm8) (hr : readHeader rom off.toNat = .ok h)
    (hdec : pcm8Decode rom (pcm8Prologue i st off fixed comp h w) = .done w1) (hdet : pcm8Detect cfg rom w1 = .done w') :
    ruleInitPcm8 cfg rom st off fixed comp i w = .done (initEpilogue st w') := by
  rw [ruleInitPcm8_header_ok hk hr, hdec, Run.andThen, hdet]
  rfl

end

end

/-- A header that runs out of ROM (R141, R320). -/
theorem readHeader_error {m : Memory} {a : Nat} (h : m.size < a + 16) : readHeader m a = .error (max a m.size) := by
  rw [readHeader, show memRead m a Params.headerSize = .error (max a m.size) from memRead_error h]
  rfl

/-- Settles O12: the header is read before the note is attached. -/
theorem initPcm8HeaderFault : Obligations.InitPcm8HeaderFault := by
  intro s ch st off fixed comp c hc hk hrom
  have hrule : ruleOf s (.initPcm8 ch st off fixed comp) ch.toNat (Work.start c s.buf) = _ :=
    ruleInitPcm8_header_error hk (readHeader_error hrom)
  rw [exec_of_raised rfl hc hrule, commit_unchanged hc rfl]
  rfl

/-- Settles O11: after the header the rule ends at the read that fails, the codec's or that of the parameters, or it is through. -/
theorem initPcm8Result : Obligations.InitPcm8Result := by
  intro s ch st off fixed comp c h hc hk hh events detected started
  have hch : (Instr.initPcm8 ch st off fixed comp).channel? = some ch := rfl
  have hdetect : synthDetect s.cfg h = decide detected := synthDetect_eq s.cfg h
  have hiff : synthDetect s.cfg h = true ↔ detected := by rw [hdetect, decide_eq_true_iff]
  split
  case h_1 a hread =>
    exact exec_of_raised hch hc (ruleInitPcm8_decode_raised hk hh (pcm8Decode_error hread))
  case h_2 xs hread =>
    have hdec : pcm8Decode s.rom (pcm8Prologue ch.toNat st off fixed comp h (Work.start c s.buf)) = _ := pcm8Decode_ok hread
    split
    case h_1 a hparams =>
      simp only [← hiff] at hparams
      exact exec_of_raised hch hc (ruleInitPcm8_detect_raised hk hh hdec (pcm8Detect_error hparams))
    case h_2 sp hparams =>
      simp only [← hiff] at hparams
      rw [exec_of_done hch hc (ruleInitPcm8_done hk hh hdec (pcm8Detect_ok hparams)), initEpilogue_pcm8 rfl hk, ← hdetect]
      rfl

end Sys2Proof.Machine
end

section
/-! PROOFS. Blocks of the synthesised generators (R183 to R189): the law of each branch and of each generator's frame, and the range of the
saw's filter state. -/

namespace Sys2Proof.Machine

/-! The branches of synth mode (R185). -/

section
variable {n ch inc : Nat} {gL gR : Rat} {e : Chan} {buf : List Rat}

/-- The square moves its modulation phase once, before the frames (R186). -/
theorem synthGenerate_square (hi : inc < 2 ^ 32) (ht : e.sp.type = 0) :
    synthGenerate n ch gL gR inc (Work.start e buf) =
      frames ch gL gR (synthSquareTick (squareThreshold e.sp (squareModPhase e)) inc) n 0
        (Work.start { e with pos := BitVec.ofInt 32 (squareModPhase e) } buf) := by
  rw [synthGenerate, if_neg (Nat.not_le.mpr hi), start_chan, ht]
  rfl

theorem synthGenerate_saw (hi : inc < 2 ^ 32) (ht : e.sp.type = 1) :
    synthGenerate n ch gL gR inc (Work.start e buf) = frames ch gL gR (sawTick inc) n 0 (Work.start e buf) := by
  rw [synthGenerate, if_neg (Nat.not_le.mpr hi), start_chan, ht]
  rfl

theorem synthGenerate_triangle (hi : inc < 2 ^ 32) (ht : e.sp.type = 2) :
    synthGenerate n ch gL gR inc (Work.start e buf) = frames ch gL gR (triangleTick inc) n 0 (Work.start e buf) := by
  rw [synthGenerate, if_neg (Nat.not_le.mpr hi), start_chan, ht]
  rfl

end

/-- `PROCESS` of a synth channel that its envelope step leaves alive, with an increment in range, whose branch runs through the channels `cs`: the
frames of a synthesised generator all go on (R185). -/
theorem execProcess_synth_block {s : State} {ch : U8} {b : BufArg} {c : Chan} {tick : Chan → FrameOut}
    (cs : Nat → Chan) (sample : Nat → Rat) (hc : s.chs[ch.toNat]? = some c)
    (hd : (envChan s.cfg ch.toNat c).state ≠ .dead) (hk : c.kind = .pcm8) (hs : c.synth = true)
    (hi : phaseInc c.freq ((s.cfg.sr * 64 : Nat) : Rat) < 2 ^ 32)
    (hgen : ∀ gL gR, synthGenerate s.cfg.n ch.toNat gL gR (phaseInc c.freq ((s.cfg.sr * 64 : Nat) : Rat))
        (Work.start (envChan s.cfg ch.toNat c) (bufOf b s)) =
      frames ch.toNat gL gR tick s.cfg.n 0 (Work.start (cs 0) (bufOf b s)))
    (hgo : ∀ k, tick (cs k) = .go (cs (k + 1)) (sample k)) :
    exec (.process ch b) s = .next
      { s with
        chs := s.chs.set ch.toNat (cs s.cfg.n)
        buf := addFrames (gainL s.cfg (envChan s.cfg ch.toNat c)) (gainR s.cfg (envChan s.cfg ch.toNat c)) sample s.cfg.n (bufOf b s)
        out := ⟨.ok, [], none⟩ } := by
  rw [← pcm8Inc_of_synth hs] at hi hgen
  rw [execProcess_synth hc hd hk hs hi, hgen, frames_block cs sample (bufOf b s) s.cfg.n fun k _ => hgo k]
  rfl

/-! The phase of a frame (R184). -/

theorem phaseOf_fracAfter (inc : Nat) (c : Chan) (k : Nat) :
    phaseOf (fracAfter inc c k) = (((c.frac.toNat + k * inc) % 2 ^ 32 : Nat) : Rat) / 2 ^ 32 := by
  rw [phaseOf, fracAfter_toNat]
  norm_num [Config.F]

/-- Before the first frame nothing but the position has moved. -/
theorem playedTo_start {inc : Nat} {c e : Chan} (same : EnvSame c e) (p : BitVec 32) : playedTo inc c e p 0 = { e with pos := p } := by
  rw [playedTo, fracAfter_zero, ← same.frac]

theorem synthAdv_playedTo {inc : Nat} (hi : inc < 2 ^ 32) (c e : Chan) (p : BitVec 32) (k : Nat) :
    synthAdv inc (playedTo inc c e p k) = playedTo inc c e p (k + 1) := synthAdv_fracAfter rfl hi

/-! The triangle (R189). -/

/-- One frame of the triangle. -/
theorem triangleTick_playedTo {inc : Nat} (hi : inc < 2 ^ 32) (c e : Chan) (p : BitVec 32) (k : Nat) :
    triangleTick inc (playedTo inc c e p k) =
      .go (playedTo inc c e p (k + 1)) (triangleAt (phaseOf (fracAfter inc c (k + 1)))) := by
  rw [triangleTick, synthAdv_playedTo hi, playedTo_frac]

/-- Settles O45: the phase advances before each sample, and the position register is as it was found. -/
theorem triangleBlockResult : Obligations.TriangleBlockResult := by
  intro s ch b c hc hk hs ht hd hi e inc
  have same : EnvSame c e := envChan_same s.cfg ch.toNat c
  refine execProcess_synth_block (tick := triangleTick inc) (fun k => playedTo inc c e e.pos k) _ hc hd hk hs hi
    (fun gL gR => ?branch) (fun k => ?frame)
  case branch =>
    rw [synthGenerate_triangle hi (by rw [same.sp]; exact ht), playedTo_start same]
  case frame =>
    rw [triangleTick_playedTo hi, phaseOf_fracAfter]
    rfl

/-! The square (R186, R187). -/

theorem squareModPhase_same {c e : Chan} (h : EnvSame c e) : squareModPhase e = squareModPhase c := by
  rw [squareModPhase, squareModPhase, h.pos, h.sp]

/-- A pulse is `1 - th` high below the threshold and `-th` from there on. -/
theorem squarePulse_eq (th p : Rat) : squarePulse th p = if p < th then 1 - th else -th := by
  unfold squarePulse
  split <;> ring

/-- One frame of the square. -/
theorem synthSquareTick_playedTo {inc : Nat} (hi : inc < 2 ^ 32) (th : Rat) (c e : Chan) (p : BitVec 32) (k : Nat) :
    synthSquareTick th inc (playedTo inc c e p k) =
      .go (playedTo inc c e p (k + 1)) (squarePulse th (phaseOf (fracAfter inc c k))) := by
  rw [synthSquareTick, synthAdv_playedTo hi, playedTo_frac]

/-- Settles O46: the modulation phase and the threshold are those of the channel as it was found, for the envelope step writes neither. -/
theorem synthSquareBlockResult : Obligations.SynthSquareBlockResult := by
  intro s ch b c hc hk hs ht hd hi e inc phase t0 t1 t2 th
  have same : EnvSame c e := envChan_same s.cfg ch.toNat c
  have hphase : squareModPhase e = phase := squareModPhase_same same
  have hth : squareThreshold e.sp phase = th := by
    rw [same.sp]
    exact congrArg ((t2 : Rat) / ·) (by norm_num)
  refine execProcess_synth_block (tick := synthSquareTick th inc) (fun k => playedTo inc c e (BitVec.ofInt 32 phase) k) _
    hc hd hk hs hi (fun gL gR => ?branch) (fun k => ?frame)
  case branch =>
    rw [synthGenerate_square hi (by rw [same.sp]; exact ht), hphase, hth, playedTo_start same]
  case frame =>
    rw [synthSquareTick_playedTo hi, squarePulse_eq, phaseOf_fracAfter]

/-! The saw (R188). -/

/-- R188's recurrence before its `wrap32`: the top byte of the phase about a centre, less the five bits below the top one, signed, and half the
state. -/
def sawStep (p : Nat) (v : Int) : Int := ((p / 2 ^ 24 : Nat) : Int) - 0x70 - sext5 (p / 2 ^ 26 % 32) + v / 2

theorem sawFilter_eq (frac : BitVec Config.F) (pos : BitVec 32) :
    sawFilter frac pos = wrap32 (sawStep frac.toNat pos.toInt) := by
  have hbits : frac.toNat / 2 ^ (Config.F - 16) / 2 ^ 10 = frac.toNat / 2 ^ 26 := Nat.div_div_eq_div_mul ..
  rw [sawFilter, hbits]
  rfl

/-- The filter state before frame `k`. -/
def sawState (inc : Nat) (c : Chan) : Nat → Int
  | 0 => c.pos.toInt
  | k + 1 => sawFilter (fracAfter inc c (k + 1)) (BitVec.ofInt 32 (sawState inc c k))

/-- Every filter state is an `i32`, so the position register holds it. -/
theorem sawState_toInt (inc : Nat) (c : Chan) (k : Nat) : (BitVec.ofInt 32 (sawState inc c k)).toInt = sawState inc c k := by
  cases k with
  | zero => rw [sawState, BitVec.ofInt_toInt]
  | succ k => rw [sawState, sawFilter_eq, toInt_ofInt_wrap32]

/-- The recurrence of R188, over the phases of the block. -/
theorem sawState_succ (inc : Nat) (c : Chan) (k : Nat) :
    sawState inc c (k + 1) = wrap32 (sawStep ((c.frac.toNat + (k + 1) * inc) % 2 ^ 32) (sawState inc c k)) := by
  rw [sawState, sawFilter_eq, fracAfter_toNat, sawState_toInt]

/-- One frame of the saw. -/
theorem sawTick_playedTo {inc : Nat} (hi : inc < 2 ^ 32) (c e : Chan) (k : Nat) :
    sawTick inc (playedTo inc c e (BitVec.ofInt 32 (sawState inc c k)) k) =
      .go (playedTo inc c e (BitVec.ofInt 32 (sawState inc c (k + 1))) (k + 1)) ((sawState inc c (k + 1) : Rat) / 256) := by
  rw [sawTick, synthAdv_playedTo hi]
  rfl

theorem sext5_range {x : Nat} (h : x < 32) : -16 ≤ sext5 x ∧ sext5 x ≤ 15 := by
  unfold sext5
  split <;> omega

/-- One step keeps the range, from any phase: the phase adds -127 to 159, and half a state of `-254 .. 318` is again one of `-127 .. 159`. -/
theorem sawStep_range {p : Nat} {v : Int} (hp : p < 2 ^ 32) (hlow : -254 ≤ v) (hhigh : v ≤ 318) :
    -254 ≤ sawStep p v ∧ sawStep p v ≤ 318 := by
  have hsext := sext5_range (Nat.mod_lt (p / 2 ^ 26) (show 0 < 32 by norm_num))
  unfold sawStep
  omega

/-- In range the recurrence does not wrap. -/
theorem wrap32_sawStep {p : Nat} {v : Int} (hp : p < 2 ^ 32) (hlow : -254 ≤ v) (hhigh : v ≤ 318) :
    wrap32 (sawStep p v) = sawStep p v := by
  obtain ⟨h1, h2⟩ := sawStep_range hp hlow hhigh
  exact wrap32_of_range (by omega) (by omega)

/-- From a position register in the range every filter state stays in it. -/
theorem sawState_range {inc : Nat} {c : Chan} (hlow : -254 ≤ c.pos.toInt) (hhigh : c.pos.toInt ≤ 318) (k : Nat) :
    -254 ≤ sawState inc c k ∧ sawState inc c k ≤ 318 := by
  induction k with
  | zero => exact ⟨hlow, hhigh⟩
  | succ k ih =>
    obtain ⟨hk1, hk2⟩ := ih
    have hp : (c.frac.toNat + (k + 1) * inc) % 2 ^ 32 < 2 ^ 32 := Nat.mod_lt _ (by norm_num)
    rw [sawState_succ, wrap32_sawStep hp hk1 hk2]
    exact sawStep_range hp hk1 hk2

/-- `sext_5` of a natural number, as its cast is written. -/
theorem sext5_eq (x : Nat) : sext5 x = if (x : Int) < 16 then (x : Int) else x - 32 := by
  rw [sext5]
  norm_cast

/-- Settles O47: the sequence is `sawState`, which the position register carries from frame to frame. -/
theorem sawStaysInRange : Obligations.SawStaysInRange := by
  intro s ch b c hc hk hs ht hd hi e inc p v1 x v2
  have same : EnvSame c e := envChan_same s.cfg ch.toNat c
  have hstep (k : Nat) (y : Int) : sawStep (p k) y = v1 k - v2 k + y / 2 := by rw [sawStep, sext5_eq]
  refine ⟨sawState inc c, rfl, fun k => ?recurrence, ?block, fun hlow hhigh k => ?range⟩
  case recurrence => rw [sawState_succ, hstep (k + 1)]
  case block =>
    refine execProcess_synth_block (tick := sawTick inc) (fun k => playedTo inc c e (BitVec.ofInt 32 (sawState inc c k)) k) _
      hc hd hk hs hi (fun gL gR => ?branch) (sawTick_playedTo hi c e)
    case branch =>
      have hstart : BitVec.ofInt 32 (sawState inc c 0) = c.pos := BitVec.ofInt_toInt
      rw [synthGenerate_saw hi (by rw [same.sp]; exact ht), hstart, playedTo_zero same]
  case range =>
    obtain ⟨h1, h2⟩ := sawState_range (inc := inc) hlow hhigh k
    refine ⟨h1, h2, ?_⟩
    rw [sawState_succ, wrap32_sawStep (Nat.mod_lt _ (by norm_num)) h1 h2, hstep (k + 1)]

end Sys2Proof.Machine
end

section
/-! PROOFS. The PSG levels (R212, R213) and one envelope step of a PSG channel (R214 to R224): each state's step once, with the entry helpers
on the channel as it was found, for every entry clears the counted frame again. -/

namespace Sys2Proof.Machine

/-! The levels. -/

/-- R213: no sustain without a sustain factor. -/
theorem susOf_zero (peak : U8) : susOf peak 0 = 0 := by
  change BitVec.ofNat 8 ((peak.toNat * 0 + 15) / 16) = 0
  rw [Nat.mul_zero]
  rfl

/-- R213: the largest factor keeps a peak of at most 15 whole. -/
theorem susOf_fifteen {peak : U8} (h : peak.toNat ≤ 15) : susOf peak 15 = peak := by
  have hround : (peak.toNat * 15 + 15) / 16 = peak.toNat := by omega
  calc susOf peak 15
    _ = BitVec.ofNat 8 ((peak.toNat * 15 + 15) / 16) := rfl
    _ = peak := by rw [hround, BitVec.ofNat_toNat, BitVec.setWidth_eq]

/-- R212: factors of at most 127 give a peak of at most 15. -/
theorem peakOf_le_fifteen {velocity vol : U8} (hvelocity : velocity.toNat ≤ 127) (hvol : vol.toNat ≤ 127) :
    (peakOf velocity vol).toNat ≤ 15 := by
  have hprod : velocity.toNat * vol.toNat ≤ 127 * 127 := Nat.mul_le_mul hvelocity hvol
  rw [peakOf_toNat]
  omega

/-- Settles O18. -/
theorem peakAndSustainBounds : Obligations.PeakAndSustainBounds := fun velocity vol _ =>
  ⟨peakOf_le velocity vol, peakOf_le_fifteen, fun hs => susOf_le (Nat.lt_succ_of_le hs), susOf_zero _, susOf_fifteen⟩

/-! The entry helpers. -/

/-- `DEC_ENTRY` on natural numbers (R220). -/
theorem decEntry_eq (c : Chan) :
    decEntry c = if c.vel.toNat ≤ c.sus.toNat + 1 then { c with step := 0, vel := c.sus, next := .playing }
      else { c with step := 0, vel := c.vel - 1 } :=
  if_congr (by omega) rfl rfl

/-- What a release step leaves of a channel in any state (R222), its frame counted. -/
def releaseStep (c : Chan) : Chan :=
  if c.R = 0 then { c with step := c.step + 1, state := .dead, owner := none, vel := 0 }
  else if c.vel.toNat ≤ 1 then { c with state := .releasing, step := 0, vel := 0, next := .dying }
  else { c with state := .releasing, step := 0, vel := c.vel - 1 }

theorem releaseStep_of_rate_zero {c : Chan} (hR : c.R = 0) :
    releaseStep c = { c with step := c.step + 1, state := .dead, owner := none, vel := 0 } := if_pos hR

theorem releaseStep_of_vel_le_one {c : Chan} (hR : c.R ≠ 0) (hv : c.vel.toNat ≤ 1) :
    releaseStep c = { c with state := .releasing, step := 0, vel := 0, next := .dying } := (if_neg hR).trans (if_pos hv)

theorem releaseStep_of_one_lt_vel {c : Chan} (hR : c.R ≠ 0) (hv : ¬ c.vel.toNat ≤ 1) :
    releaseStep c = { c with state := .releasing, step := 0, vel := c.vel - 1 } := (if_neg hR).trans (if_neg hv)

/-- Into Releasing after a counted frame: from whatever state, a release step. -/
theorem enterReleasing_count_chan (i : Nat) (w : Work) : (enterReleasing i (w.onChan psgCount)).chan = releaseStep w.chan := by
  unfold enterReleasing
  by_cases hR : w.chan.R = 0
  · rw [relEntry_stops (by exact hR), releaseStep_of_rate_zero hR]
    rfl
  · rw [relEntry_falls (by exact hR), releaseStep, if_neg hR]
    exact if_congr (show (w.chan.vel.toNat : Int) - 1 ≤ 0 ↔ w.chan.vel.toNat ≤ 1 by omega) rfl rfl

/-- A release step in Releasing. -/
theorem relEntry_count_chan {i : Nat} {w : Work} (hs : w.chan.state = .releasing) :
    (relEntry i (w.onChan psgCount)).chan = releaseStep w.chan := by
  have hstay : (w.onChan psgCount).onChan (fun c => { c with state := .releasing }) = w.onChan psgCount := by
    simp only [Work.onChan, psgCount, ← hs]
  rw [← enterReleasing_count_chan, enterReleasing, hstay]

/-! One step, state by state. -/

section
variable {cfg : Cfg} {i : Nat} {c : Chan}

theorem envChan_psg (hk : c.kind ≠ .pcm8) : envChan cfg i c = (psgEnvStep cfg i (Work.start c [])).chan :=
  congrArg Work.chan (if_neg hk)

theorem envChan_psg_initializing (hk : c.kind ≠ .pcm8) (hs : c.state = .initializing) :
    envChan cfg i c = psgInitializing cfg c := by
  rw [envChan_psg hk, psgEnvStep, start_chan, hs]
  rfl

theorem envChan_psg_rising (hk : c.kind ≠ .pcm8) (hs : c.state = .rising) :
    envChan cfg i c =
      if (c.step + 1).toNat < c.A.toNat then psgCount c
      else if c.next = .decaying then enterDecaying c
      else if c.next = .playing then enterPlaying c
      else if c.next = .releasing then releaseStep c
      else psgClimb c := by
  rw [envChan_psg hk, psgEnvStep, start_chan, hs]
  dsimp only
  split
  case isTrue hold => exact congrArg Work.chan (psgRising_hold (w := Work.start c []) (Nat.not_le.mpr hold))
  case isFalse hold =>
    refine (congrArg Work.chan (psgRising_boundary (w := Work.start c []) (Nat.not_lt.mp hold))).trans ?_
    rw [start_chan]
    cases c.next
    case releasing => exact enterReleasing_count_chan i (Work.start c [])
    all_goals rfl

theorem envChan_psg_decaying (hk : c.kind ≠ .pcm8) (hs : c.state = .decaying) :
    envChan cfg i c =
      if (c.step + 1).toNat < c.D.toNat then psgCount c
      else if c.next = .playing then enterPlaying c
      else if c.next = .releasing then releaseStep c
      else decEntry c := by
  rw [envChan_psg hk, psgEnvStep, start_chan, hs]
  dsimp only
  split
  case isTrue hold => exact congrArg Work.chan (psgDecaying_hold (w := Work.start c []) (Nat.not_le.mpr hold))
  case isFalse hold =>
    refine (congrArg Work.chan (psgDecaying_boundary (w := Work.start c []) (Nat.not_lt.mp hold))).trans ?_
    rw [start_chan]
    cases c.next
    case releasing => exact enterReleasing_count_chan i (Work.start c [])
    all_goals rfl

theorem envChan_psg_playing (hk : c.kind ≠ .pcm8) (hs : c.state = .playing) :
    envChan cfg i c = if c.next = .releasing then releaseStep c else susEntry c := by
  rw [envChan_psg hk, psgEnvStep, start_chan, hs]
  dsimp only
  split
  case isTrue hn =>
    exact (congrArg Work.chan (psgPlaying_staged (w := Work.start c []) hn)).trans (enterReleasing_count_chan i _)
  case isFalse hn => exact congrArg Work.chan (psgPlaying_holds (w := Work.start c []) hn)

theorem envChan_psg_releasing (hk : c.kind ≠ .pcm8) (hs : c.state = .releasing) :
    envChan cfg i c =
      if (c.step + 1).toNat < c.R.toNat then psgCount c
      else if c.next = .dying then { psgCount c with state := .dead, owner := none }
      else releaseStep c := by
  rw [envChan_psg hk, psgEnvStep, start_chan, hs]
  dsimp only
  split
  case isTrue hold => exact congrArg Work.chan (psgReleasing_hold (w := Work.start c []) (Nat.not_le.mpr hold))
  case isFalse hold =>
    have hend : c.R.toNat ≤ (c.step + 1).toNat := Nat.not_lt.mp hold
    split
    case isTrue hn => exact congrArg Work.chan (psgReleasing_ends (w := Work.start c []) hend hn)
    case isFalse hn =>
      exact (congrArg Work.chan (psgReleasing_boundary (w := Work.start c []) hend hn)).trans (relEntry_count_chan hs)

theorem envChan_psg_over (hk : c.kind ≠ .pcm8) (hs : c.state = .dying ∨ c.state = .dead) : envChan cfg i c = c := by
  rcases hs with hs | hs <;> rw [envChan_psg hk, psgEnvStep, start_chan, hs] <;> rfl

end

/-- Settles O30, state by state. -/
theorem psgEnvelopeTable : Obligations.PsgEnvelopeTable := by
  intro cfg i c hk counted decay fall
  have hdecay (st : EnvState) : decEntry { c with state := st } = decay st := decEntry_eq _
  refine ⟨envChan_psg_initializing hk, fun hs => ?rising, fun hs => ?decaying, envChan_psg_playing hk, envChan_psg_releasing hk,
    envChan_psg_over hk⟩
  case rising =>
    rw [envChan_psg_rising hk hs, enterDecaying, hdecay]
    rfl
  case decaying =>
    rw [envChan_psg_decaying hk hs, ← hdecay, ← hs]
    rfl

/-- A staged release, where the state's rule comes to look at what is staged (R216 to R218). -/
theorem envChan_psg_staged {cfg : Cfg} {i : Nat} {c : Chan} (hk : c.kind ≠ .pcm8) (hn : c.next = .releasing)
    (hs : c.state = .playing ∨ c.state = .decaying ∧ c.D.toNat ≤ (c.step + 1).toNat ∨
      c.state = .rising ∧ c.A.toNat ≤ (c.step + 1).toNat) : envChan cfg i c = releaseStep c := by
  rcases hs with hs | ⟨hs, hend⟩ | ⟨hs, hend⟩
  · rw [envChan_psg_playing hk hs, if_pos hn]
  · rw [envChan_psg_decaying hk hs, if_neg (Nat.not_lt.mpr hend), hn]
    rfl
  · rw [envChan_psg_rising hk hs, if_neg (Nat.not_lt.mpr hend), hn]
    rfl

/-- Settles O34: what is honoured is a release step. -/
theorem stagedReleaseIsHonoured : Obligations.StagedReleaseIsHonoured := by
  intro cfg i c hk hn hs
  rw [envChan_psg_staged hk hn hs]
  split
  case isTrue hR => rw [releaseStep_of_rate_zero hR]; exact ⟨rfl, rfl⟩
  case isFalse hR =>
    split
    case isTrue hv => exact releaseStep_of_vel_le_one hR hv
    case isFalse hv => exact releaseStep_of_one_lt_vel hR hv

end Sys2Proof.Machine
end

section
/-! PROOFS. Runs of PSG envelope steps: the holds of a rise and of a release (R227), and the fall without an attack (R226). -/

namespace Sys2Proof.Machine

/-! Holds. -/

/-- A register's count up by one. -/
theorem ofNat_add_one (n : Nat) : (BitVec.ofNat 8 n : U8) + 1 = BitVec.ofNat 8 (n + 1) := (BitVec.ofNat_add n 1).symm

theorem ofNat_toNat_of_lt {n : Nat} (h : n < 256) : (BitVec.ofNat 8 n : U8).toNat = n := by
  rw [BitVec.toNat_ofNat, Nat.mod_eq_of_lt h]

/-- The frame counted within a hold. -/
theorem count_toNat {j : Nat} (hj : j + 1 < 256) : ((BitVec.ofNat 8 j : U8) + 1).toNat = j + 1 := by
  rw [ofNat_add_one, ofNat_toNat_of_lt hj]

/-- The frame counted at the end of a hold of `r` frames. -/
theorem count_end_toNat {r : Nat} (h1 : 1 ≤ r) (h : r < 256) : ((BitVec.ofNat 8 (r - 1) : U8) + 1).toNat = r := by
  rw [count_toNat (by omega), Nat.sub_add_cancel h1]

theorem ne_zero_of_one_le_toNat {x : U8} (h : 1 ≤ x.toNat) : x ≠ 0 := fun h0 => by rw [h0] at h; exact absurd h (by decide)

/-- The velocities of a rise or a fall, each held for `r` frames: `f m j` is the channel at frame `j` of the `m`-th. -/
theorem envChans_holds {cfg : Cfg} {i r n : Nat} {f : Nat → Nat → Chan}
    (hhold : ∀ m j, m < n → j + 1 < r → envChan cfg i (f m j) = f m (j + 1))
    (hturn : ∀ m, m + 1 < n → envChan cfg i (f m (r - 1)) = f (m + 1) 0) {m j : Nat} (hm : m < n) (hj : j < r) :
    envChans cfg i (r * m + j) (f 0 0) = f m j := by
  have hlevel {m : Nat} (hm : m < n) (hstart : envChans cfg i (r * m) (f 0 0) = f m 0) :
      ∀ j, j < r → envChans cfg i (r * m + j) (f 0 0) = f m j := by
    intro j hj
    induction j with
    | zero => exact hstart
    | succ j ih => rw [← Nat.add_assoc, envChans_succ, ih (by omega), hhold m j hm hj]
  induction m generalizing j with
  | zero => exact hlevel hm rfl j hj
  | succ m ih =>
    have hlast : r * (m + 1) = r * m + (r - 1) + 1 := by rw [Nat.mul_succ]; omega
    refine hlevel hm ?_ j hj
    rw [hlast, envChans_succ, ih (by omega) (by omega), hturn m hm]

/-! The rise (R216, R227). -/

/-- The channel at frame `j` of the hold at velocity `m + 1` of its rise; at the peak the next state is staged. -/
def risingAt (c : Chan) (m j : Nat) : Chan :=
  { c with
    state := .rising
    vel := BitVec.ofNat 8 (m + 1)
    step := BitVec.ofNat 8 j
    next := if m + 1 = c.peak.toNat then (if c.D = 0 ∨ c.peak = c.sus then .playing else .decaying) else .rising }

section
variable {cfg : Cfg} {i : Nat} {c : Chan} {m j : Nat}

theorem envChan_risingAt_hold (hk : c.kind ≠ .pcm8) (hA : c.A.toNat < 8) (hj : j + 1 < c.A.toNat) :
    envChan cfg i (risingAt c m j) = risingAt c m (j + 1) := by
  have hcount : ((risingAt c m j).step + 1).toNat < (risingAt c m j).A.toNat := (count_toNat (by omega)).trans_lt hj
  rw [envChan_psg_rising (c := risingAt c m j) hk rfl, if_pos hcount, psgCount, risingAt, ofNat_add_one]
  rfl

/-- The climb at the end of a hold below the peak. -/
theorem psgClimb_risingAt (hpeak : c.peak.toNat ≤ 63) (hm : m + 1 < c.peak.toNat) :
    psgClimb (risingAt c m j) = risingAt c (m + 1) 0 := by
  have hvel : (risingAt c m j).vel.toNat = m + 1 := ofNat_toNat_of_lt (by omega)
  unfold psgClimb
  rw [hvel]
  split
  case isTrue htop =>
    have hm2 : m + 1 + 1 = c.peak.toNat := Nat.le_antisymm hm htop
    rw [risingAt, risingAt, if_pos hm2, hm2, BitVec.ofNat_toNat, BitVec.setWidth_eq]
    rfl
  case isFalse hbelow =>
    have hm2 : ¬ m + 1 + 1 = c.peak.toNat := fun h => hbelow (Nat.le_of_eq h.symm)
    rw [risingAt, risingAt, if_neg hm2, if_neg (Nat.ne_of_lt hm), ofNat_add_one]
    rfl

theorem envChan_risingAt_turn (hk : c.kind ≠ .pcm8) (hA1 : 1 ≤ c.A.toNat) (hA : c.A.toNat < 8) (hpeak : c.peak.toNat ≤ 63)
    (hm : m + 1 < c.peak.toNat) : envChan cfg i (risingAt c m (c.A.toNat - 1)) = risingAt c (m + 1) 0 := by
  have hcount : ¬ ((risingAt c m (c.A.toNat - 1)).step + 1).toNat < (risingAt c m (c.A.toNat - 1)).A.toNat :=
    (count_end_toNat hA1 (by omega)).not_lt
  have hnext : (risingAt c m (c.A.toNat - 1)).next = .rising := if_neg (Nat.ne_of_lt hm)
  rw [envChan_psg_rising (c := risingAt c m (c.A.toNat - 1)) hk rfl, if_neg hcount, hnext]
  exact psgClimb_risingAt hpeak hm

/-- The first step of a rise (R215). -/
theorem envChan_psg_rises (hk : c.kind ≠ .pcm8) (hs : c.state = .initializing) (hA : c.A ≠ 0) (hpeak : 2 ≤ c.peak.toNat)
    (hn : cfg.psgInitDropsStagedRelease = true ∨ c.next ≠ .releasing) : envChan cfg i c = risingAt c 0 0 := by
  have hpeak0 : c.peak ≠ 0 := ne_zero_of_one_le_toNat (by omega)
  have hnext : ¬ 0 + 1 = c.peak.toNat := by omega
  have hlevels : ¬ (c.A = 0 ∧ c.D = 0 ∨ c.sus = 0 ∧ c.peak = 0) := fun h => h.elim (fun h => hA h.1) (fun h => hpeak0 h.2)
  rw [envChan_psg_initializing hk hs, psgInitializing, risingAt, if_neg hnext, if_pos hn]
  dsimp only
  rw [if_neg hlevels, if_neg (fun h => hA h.1), if_neg hA]
  rfl

end

/-- Settles O31: after the first step, one velocity per hold. -/
theorem psgRiseTime : Obligations.PsgRiseTime := by
  intro cfg i c hk hs hA1 hA hpeak2 hpeak hn m j hm hj
  have hrun : envChans cfg i (1 + c.A.toNat * m + j) c = risingAt c m j := by
    rw [show 1 + c.A.toNat * m + j = c.A.toNat * m + j + 1 by omega, envChans, envChan_psg_rises hk hs (ne_zero_of_one_le_toNat hA1) hpeak2 hn]
    exact envChans_holds (f := risingAt c) (n := c.peak.toNat) (fun _ _ _ => envChan_risingAt_hold hk hA)
      (fun _ => envChan_risingAt_turn hk hA1 hA hpeak) hm hj
  rw [hrun]
  exact ⟨rfl, ofNat_toNat_of_lt (by omega)⟩

/-! The release (R219, R222, R227). -/

/-- The channel at frame `j` of the hold at `m` below its velocity; at 0 the end is staged. -/
def releasingAt (c : Chan) (m j : Nat) : Chan :=
  { c with
    vel := BitVec.ofNat 8 (c.vel.toNat - m)
    step := BitVec.ofNat 8 j
    next := if m = c.vel.toNat then .dying else c.next }

section
variable {cfg : Cfg} {i : Nat} {c : Chan} {m j : Nat}

theorem releasingAt_zero (hstep : c.step = 0) (hv : 1 ≤ c.vel.toNat) : releasingAt c 0 0 = c := by
  have hnext : ¬ 0 = c.vel.toNat := by omega
  have hcount : BitVec.ofNat 8 0 = c.step := hstep.symm
  rw [releasingAt, if_neg hnext, Nat.sub_zero, BitVec.ofNat_toNat, BitVec.setWidth_eq, hcount]

theorem envChan_releasingAt_hold (hk : c.kind ≠ .pcm8) (hs : c.state = .releasing) (hR : c.R.toNat < 8) (hj : j + 1 < c.R.toNat) :
    envChan cfg i (releasingAt c m j) = releasingAt c m (j + 1) := by
  have hcount : ((releasingAt c m j).step + 1).toNat < (releasingAt c m j).R.toNat := (count_toNat (by omega)).trans_lt hj
  rw [envChan_psg_releasing (c := releasingAt c m j) hk hs, if_pos hcount, psgCount, releasingAt, ofNat_add_one]
  rfl

/-- The count at the end of a hold. -/
theorem releasingAt_count_end (hR1 : 1 ≤ c.R.toNat) (hR : c.R.toNat < 8) :
    ¬ ((releasingAt c m (c.R.toNat - 1)).step + 1).toNat < (releasingAt c m (c.R.toNat - 1)).R.toNat :=
  (count_end_toNat hR1 (by omega)).not_lt

/-- The release step at the end of a hold above 0. -/
theorem releaseStep_releasingAt (hs : c.state = .releasing) (hR : c.R ≠ 0) (hm : m < c.vel.toNat) :
    releaseStep (releasingAt c m j) = releasingAt c (m + 1) 0 := by
  have hvel : (releasingAt c m j).vel.toNat = c.vel.toNat - m := ofNat_toNat_of_lt (by have := c.vel.isLt; omega)
  by_cases hlow : (releasingAt c m j).vel.toNat ≤ 1
  · have hm1 : m + 1 = c.vel.toNat := by omega
    rw [releaseStep_of_vel_le_one (by exact hR) hlow, releasingAt, releasingAt, if_pos hm1, hm1, Nat.sub_self, ← hs]
    rfl
  · have hm1 : ¬ m + 1 = c.vel.toNat := by omega
    have hsub : (BitVec.ofNat 8 (c.vel.toNat - m) : U8) - 1 = BitVec.ofNat 8 (c.vel.toNat - (m + 1)) := by
      rw [show c.vel.toNat - m = c.vel.toNat - (m + 1) + 1 by omega, ← ofNat_add_one, BitVec.add_sub_cancel]
    rw [releaseStep_of_one_lt_vel (by exact hR) hlow, releasingAt, releasingAt, if_neg hm1, if_neg (Nat.ne_of_lt hm), hsub, ← hs]
    rfl

theorem envChan_releasingAt_turn (hk : c.kind ≠ .pcm8) (hs : c.state = .releasing) (hn : c.next ≠ .dying) (hR1 : 1 ≤ c.R.toNat)
    (hR : c.R.toNat < 8) (hm : m < c.vel.toNat) : envChan cfg i (releasingAt c m (c.R.toNat - 1)) = releasingAt c (m + 1) 0 := by
  have hnext : (releasingAt c m (c.R.toNat - 1)).next = c.next := if_neg (Nat.ne_of_lt hm)
  rw [envChan_psg_releasing (c := releasingAt c m (c.R.toNat - 1)) hk hs, if_neg (releasingAt_count_end hR1 hR), hnext, if_neg hn,
    releaseStep_releasingAt hs (ne_zero_of_one_le_toNat hR1) hm]

/-- The end of the hold at 0 (R219). -/
theorem envChan_releasingAt_end (hk : c.kind ≠ .pcm8) (hs : c.state = .releasing) (hR1 : 1 ≤ c.R.toNat) (hR : c.R.toNat < 8) :
    envChan cfg i (releasingAt c c.vel.toNat (c.R.toNat - 1)) =
      { psgCount (releasingAt c c.vel.toNat (c.R.toNat - 1)) with state := .dead, owner := none } := by
  have hnext : (releasingAt c c.vel.toNat (c.R.toNat - 1)).next = .dying := if_pos rfl
  rw [envChan_psg_releasing (c := releasingAt c c.vel.toNat (c.R.toNat - 1)) hk hs, if_neg (releasingAt_count_end hR1 hR), if_pos hnext]

/-- A release step by step: each velocity down to 0 is held for `R` frames. -/
theorem envChans_releasingAt (hk : c.kind ≠ .pcm8) (hs : c.state = .releasing) (hstep : c.step = 0) (hn : c.next ≠ .dying)
    (hv : 1 ≤ c.vel.toNat) (hR1 : 1 ≤ c.R.toNat) (hR : c.R.toNat < 8) (hm : m ≤ c.vel.toNat) (hj : j < c.R.toNat) :
    envChans cfg i (c.R.toNat * m + j) c = releasingAt c m j := by
  have hrun : envChans cfg i (c.R.toNat * m + j) (releasingAt c 0 0) = releasingAt c m j :=
    envChans_holds (f := releasingAt c) (n := c.vel.toNat + 1) (fun _ _ _ => envChan_releasingAt_hold hk hs hR)
      (fun _ hm => envChan_releasingAt_turn hk hs hn hR1 hR (Nat.lt_of_succ_lt_succ hm)) (Nat.lt_succ_of_le hm) hj
  rwa [releasingAt_zero hstep hv] at hrun

end

/-- Settles O32: `w + 1` holds of `R` frames, the last of them at 0. -/
theorem psgReleaseTime : Obligations.PsgReleaseTime := by
  intro cfg i c hk hs hstep hn hv hR1 hR
  have hrun {m j : Nat} (hm : m ≤ c.vel.toNat) (hj : j < c.R.toNat) : envChans cfg i (c.R.toNat * m + j) c = releasingAt c m j :=
    envChans_releasingAt hk hs hstep hn hv hR1 hR hm hj
  have hend : envChans cfg i ((c.vel.toNat + 1) * c.R.toNat) c =
      { psgCount (releasingAt c c.vel.toNat (c.R.toNat - 1)) with state := .dead, owner := none } := by
    have hlast : (c.vel.toNat + 1) * c.R.toNat = c.R.toNat * c.vel.toNat + (c.R.toNat - 1) + 1 := by
      rw [Nat.mul_comm, Nat.mul_succ]; omega
    rw [hlast, envChans_succ, hrun le_rfl (by omega), envChan_releasingAt_end hk hs hR1 hR]
  refine ⟨fun k hlt => ?_, by rw [hend], ?_⟩
  · have hm : k / c.R.toNat < c.vel.toNat + 1 := (Nat.div_lt_iff_lt_mul hR1).mpr hlt
    rw [← Nat.div_add_mod k c.R.toNat, hrun (Nat.le_of_lt_succ hm) (Nat.mod_lt k hR1)]
    exact hs
  · rw [hend]
    exact congrArg (BitVec.ofNat 8) (Nat.sub_self _)

/-! Without an attack (R226). -/

theorem decEntry_vel {c : Chan} (h : c.sus.toNat ≤ c.vel.toNat) :
    c.sus.toNat ≤ (decEntry c).vel.toNat ∧ (decEntry c).vel.toNat ≤ c.vel.toNat := by
  rw [decEntry_eq]
  split
  case isTrue => exact ⟨le_rfl, h⟩
  case isFalse habove =>
    change c.sus.toNat ≤ (c.vel - 1).toNat ∧ (c.vel - 1).toNat ≤ c.vel.toNat
    bv_omega

/-- A release step does not raise the velocity, and leaves a channel that is not Decaying. -/
theorem releaseStep_falls (c : Chan) : (releaseStep c).vel.toNat ≤ c.vel.toNat ∧ (releaseStep c).state ≠ .decaying := by
  by_cases hR : c.R = 0
  · rw [releaseStep_of_rate_zero hR]
    exact ⟨Nat.zero_le _, nofun⟩
  · by_cases hv : c.vel.toNat ≤ 1
    · rw [releaseStep_of_vel_le_one hR hv]
      exact ⟨Nat.zero_le _, nofun⟩
    · rw [releaseStep_of_one_lt_vel hR hv]
      refine ⟨?_, nofun⟩
      change (c.vel - 1).toNat ≤ c.vel.toNat
      bv_omega

/-- The states after the rise, by their codes (R23). -/
theorem decaying_le_stateCode_iff (st : EnvState) :
    stateCode .decaying ≤ stateCode st ↔ st ≠ .initializing ∧ st ≠ .rising := by cases st <;> decide

/-- An envelope step goes forward (R128). -/
theorem envChan_forward (cfg : Cfg) (i : Nat) (c : Chan) : stateCode c.state ≤ stateCode (envChan cfg i c).state := by
  unfold envChan
  cases envStep_end cfg i (Work.start c []) with
  | goes st v k nx eq dead mono => rw [eq]; exact mono
  | stops v k nx eq => rw [eq]; exact stateCode_le_dead _

/-- A PSG channel whose rise, if any, is over, and which does not decay towards a sustain level above its velocity (R226). -/
structure AttackOver (c : Chan) : Prop where
  psg : c.kind ≠ .pcm8
  past : c.state ≠ .initializing ∧ c.state ≠ .rising
  sustained : c.state = .decaying → c.sus.toNat ≤ c.vel.toNat

section
variable {c : Chan} (cfg : Cfg) (i : Nat)

/-- A step then does not raise the velocity, and while the channel is Decaying not below the sustain level. -/
theorem AttackOver.vel_envChan (h : AttackOver c) :
    (envChan cfg i c).vel.toNat ≤ c.vel.toNat ∧
      ((envChan cfg i c).state = .decaying → c.sus.toNat ≤ (envChan cfg i c).vel.toNat) := by
  have hrelease : (releaseStep c).vel.toNat ≤ c.vel.toNat ∧
      ((releaseStep c).state = .decaying → c.sus.toNat ≤ (releaseStep c).vel.toNat) :=
    ⟨(releaseStep_falls c).1, fun hs => absurd hs (releaseStep_falls c).2⟩
  cases hs : c.state with
  | initializing => exact absurd hs h.past.1
  | rising => exact absurd hs h.past.2
  | decaying =>
    have hdecay := decEntry_vel (h.sustained hs)
    rw [envChan_psg_decaying h.psg hs]
    split_ifs
    · exact ⟨le_rfl, h.sustained⟩
    · exact ⟨le_rfl, nofun⟩
    · exact hrelease
    · exact ⟨hdecay.2, fun _ => hdecay.1⟩
  | playing =>
    rw [envChan_psg_playing h.psg hs]
    split_ifs
    · exact hrelease
    · exact ⟨le_rfl, h.sustained⟩
  | releasing =>
    rw [envChan_psg_releasing h.psg hs]
    split_ifs
    · exact ⟨le_rfl, h.sustained⟩
    · exact ⟨le_rfl, nofun⟩
    · exact hrelease
  | dying => rw [envChan_psg_over h.psg (.inl hs)]; exact ⟨le_rfl, h.sustained⟩
  | dead => rw [envChan_psg_over h.psg (.inr hs)]; exact ⟨le_rfl, h.sustained⟩

theorem AttackOver.envChan (h : AttackOver c) : AttackOver (envChan cfg i c) := by
  obtain ⟨-, -, -, hsus, -⟩ := (envChan_same cfg i c).gains
  refine ⟨(envChan_same cfg i c).kind ▸ h.psg, ?_, fun hs => hsus ▸ (h.vel_envChan cfg i).2 hs⟩
  have hpast := (decaying_le_stateCode_iff c.state).mpr h.past
  exact (decaying_le_stateCode_iff _).mp (hpast.trans (envChan_forward cfg i c))

/-- The first step without an attack (R215): Playing at the sustain level, or Decaying below the peak. -/
theorem envChan_psg_attack_zero (hk : c.kind ≠ .pcm8) (hs : c.state = .initializing) (hA : c.A = 0) :
    (envChan cfg i c).state = .playing ∧ (envChan cfg i c).vel = c.sus ∨
      (envChan cfg i c).state = .decaying ∧ (envChan cfg i c).vel.toNat = max (c.peak.toNat - 1) c.sus.toNat := by
  have hmax : max (c.peak.toNat - 1) c.sus.toNat < 256 := by
    have := c.peak.isLt
    have := c.sus.isLt
    omega
  rw [envChan_psg_initializing hk hs, psgInitializing]
  dsimp only
  rw [if_pos hA]
  split
  case isTrue => exact .inl ⟨rfl, rfl⟩
  case isFalse =>
    split
    case isTrue => exact .inr ⟨rfl, ofNat_toNat_of_lt hmax⟩
    case isFalse => exact .inl ⟨rfl, rfl⟩

theorem attackOver_of_attack_zero (hk : c.kind ≠ .pcm8) (hs : c.state = .initializing) (hA : c.A = 0) :
    AttackOver (envChan cfg i c) := by
  have hkind : (envChan cfg i c).kind ≠ .pcm8 := (envChan_same cfg i c).kind ▸ hk
  obtain ⟨-, -, -, hsus, -⟩ := (envChan_same cfg i c).gains
  rcases envChan_psg_attack_zero cfg i hk hs hA with ⟨hst, -⟩ | ⟨hst, hvel⟩
  · exact ⟨hkind, by rw [hst]; decide, fun h => absurd (hst ▸ h) (by decide)⟩
  · exact ⟨hkind, by rw [hst]; decide, fun _ => by rw [hsus, hvel]; exact Nat.le_max_right _ _⟩

theorem envChan_psg_not_rising (hk : c.kind ≠ .pcm8) (hA : c.A = 0) (hs : c.state ≠ .rising) : (envChan cfg i c).state ≠ .rising := by
  by_cases hinit : c.state = .initializing
  · exact (attackOver_of_attack_zero cfg i hk hinit hA).past.2
  · have hpast := (decaying_le_stateCode_iff c.state).mpr ⟨hinit, hs⟩
    exact ((decaying_le_stateCode_iff _).mp (hpast.trans (envChan_forward cfg i c))).2

theorem envChans_psg_not_rising (k : Nat) (hk : c.kind ≠ .pcm8) (hA : c.A = 0) (hs : c.state ≠ .rising) :
    (envChans cfg i k c).state ≠ .rising := by
  induction k generalizing c with
  | zero => exact hs
  | succ k ih =>
    have same := envChan_same cfg i c
    obtain ⟨hrate, -⟩ := same.rates
    exact ih (same.kind ▸ hk) (hrate.trans hA) (envChan_psg_not_rising cfg i hk hA hs)

theorem AttackOver.envChans (h : AttackOver c) (k : Nat) : AttackOver (envChans cfg i k c) := by
  induction k with
  | zero => exact h
  | succ k ih => rw [envChans_succ]; exact ih.envChan cfg i

end

/-- Settles O33: without an attack the first step leaves the rise out, and from there on `AttackOver` is kept. -/
theorem psgAttackZeroSkipsRising : Obligations.PsgAttackZeroSkipsRising := by
  intro cfg i c hk hA hs
  refine ⟨fun k => envChans_psg_not_rising cfg i k hk hA hs, fun hinit => ⟨?first, fun k hk1 => ?falls⟩, fun hinit hsus => ?step⟩
  case first => exact (envChan_psg_attack_zero cfg i hk hinit hA).imp And.right And.right
  case falls =>
    obtain ⟨k, rfl⟩ := Nat.exists_eq_add_of_le' hk1
    rw [envChans_succ]
    exact (((attackOver_of_attack_zero cfg i hk hinit hA).envChans cfg i k).vel_envChan cfg i).1
  case step => exact ((AttackOver.mk hk ⟨hinit, hs⟩ hsus).vel_envChan cfg i).1

end Sys2Proof.Machine
end

section
/-! PROOFS. The octaves of the PSG kinds (R254, R255): at pitch 0 the exponent of a whole number of octaves is a multiple of 768, where
`EXP2` is a power of two. -/

namespace Sys2Proof.Machine

theorem noteExp_of_pitch_zero {c : Chan} (hp : c.note.pitch = 0) (center : Int) :
    noteExp c center = 64 * ((c.note.key.toNat : Int) - center) := by
  rw [noteExp, hp, show (0 : I32).toInt = 0 from rfl, add_zero]

/-- Twelve keys are 768 steps of `EXP2` (R120, R121). -/
theorem exp2_noteExp_octave {c : Chan} {center k : Int} (hkey : (c.note.key.toNat : Int) = center + 12 * k)
    (hp : c.note.pitch = 0) : exp2 (noteExp c center) = (2 : Rat) ^ k := by
  have he : noteExp c center = 768 * k := by
    rw [noteExp_of_pitch_zero hp]
    omega
  rw [he, exp2_mul]

/-- The noise climbs three times as fast: four keys are 768 steps (R255). -/
theorem exp2_noteExp_noise {c : Chan} {center k : Int} (hkey : (c.note.key.toNat : Int) = center + 4 * k)
    (hp : c.note.pitch = 0) : exp2 (3 * noteExp c center) = (2 : Rat) ^ k := by
  have he : 3 * noteExp c center = 768 * k := by
    rw [noteExp_of_pitch_zero hp]
    omega
  rw [he, exp2_mul]

theorem clamp_mem_Icc {lo hi : Rat} (h : lo ≤ hi) (v : Rat) : lo ≤ clamp v lo hi ∧ clamp v lo hi ≤ hi :=
  ⟨le_min (le_max_right v lo) h, min_le_right (max v lo) hi⟩

theorem noiseFMin_le_noiseFMax : Params.noiseFMin ≤ Params.noiseFMax := by norm_num [Params.noiseFMin, Params.noiseFMax]

/-- Settles O22. -/
theorem octavesAreExact : Obligations.OctavesAreExact := by
  refine ⟨fun c k hkey hp => ⟨?square, ?wave⟩, fun c => clamp_mem_Icc noiseFMin_le_noiseFMax _, fun c k hkey hp => ?noise⟩
  case square => exact congrArg (Params.squareBase * ·) (exp2_noteExp_octave hkey hp)
  case wave => exact congrArg (Params.waveBase * ·) (exp2_noteExp_octave hkey hp)
  case noise =>
    exact congrArg (fun x => clamp (Params.noiseBase * x) Params.noiseFMin Params.noiseFMax) (exp2_noteExp_noise hkey hp)

end Sys2Proof.Machine
end

section
/-! PROOFS. The default `WAVE_DECODE` (R262, R263): 32 nibbles over 16, less their mean. A nibble is itself one of the 32 in that mean, so
it keeps 1/32 of its size away from either end. -/

namespace Sys2Proof.Machine

/-- The sum of entries between 0 and `M`, seen from one of them: the others add nothing at least, `M` each at most. -/
theorem sum_bounds_of_mem {u : List Rat} {M x : Rat} (hu : ∀ y ∈ u, 0 ≤ y ∧ y ≤ M) (hx : x ∈ u) :
    x ≤ u.sum ∧ u.sum ≤ x + (u.length - 1) * M := by
  have hsum : x + (u.erase x).sum = u.sum := List.sum_erase hx
  have hlow : 0 ≤ (u.erase x).sum := List.sum_nonneg fun y hy => (hu y (List.mem_of_mem_erase hy)).1
  have hhigh : (u.erase x).sum ≤ (u.erase x).length • M :=
    List.sum_le_card_nsmul _ _ fun y hy => (hu y (List.mem_of_mem_erase hy)).2
  rw [nsmul_eq_mul, List.length_erase_of_mem hx, Nat.cast_pred (List.length_pos_of_mem hx)] at hhigh
  constructor <;> linarith

theorem sum_map_sub_const (u : List Rat) (m : Rat) : (u.map (· - m)).sum = u.sum - u.length * m := by
  induction u with
  | nil => simp
  | cons x u ih =>
    simp only [List.map_cons, List.sum_cons, List.length_cons, ih]
    push_cast
    ring

theorem nibbles_range {b : U8} {x : Rat} (hx : x ∈ nibbles b) : 0 ≤ x ∧ x ≤ 15 / 16 := by
  have sixteenth {n : Nat} (hn : n ≤ 15) : 0 ≤ (n : Rat) / 16 ∧ (n : Rat) / 16 ≤ 15 / 16 := by
    have : (n : Rat) ≤ 15 := by exact_mod_cast hn
    exact ⟨by positivity, by linarith⟩
  have hb := b.isLt
  rcases List.mem_pair.mp hx with rfl | rfl
  · exact sixteenth (by omega)
  · exact sixteenth (by omega)

theorem flatMap_nibbles_range {bytes : List U8} : ∀ x ∈ bytes.flatMap nibbles, 0 ≤ x ∧ x ≤ 15 / 16 := by
  intro x hx
  obtain ⟨b, -, hxb⟩ := List.mem_flatMap.mp hx
  exact nibbles_range hxb

theorem waveDecode_eq (bytes : List U8) :
    waveDecode bytes = (bytes.flatMap nibbles).map (· - (bytes.flatMap nibbles).sum / 32) := rfl

/-- Settles O49. -/
theorem wavetableIsCentred : Obligations.WavetableIsCentred := by
  intro bytes h
  have hlen := waveDecode_length h
  rw [waveDecode_eq, List.length_map] at hlen
  refine ⟨waveDecode_length h, ?sum, fun y hy => ?range⟩
  case sum =>
    rw [waveDecode_eq, sum_map_sub_const, hlen]
    push_cast
    ring
  case range =>
    obtain ⟨x, hx, rfl⟩ := List.mem_map.mp (waveDecode_eq bytes ▸ hy)
    obtain ⟨hx0, hx1⟩ := flatMap_nibbles_range x hx
    obtain ⟨hlow, hhigh⟩ := sum_bounds_of_mem flatMap_nibbles_range hx
    rw [hlen] at hhigh
    push_cast at hhigh
    constructor <;> linarith

end Sys2Proof.Machine
end

section
/-! PROOFS. The INIT commands of the PSG kinds (R210, R250 to R252): one prologue, one change of waveform, one epilogue. -/

namespace Sys2Proof.Machine

theorem freqOf_square {c : Chan} (hk : c.kind = .square) : freqOf c = squareFreq c := by rw [freqOf, hk]

theorem freqOf_wave {c : Chan} (hk : c.kind = .wave) : freqOf c = waveFreq c := by rw [freqOf, hk]

theorem freqOf_noise {c : Chan} (hk : c.kind = .noise) : freqOf c = noiseFreq c := by rw [freqOf, hk]

/-- The phase is cleared under the switch alone (R253). -/
theorem psgPhaseInit_eq (cfg : Cfg) (c : Chan) :
    psgPhaseInit cfg c = { c with
      pos := if cfg.psgInitResetsPhase then 0 else c.pos
      frac := if cfg.psgInitResetsPhase then 0 else c.frac } := by
  rw [psgPhaseInit]
  cases cfg.psgInitResetsPhase <;> rfl

@[simp] theorem psgPhaseInit_state (cfg : Cfg) (c : Chan) : (psgPhaseInit cfg c).state = c.state := by rw [psgPhaseInit_eq]

@[simp] theorem psgPhaseInit_kind (cfg : Cfg) (c : Chan) : (psgPhaseInit cfg c).kind = c.kind := by rw [psgPhaseInit_eq]

/-- The levels of a note that has just begun: only in Playing does the velocity follow the sustain level (R211). -/
theorem setVolume_initializing {vol : U8} {pan : I8} {c : Chan} (hs : c.state = .initializing) (hk : c.kind ≠ .pcm8) :
    setVolume vol pan c = { c with
      panpot := panpotOf pan
      peak := peakOf c.note.velocity vol
      sus := susOf (peakOf c.note.velocity vol) c.S } := by
  have hlate : late c = false := late_eq_false.mpr (by simp [hs])
  rw [setVolume_psg hlate hk, psgSetVolume, if_neg (by simp [hs])]

/-- What the end of every PSG INIT writes, the frequency given (R113, R211, R253): see `psgEpilogue_eq`. -/
def psgBegun (cfg : Cfg) (st : StartArgs) (freq : Rat) (c : Chan) : Chan :=
  { c with
    note := { c.note with pitch := st.pitch }
    pos := if cfg.psgInitResetsPhase then 0 else c.pos
    frac := if cfg.psgInitResetsPhase then 0 else c.frac
    panpot := panpotOf st.pan
    peak := peakOf c.note.velocity st.vol
    sus := susOf (peakOf c.note.velocity st.vol) c.S
    freq := freq }

section
variable {cfg : Cfg} {rom : Memory} {st : StartArgs} {off : U32} {i : Nat} {w : Work}

/-- The epilogue of a note begun on a PSG channel (R113): its volume is not frozen, its frequency is that of its kind. -/
theorem psgEpilogue_eq {freq : Rat} (hs : w.chan.state = .initializing) (hk : w.chan.kind ≠ .pcm8)
    (hfreq : freqOf (withPitch st.pitch w.chan) = freq) : psgEpilogue cfg st w = w.onChan (psgBegun cfg st freq) := by
  subst hfreq
  have hvol : setVolume st.vol st.pan (psgPhaseInit cfg w.chan) = _ :=
    setVolume_initializing (by rwa [psgPhaseInit_state]) (by rwa [psgPhaseInit_kind])
  simp only [psgEpilogue, initEpilogue, Work.onChan]
  rw [hvol, psgPhaseInit_eq]
  rfl

/-! The rules on a channel of their own kind. -/

theorem ruleInitSquare_match {duty : BitVec 2} (hk : w.chan.kind = .square) :
    ruleInitSquare cfg st duty i w =
      .done (((psgPrologue i st w).onChan fun c => { c with duty := duty }).onChan
        (psgBegun cfg st (3520 * exp2 (64 * ((st.note.key.toNat : Int) - 69) + st.pitch.toInt)))) :=
  (kindCheck_match _ hk).trans (congrArg Run.done (psgEpilogue_eq rfl (ne_of_eq_of_ne hk (by decide)) (freqOf_square hk)))

theorem ruleInitNoise_match {npat : NoisePat} (hk : w.chan.kind = .noise) :
    ruleInitNoise cfg st npat i w =
      .done (((psgPrologue i st w).onChan fun c => { c with npat := npat }).onChan
        (psgBegun cfg st
          (min (max (4096 * exp2 (3 * (64 * ((st.note.key.toNat : Int) - 60) + st.pitch.toInt))) 8) 0x80000))) :=
  (kindCheck_match _ hk).trans (congrArg Run.done (psgEpilogue_eq rfl (ne_of_eq_of_ne hk (by decide)) (freqOf_noise hk)))

theorem ruleInitWave_inRom {bytes : List U8} (hk : w.chan.kind = .wave) (hr : memRead rom off.toNat 16 = .ok bytes) :
    ruleInitWave cfg rom st off i w =
      .done (((psgPrologue i st w).onChan fun c => { c with wave := waveDecode bytes }).onChan
        (psgBegun cfg st (7040 * exp2 (64 * ((st.note.key.toNat : Int) - 69) + st.pitch.toInt)))) := by
  rw [ruleInitWave, kindCheck_match _ hk, hr]
  exact congrArg Run.done (psgEpilogue_eq rfl (ne_of_eq_of_ne hk (by decide)) (freqOf_wave hk))

theorem ruleInitWave_outOfRom {a : Nat} (hk : w.chan.kind = .wave) (hr : memRead rom off.toNat 16 = .error a) :
    ruleInitWave cfg rom st off i w = .raised (psgPrologue i st w) ⟨.romRange, some a⟩ := by
  rw [ruleInitWave, kindCheck_match _ hk, hr]

end

/-- Settles O13: the rule's end, written back. -/
theorem initSquareResult : Obligations.InitSquareResult := fun _ ch st duty _ hc hk =>
  exec_of_done (i := .initSquare ch st duty) rfl hc (ruleInitSquare_match hk)

/-- Settles O14: the 16 bytes are read, so the rule is through. -/
theorem initWaveResult : Obligations.InitWaveResult := fun _ ch st off _ hc hk hrom =>
  exec_of_done (i := .initWave ch st off) rfl hc (ruleInitWave_inRom hk (memRead_ok hrom))

/-- Settles O15: the bytes are read after the prologue, which remains. -/
theorem initWaveFaultKeepsTheAttach : Obligations.InitWaveFaultKeepsTheAttach := fun _ ch st off _ hc hk hrom =>
  exec_of_raised (i := .initWave ch st off) rfl hc (ruleInitWave_outOfRom hk (memRead_error hrom))

/-- Settles O16: the rule's end, written back. -/
theorem initNoiseResult : Obligations.InitNoiseResult := fun _ ch st npat _ hc hk =>
  exec_of_done (i := .initNoise ch st npat) rfl hc (ruleInitNoise_match hk)

end Sys2Proof.Machine
end

section
/-! PROOFS. The gains of a block (R291, R292, R299): one lane of each family, then both lanes of a channel. -/

namespace Sys2Proof.Machine

/-! One lane. -/

section
variable {cfg : Cfg} (term vel : U8)

theorem pcm8Gain_eq : pcm8Gain cfg term vel = (term.toNat : Rat) * vel.toNat * cfg.pcm8Master / 0x10000 := rfl

theorem pcm8Gain_nonneg (h : 0 ≤ cfg.pcm8Master) : 0 ≤ pcm8Gain cfg term vel := by
  rw [pcm8Gain_eq]
  positivity

/-- Two bytes multiply to less than `PCM8_GAIN_MAX` (R299). -/
theorem pcm8Gain_lt_master (h : 0 < cfg.pcm8Master) : pcm8Gain cfg term vel < cfg.pcm8Master := by
  have hprod : term.toNat * vel.toNat < 0x10000 := Nat.mul_lt_mul'' term.isLt vel.isLt
  have hcast : (term.toNat : Rat) * vel.toNat < 0x10000 := by exact_mod_cast hprod
  rw [pcm8Gain_eq, div_lt_iff₀ (by norm_num), mul_comm]
  exact mul_lt_mul_of_pos_left hcast h

end

section
variable {muted : Bool} (vel : U8)

theorem psgGain_muted : psgGain true vel = 0 := zero_mul _

theorem psgGain_heard : psgGain false vel = (vel.toNat : Rat) / 32 := mul_one _

theorem psgGain_range : 0 ≤ psgGain muted vel ∧ psgGain muted vel ≤ (vel.toNat : Rat) / 32 := by
  have h : 0 ≤ (vel.toNat : Rat) / 32 := by positivity
  cases muted with
  | true => rw [psgGain_muted]; exact ⟨le_rfl, h⟩
  | false => rw [psgGain_heard]; exact ⟨h, le_rfl⟩

end

/-! Both lanes. -/

section
variable {cfg : Cfg} {c : Chan}

theorem gainL_pcm8 (h : c.kind = .pcm8) : gainL cfg c = pcm8Gain cfg c.lvol c.vel := if_pos h

theorem gainR_pcm8 (h : c.kind = .pcm8) : gainR cfg c = pcm8Gain cfg c.rvol c.vel := if_pos h

theorem gainL_psg (h : c.kind ≠ .pcm8) : gainL cfg c = psgGain (decide (c.panpot = .right)) c.vel := if_neg h

theorem gainR_psg (h : c.kind ≠ .pcm8) : gainR cfg c = psgGain (decide (c.panpot = .left)) c.vel := if_neg h

theorem gains_nonneg (h : 0 ≤ cfg.pcm8Master) : 0 ≤ gainL cfg c ∧ 0 ≤ gainR cfg c := by
  by_cases hk : c.kind = .pcm8
  · rw [gainL_pcm8 hk, gainR_pcm8 hk]
    exact ⟨pcm8Gain_nonneg _ _ h, pcm8Gain_nonneg _ _ h⟩
  · rw [gainL_psg hk, gainR_psg hk]
    exact ⟨(psgGain_range _).1, (psgGain_range _).1⟩

end

/-- Settles O19. -/
theorem gainsOfABlock : Obligations.GainsOfABlock := by
  intro cfg c hmaster
  obtain ⟨hL, hR⟩ := gains_nonneg (c := c) hmaster
  refine ⟨hL, hR, fun hk => ?pcm8, fun hk => ?psg⟩
  case pcm8 =>
    rw [gainL_pcm8 hk, gainR_pcm8 hk]
    exact ⟨pcm8Gain_eq .., pcm8Gain_eq .., fun h => ⟨pcm8Gain_lt_master _ _ h, pcm8Gain_lt_master _ _ h⟩⟩
  case psg =>
    rw [gainL_psg hk, gainR_psg hk]
    refine ⟨fun hvel => ?bound, fun hp => ?left, fun hp => ?right, fun hp => ?center⟩
    case bound =>
      have h63 : (c.vel.toNat : Rat) / 32 ≤ 63 / 32 := by gcongr; exact_mod_cast hvel
      exact ⟨(psgGain_range _).2.trans h63, (psgGain_range _).2.trans h63⟩
    case left => rw [hp]; exact ⟨psgGain_muted _, psgGain_heard _⟩
    case right => rw [hp]; exact ⟨psgGain_muted _, psgGain_heard _⟩
    case center => rw [hp]; exact ⟨psgGain_heard _, psgGain_heard _⟩

end Sys2Proof.Machine
end

section
/-! PROOFS. `MIX_BLOCK` (R297, R298). Through, it adds to the zeroed block what each channel's `PROCESS` adds to a block of zeros, since that
does not depend on the block (R73); at a fault it ends, with the channels before the fault through and those after it untouched (R328). -/

namespace Sys2Proof.Machine

theorem exec_mixBlock (b : BufArg) (s : State) :
    exec (.mixBlock b) s = .next (finishMix s (mixChannels s.cfg s.rom 0 s.chs (zeroBlock s.cfg.n) [])) := rfl

theorem finishMix_none {s : State} {m : Mix} (h : m.fault = none) : finishMix s m = s.commitMix m := by rw [finishMix, h]

theorem finishMix_some {s : State} {m : Mix} {ch : Nat} {cause : FaultCause} (h : m.fault = some (ch, cause)) :
    finishMix s m = raiseFault (s.commitMix m) ⟨cause.reason, .mixBlock, ch, cause.addr⟩ := by rw [finishMix, h]

/-! The sum. -/

/-- Only what is added within the block matters. -/
theorem addAll_congr {d d' : Nat → Rat} {buf : List Rat} (h : ∀ j < buf.length, d j = d' j) : addAll d buf = addAll d' buf := by
  apply List.ext_getElem?
  intro j
  rw [addAll_getElem?, addAll_getElem?]
  by_cases hj : j < buf.length
  · rw [h j hj]
  · rw [List.getElem?_eq_none (Nat.not_lt.mp hj)]
    rfl

theorem addAll_length (d : Nat → Rat) (buf : List Rat) : (addAll d buf).length = buf.length := List.length_mapIdx

theorem addAll_zeroBlock_getElem? (d : Nat → Rat) {n j : Nat} (hj : j < 2 * n) : (addAll d (zeroBlock n))[j]? = some (d j) := by
  rw [addAll_getElem?, zeroBlock, List.getElem?_replicate_of_lt hj, Option.map_some, zero_add]

theorem addAll_zeroBlock (d : Nat → Rat) (n : Nat) : addAll d (zeroBlock n) = (List.range (2 * n)).map d := by
  apply List.ext_getElem?
  intro j
  by_cases hj : j < 2 * n
  · rw [addAll_zeroBlock_getElem? d hj, List.getElem?_map, List.getElem?_range hj]
    rfl
  · rw [List.getElem?_eq_none, List.getElem?_eq_none] <;> simpa [addAll_length] using hj

/-- What a `PROCESS` leaves of a block of zeros is what it adds to any block of that length (R64, R73). -/
theorem ruleProcess_adds_its_block {cfg : Cfg} {rom : Memory} {i n : Nat} {c : Chan} {w : Work} {buf : List Rat}
    (h : ruleProcess cfg rom i (Work.start c (zeroBlock n)) = .done w) (hb : buf.length = 2 * n) :
    ruleProcess cfg rom i (Work.start c buf) = .done (w.withBuf (addAll (fun j => w.buf.getD j 0) buf)) := by
  obtain ⟨d, hd, adds⟩ := ruleProcess_done_adds h
  have hsame : addAll (fun j => w.buf.getD j 0) buf = addAll d buf :=
    addAll_congr fun j hj => by
      rw [hd, List.getD_eq_getElem?_getD, addAll_zeroBlock_getElem? d (hb ▸ hj), Option.getD_some]
  rw [hsame]
  exact adds buf

/-- The sum of the elements `j` of the blocks of some works. -/
def blockSum (ws : List Work) (j : Nat) : Rat := (ws.map fun w => w.buf.getD j 0).sum

theorem blockSum_cons (w : Work) (ws : List Work) (j : Nat) : blockSum (w :: ws) j = w.buf.getD j 0 + blockSum ws j :=
  List.sum_cons

/-- A mix whose channels, numbered from `i` on, are all through. -/
theorem mixChannels_through {cfg : Cfg} {rom : Memory} {i n : Nat} {chs : List Chan} {ws : List Work} {buf : List Rat}
    {ev : List Event} (hlen : ws.length = chs.length) (hb : buf.length = 2 * n)
    (h : ∀ j c w, chs[j]? = some c → ws[j]? = some w → ruleProcess cfg rom (i + j) (Work.start c (zeroBlock n)) = .done w) :
    mixChannels cfg rom i chs buf ev =
      ⟨ws.map (·.chan), addAll (blockSum ws) buf, ev ++ (ws.map (·.events)).flatten, none⟩ := by
  induction chs generalizing i ws buf ev with
  | nil =>
    obtain rfl := List.length_eq_zero_iff.mp hlen
    simp only [List.map_nil, List.flatten_nil, List.append_nil]
    exact congrArg (fun b => Mix.mk [] b ev none) (addAll_zero buf).symm
  | cons c chs ih =>
    obtain ⟨w, ws, rfl⟩ := List.exists_cons_of_length_eq_add_one hlen
    have hfirst := ruleProcess_adds_its_block (i := i) (h 0 c w rfl rfl) hb
    have hrest := ih (i := i + 1) (ws := ws) (buf := addAll (fun j => w.buf.getD j 0) buf) (ev := ev ++ w.events)
      (Nat.succ.inj hlen) ((addAll_length ..).trans hb) fun j c' w' hc hw => by
        rw [show i + 1 + j = i + (j + 1) by omega]
        exact h (j + 1) c' w' hc hw
    have hsum : addAll (blockSum ws) (addAll (fun j => w.buf.getD j 0) buf) = addAll (blockSum (w :: ws)) buf := by
      rw [addAll_addAll]
      exact addAll_congr fun j _ => (blockSum_cons w ws j).symm
    rw [mixChannels_done hfirst]
    simp only [Work.withBuf, hrest, hsum, List.map_cons, List.flatten_cons, List.append_assoc]

/-- Settles O50: the block starts at zeros, where what is added is what stands there. -/
theorem mixBlockIsTheSum : Obligations.MixBlockIsTheSum := by
  intro s b ws hlen h
  have hmix := mixChannels_through (i := 0) (ev := []) hlen (zeroBlock_length s.cfg.n) fun j c w hc hw => by
    rw [Nat.zero_add]
    exact h j c w hc hw
  rw [addAll_zeroBlock, List.nil_append] at hmix
  rw [exec_mixBlock, hmix, finishMix_none rfl]
  rfl

/-! Channels that cannot fault. -/

/-- The frames of an oscillator never fault (R257, R264, R272). -/
theorem frames_tableTick_done {ch len inc : Nat} {gL gR : Rat} {sample : Nat → Rat} (k f : Nat) (w : Work) :
    ∃ w', frames ch gL gR (tableTick len sample inc) k f w = .done w' := by
  rcases frames_cases (ch := ch) (gL := gL) (gR := gR) (tick := tableTick len sample inc) (P := fun _ => True) (Q := fun _ => True)
    (fun _ _ _ _ _ => trivial) (fun _ _ _ _ _ => trivial) k f w trivial with ⟨w', hw, -⟩ | ⟨w', cause, -, -, ht, -⟩
  · exact ⟨w', hw⟩
  · cases ht

/-- `PROCESS` of a `Dead` channel, or of a PSG channel with an increment in range, is through (R127, R123, R257). -/
theorem ruleProcess_through {cfg : Cfg} (rom : Memory) (i : Nat) {c : Chan} (buf : List Rat)
    (h : c.state = .dead ∨ c.kind ≠ .pcm8 ∧ phaseInc c.freq cfg.sr < 2 ^ 48) :
    ∃ w, ruleProcess cfg rom i (Work.start c buf) = .done w := by
  rw [ruleProcess]
  rcases h with hd | ⟨hk, hi⟩
  · rw [envStep_dead (w := Work.start c buf) hd]
    exact ⟨_, afterEnv_dead hd⟩
  · by_cases he : (envChan cfg i c).state = .dead
    · exact ⟨_, afterEnv_dead (by rw [envStep_chan]; exact he)⟩
    · have same := envChan_same cfg i c
      rw [envStep_alive buf he, afterEnv, if_neg (by rw [start_chan]; exact he),
        generate_psg (by rw [start_chan, same.kind]; exact hk), tableGenerate_frames (by rw [start_chan, same.freq]; exact hi)]
      exact frames_tableTick_done ..

/-- Settles O51: no channel can fault, so the mix is the sum of their blocks. -/
theorem mixBlockOfPsgAndDeadChannelsCompletes : Obligations.MixBlockOfPsgAndDeadChannelsCompletes := by
  intro s b h
  have hmix := mixBlockIsTheSum s b (s.chs.mapIdx fun i c => (ruleProcess s.cfg s.rom i (Work.start c (zeroBlock s.cfg.n))).work)
    List.length_mapIdx fun i c w hc hw => by
      obtain ⟨w', hw'⟩ := ruleProcess_through s.rom i (zeroBlock s.cfg.n) (h c (List.mem_of_getElem? hc))
      rw [List.getElem?_mapIdx, hc, Option.map_some, hw'] at hw
      obtain rfl := Option.some.inj hw
      exact hw'
  exact ⟨_, hmix, rfl, rfl, by rw [List.length_map, List.length_range], by rw [List.length_map, List.length_mapIdx],
    rfl, rfl, rfl, rfl, rfl⟩

/-! The first fault. -/

/-- A mix over `chs`, numbered from `i` on, has left `chs'` and ended at the fault `cause` of the `j`-th of them. -/
structure MixFault (cfg : Cfg) (rom : Memory) (i : Nat) (chs chs' : List Chan) (j : Nat) (cause : FaultCause) : Prop where
  lt : j < chs.length
  after : ∀ k, j < k → chs'[k]? = chs[k]?
  at_fault : ∀ c buf, chs[j]? = some c →
    ∃ w, ruleProcess cfg rom (i + j) (Work.start c buf) = .raised w cause ∧ chs'[j]? = some w.chan
  before : ∀ k c buf, k < j → chs[k]? = some c →
    ∃ w, ruleProcess cfg rom (i + k) (Work.start c buf) = .done w ∧ chs'[k]? = some w.chan

section
variable {cfg : Cfg} {rom : Memory} {i : Nat} {c : Chan} {chs chs' : List Chan} {buf : List Rat} {w : Work} {cause : FaultCause}

/-- The first channel faults. -/
theorem MixFault.head (h : ruleProcess cfg rom i (Work.start c buf) = .raised w cause) :
    MixFault cfg rom i (c :: chs) (w.chan :: chs) 0 cause where
  lt := Nat.succ_pos _
  after k hk := by
    obtain ⟨k, rfl⟩ := Nat.exists_eq_succ_of_ne_zero hk.ne'
    rfl
  at_fault x buf' hx := by
    obtain rfl := Option.some.inj hx
    obtain ⟨w', hw', hchan, -⟩ := ruleProcess_raised h buf'
    exact ⟨w', hw', congrArg some hchan.symm⟩
  before _ _ _ hk := absurd hk (Nat.not_lt_zero _)

/-- The first channel is through, and a later one faults. -/
theorem MixFault.cons {j : Nat} (h : ruleProcess cfg rom i (Work.start c buf) = .done w)
    (hs : MixFault cfg rom (i + 1) chs chs' j cause) : MixFault cfg rom i (c :: chs) (w.chan :: chs') (j + 1) cause where
  lt := Nat.succ_lt_succ hs.lt
  after k hk := by
    obtain ⟨k, rfl⟩ := Nat.exists_eq_succ_of_ne_zero (Nat.ne_zero_of_lt hk)
    exact hs.after k (Nat.lt_of_succ_lt_succ hk)
  at_fault x buf' hx := by
    rw [show i + (j + 1) = i + 1 + j by omega]
    exact hs.at_fault x buf' hx
  before k x buf' hk hx := by
    cases k with
    | zero =>
      obtain rfl := Option.some.inj hx
      obtain ⟨w', hw', hchan, -⟩ := ruleProcess_done h buf'
      exact ⟨w', hw', congrArg some hchan.symm⟩
    | succ k =>
      rw [show i + (k + 1) = i + 1 + k by omega]
      exact hs.before k x buf' (Nat.lt_of_succ_lt_succ hk) hx

end

/-- A mix that a fault has ended. -/
theorem mixChannels_fault {cfg : Cfg} {rom : Memory} {i ch : Nat} {chs : List Chan} {buf : List Rat} {ev : List Event}
    {cause : FaultCause} (h : (mixChannels cfg rom i chs buf ev).fault = some (ch, cause)) :
    ∃ j, ch = i + j ∧ MixFault cfg rom i chs (mixChannels cfg rom i chs buf ev).chs j cause := by
  induction chs generalizing i buf ev with
  | nil => cases h
  | cons c chs ih =>
    cases hr : ruleProcess cfg rom i (Work.start c buf) with
    | done w =>
      rw [mixChannels_done hr] at h ⊢
      obtain ⟨j, rfl, hs⟩ := ih h
      exact ⟨j + 1, by omega, .cons hr hs⟩
    | raised w cause' =>
      rw [mixChannels_raised hr] at h ⊢
      cases h
      exact ⟨0, rfl, .head hr⟩

/-- Settles O52: without a fault in the mix the outcome is ok, so there is one, and the record is made of it. -/
theorem mixBlockEndsAtTheFirstFault : Obligations.MixBlockEndsAtTheFirstFault := by
  intro s t b r ht ho
  rw [exec_mixBlock] at ht
  cases ht
  cases hf : (mixChannels s.cfg s.rom 0 s.chs (zeroBlock s.cfg.n) []).fault with
  | none =>
    rw [finishMix_none hf] at ho
    cases ho
  | some fault =>
    obtain ⟨ch, cause⟩ := fault
    obtain ⟨j, hch, hend⟩ := mixChannels_fault hf
    obtain rfl : ch = j := hch.trans (Nat.zero_add j)
    rw [finishMix_some hf] at ho ⊢
    cases ho
    refine ⟨rfl, rfl, hend.lt, hend.after, fun c buf hc => ?at_fault, fun k c buf hk hc => ?before⟩
    case at_fault => simpa only [Nat.zero_add, raiseFault_chs, commitMix_chs] using hend.at_fault c buf hc
    case before => simpa only [Nat.zero_add, raiseFault_chs, commitMix_chs] using hend.before k c buf hk hc

end Sys2Proof.Machine
end

section
/-! PROOFS. The two marks (R320 to R323): every command is refused, through or ended by a fault (`CommandEnd`), and each end says what it does
to the marks and what its outcome is. -/

namespace Sys2Proof.Machine

/-! A refused command (R321). -/

/-- A command that does not decode is refused with decode's reason (R110, R321). -/
theorem step_of_decode_error {s : State} {c : Command} {rest : List Command} {r : RefuseReason} (hf : s.faulted = false)
    (h : s.cmds = c :: rest) (hd : decode s.chs.length s.cfg.n c = .error r) :
    step s = .next (refuseCommand { s with cmds := rest } r) := by
  have hd' : decodeFor { s with cmds := rest } c = .error r := hd
  unfold step
  simp only [if_neg (show ¬ s.faulted = true by simp [hf]), fetchCommand_eq_some h, hd']

/-- Settles O6. -/
theorem refusedCommandOnlySetsTheMark : Obligations.RefusedCommandOnlySetsTheMark := by
  intro s c rest r hf hc hd
  exact step_of_decode_error hf hc hd

/-! The end of any command. -/

/-- How command `i` takes `s` to `t`, as far as the marks and the outcome tell: refused (R321), through, or ended by a fault whose record names
the command and has the address it should (R320, R323). -/
inductive CommandEnd (i : Instr) (s t : State) : Prop where
  | refused (reason : RefuseReason) (outcome : t.out.outcome = .refused reason) (faulted : t.faulted = s.faulted)
      (refused : t.refused = true)
  | through (outcome : t.out.outcome = .ok) (faulted : t.faulted = s.faulted) (refused : t.refused = s.refused)
  | fault (record : FaultRecord) (outcome : t.out.outcome = .fault record) (faulted : t.faulted = true)
      (refused : t.refused = s.refused) (op : record.op = i.opcode) (cause : CauseOk s.rom ⟨record.reason, record.addr⟩)

/-- A rule on one channel ends its command. -/
theorem RuleEnd.commandEnd {i : Instr} {s : State} {ch : Nat} {w : Work} {r : Run} (h : RuleEnd ch s.rom w r) :
    CommandEnd i s (finish s i.opcode ch r) := by
  cases r with
  | done w' => exact .through rfl rfl rfl
  | raised w' cause => exact .fault _ rfl rfl rfl rfl h.2

/-- The cause of a mix's fault is that of a `PROCESS`. -/
theorem MixFault.causeOk {cfg : Cfg} {rom : Memory} {i j : Nat} {chs chs' : List Chan} {cause : FaultCause}
    (h : MixFault cfg rom i chs chs' j cause) : CauseOk rom cause := by
  have hlt : j < chs.length := h.lt
  obtain ⟨w, hw, -⟩ := h.at_fault chs[j] [] (List.getElem?_eq_getElem hlt)
  have hend := ruleProcess_end cfg rom (i + j) (Work.start chs[j] [])
  rw [hw] at hend
  exact hend.2

theorem finishMix_commandEnd (b : BufArg) (s : State) (buf : List Rat) (ev : List Event) :
    CommandEnd (.mixBlock b) s (finishMix s (mixChannels s.cfg s.rom 0 s.chs buf ev)) := by
  cases hf : (mixChannels s.cfg s.rom 0 s.chs buf ev).fault with
  | none =>
    rw [finishMix_none hf]
    exact .through rfl rfl rfl
  | some fault =>
    obtain ⟨ch, cause⟩ := fault
    obtain ⟨j, -, hfault⟩ := mixChannels_fault hf
    rw [finishMix_some hf]
    exact .fault _ rfl rfl rfl rfl hfault.causeOk

/-- Every command that answers a next state has one of the three ends (R320, R321). -/
theorem exec_commandEnd {i : Instr} {s t : State} (h : exec i s = .next t) : CommandEnd i s t := by
  cases hi : i.channel? with
  | none =>
    obtain ⟨b, rfl⟩ := channel?_eq_none hi
    cases h
    exact finishMix_commandEnd b s _ _
  | some ch =>
    rcases exec_channel_cases hi h with rfl | ⟨c, -, rfl⟩
    · exact .refused .chRange rfl rfl rfl
    · exact (ruleOf_end s i _ _).commandEnd

/-! The marks (R322). -/

theorem CommandEnd.keeps_faulted {i : Instr} {s t : State} (h : CommandEnd i s t) (hs : s.faulted = true) : t.faulted = true := by
  cases h with
  | refused reason _ hf _ => exact hf.trans hs
  | through _ hf _ => exact hf.trans hs
  | fault record _ hf => exact hf

theorem CommandEnd.keeps_refused {i : Instr} {s t : State} (h : CommandEnd i s t) (hs : s.refused = true) : t.refused = true := by
  cases h with
  | refused reason _ _ hr => exact hr
  | through _ _ hr => exact hr.trans hs
  | fault record _ _ hr => exact hr.trans hs

/-- Settles O8: a step that does not decode its command sets `refused`, any other ends as its command does. -/
theorem marksAreSticky : Obligations.MarksAreSticky := by
  refine ⟨fun i s t h => ?command, fun s t h => ?step, fun cfg rom kinds => ?construction⟩
  case command => exact ⟨(exec_commandEnd h).keeps_faulted, (exec_commandEnd h).keeps_refused⟩
  case step =>
    obtain ⟨c, rest, -, -, ⟨reason, -, rfl⟩ | ⟨i, -, he⟩⟩ := step_cases h
    · exact fun _ => refuseCommand_refused _ _
    · exact (exec_commandEnd he).keeps_refused
  case construction => exact ⟨construct_faulted .., construct_refused ..⟩

/-! The record (R320, R323). -/

/-- Settles O9: the outcome tells which of the three ends the command has had. -/
theorem faultRecordIsFaithful : Obligations.FaultRecordIsFaithful := by
  intro i s t h
  cases exec_commandEnd h with
  | refused reason ho => exact ⟨fun r hr => by simp [ho] at hr, fun hok => by simp [ho] at hok⟩
  | through ho hf hr => exact ⟨fun r hr => by simp [ho] at hr, fun _ => ⟨hf, hr⟩⟩
  | fault record ho hf _ hop hcause =>
    refine ⟨fun r hr => ?_, fun hok => by simp [ho] at hok⟩
    obtain rfl : record = r := by simpa [ho] using hr
    exact ⟨hf, hop, hcause⟩

end Sys2Proof.Machine
end

section
/-! PROOFS. Construction (R350, R353): a channel at its reset value is as it should be, whatever its kind, and the block made of such channels
meets `State.Inv`. -/

namespace Sys2Proof.Machine

/-! A channel at its reset value. -/

theorem indexBound_pos (kind : Kind) : 0 < indexBound kind := by
  cases kind <;> decide

/-- At the reset value every level, rate and index is 0, and the state is not one that needs a rate. -/
theorem Chan.reset_psgOk (kind : Kind) : PsgOk (Chan.reset kind) where
  rates := by simp [Chan.reset]
  levels := by simp [Chan.reset]
  not_dying := nofun
  rising := nofun
  decaying := nofun
  index := indexBound_pos kind

/-- A channel is constructed free, `Dead` with no owner (R25, R350). -/
theorem Chan.reset_ok (kind : Kind) : (Chan.reset kind).Ok where
  owned := ⟨fun _ => rfl, fun _ => rfl⟩
  wave := List.length_replicate
  dec := fun _ => rfl
  freq := le_rfl
  psg := fun _ => Chan.reset_psgOk kind

/-! The block. -/

theorem construct_inv {cfg : Cfg} {rom : Memory} {kinds : List Kind} (hcfg : cfg.Ok) (hrom : rom.wf = true)
    (hpos : 1 ≤ kinds.length) (hle : kinds.length ≤ 256) : (State.construct cfg rom kinds).Inv where
  cfg := hcfg
  pool := by simpa using ⟨hpos, hle⟩
  rom := hrom
  buf := List.length_replicate
  chans := by
    rw [construct_chs]
    exact List.forall_mem_map.mpr fun kind _ => Chan.reset_ok kind

/-! The model's reset (log 5). -/

theorem Cfg.reset_ok : Cfg.reset.Ok where
  n := by decide
  sr := by decide
  master := zero_le_one

theorem resetKinds_length : resetKinds.length = 256 := by
  rw [resetKinds, List.length_flatten, List.map_replicate, List.sum_replicate]
  rfl

/-- Settles O59: the reset state is a construction whose parameters are allowed. -/
theorem constructionMeetsTheInvariant : Obligations.ConstructionMeetsTheInvariant := by
  refine ⟨fun cfg rom kinds hcfg hrom hpos hle => construct_inv hcfg hrom hpos hle, ?reset⟩
  case reset => exact construct_inv Cfg.reset_ok rfl (by simp [resetKinds_length]) resetKinds_length.le

/-- Settles O60: the registers are `Chan.reset`'s own, and the pool is the list of kinds, each at its reset value. -/
theorem resetValues : Obligations.ResetValues := by
  refine ⟨fun kind => rfl, fun cfg rom kinds i => ⟨?pool, construct_faulted .., construct_refused ..⟩⟩
  case pool => rw [construct_chs, List.getElem?_map]

end Sys2Proof.Machine
end
